-- ==== Sys2Proof/Word.lean ====
section
/-! DEFINITION. The words the block's spec treats as bits: command words, bytes, colour words. -/

namespace Sys2Proof

/-- A 32-bit word: a head word, an argument word, a register (30_encoding.md R70, 10_state.md R33). -/
abbrev Word := BitVec 32

/-- One byte of a bus transfer (`UInt8`, 00_scope.md R10). -/
abbrev Byte := BitVec 8

/-- A colour word: a `UInt16` in wire byte order (41_color.md R100). -/
abbrev Colour := BitVec 16

/-- An output pin's number (`UInt8`, 00_scope.md R6). -/
abbrev Pin := BitVec 8

end Sys2Proof
end

