-- ==== Sys2Proof/Syntax.lean ====
section
/-! DEFINITION. The fourteen commands of the opcode table (30_encoding.md R74) as syntax. Operands that
the spec computes on as exact integers (coordinates, the character code, the image selector;
00_scope.md R12, 30_encoding.md R76, R77) are natural numbers, and WellFormed.lean bounds them by their
fields (log entry 18). Colours stay 16-bit words, and one-bit fields are Booleans. -/

namespace Sys2Proof

/-- The mnemonics, one per row of spec/opcode_table.json. -/
inductive Mnemonic
  | INIT | ON | OFF | BKL
  | CLEAR | SETPXC | SETPX | CLRPX | FRECT | DCHRC | DCHR | DIMG
  | SETWIN | FLIP
  deriving DecidableEq, Repr

/-- A command, its operands in the order of the assembler syntax (30_encoding.md R82). -/
inductive Instr
  /-- `INIT` (43_device.md R161). -/
  | init
  /-- `ON` (43_device.md R171). -/
  | on
  /-- `OFF` (43_device.md R172). -/
  | off
  /-- `BKL en` (43_device.md R173). -/
  | bkl (en : Bool)
  /-- `CLEAR[.I] bgc` (42_rasterizer.md R123). -/
  | clear (imm : Bool) (bgc : Colour)
  /-- `SETPXC x, y, col` (42_rasterizer.md R124). -/
  | setpxc (x y : Nat) (col : Colour)
  /-- `SETPX x, y` (42_rasterizer.md R125). -/
  | setpx (x y : Nat)
  /-- `CLRPX x, y` (42_rasterizer.md R126). -/
  | clrpx (x y : Nat)
  /-- `FRECT[.I] x1, y1, x2, y2` (42_rasterizer.md R127). -/
  | frect (imm : Bool) (x1 y1 x2 y2 : Nat)
  /-- `DCHRC[.INV][.DW] ch, x, y, fg, bg` (42_rasterizer.md R130). -/
  | dchrc (inv dw : Bool) (ch x y : Nat) (fg bg : Colour)
  /-- `DCHR[.INV][.DW] ch, x, y` (42_rasterizer.md R131). -/
  | dchr (inv dw : Bool) (ch x y : Nat)
  /-- `DIMG[.I] sel` (42_rasterizer.md R133). -/
  | dimg (imm : Bool) (sel : Nat)
  /-- `SETWIN x0, y0, x1, y1` (44_transmit.md R197). -/
  | setwin (x0 y0 x1 y1 : Nat)
  /-- `FLIP` (44_transmit.md R198). -/
  | flip
  deriving DecidableEq, Repr

/-- The opcode-table row a command belongs to. -/
def Instr.mnemonic : Instr → Mnemonic
  | .init => .INIT
  | .on => .ON
  | .off => .OFF
  | .bkl _ => .BKL
  | .clear _ _ => .CLEAR
  | .setpxc _ _ _ => .SETPXC
  | .setpx _ _ => .SETPX
  | .clrpx _ _ => .CLRPX
  | .frect _ _ _ _ _ => .FRECT
  | .dchrc _ _ _ _ _ _ _ => .DCHRC
  | .dchr _ _ _ _ _ => .DCHR
  | .dimg _ _ => .DIMG
  | .setwin _ _ _ _ => .SETWIN
  | .flip => .FLIP

end Sys2Proof
end

