-- ==== Sys2Proof/WellFormed.lean ====
section
/-! DEFINITION. Which command terms can be encoded: each operand fits its field (30_encoding.md R72,
R76, R77, R83, R85). -/

namespace Sys2Proof

/-- A value fits a 16-bit field. -/
abbrev fits16 (n : Nat) : Prop := n < 65536

/-- A value fits the 8-bit character field. -/
abbrev fits8 (n : Nat) : Prop := n < 256

/-- Every operand of the command fits the field that carries it. -/
def Instr.wellFormed : Instr → Bool
  | .init => true
  | .on => true
  | .off => true
  | .bkl _ => true
  | .clear _ _ => true
  | .setpxc x y _ => decide (fits16 x ∧ fits16 y)
  | .setpx x y => decide (fits16 x ∧ fits16 y)
  | .clrpx x y => decide (fits16 x ∧ fits16 y)
  | .frect _ x1 y1 x2 y2 => decide (fits16 x1 ∧ fits16 y1 ∧ fits16 x2 ∧ fits16 y2)
  | .dchrc _ _ ch x y _ _ => decide (fits8 ch ∧ fits16 x ∧ fits16 y)
  | .dchr _ _ ch x y => decide (fits8 ch ∧ fits16 x ∧ fits16 y)
  | .dimg _ sel => decide (fits16 sel)
  | .setwin x0 y0 x1 y1 => decide (fits16 x0 ∧ fits16 y0 ∧ fits16 x1 ∧ fits16 y1)
  | .flip => true

end Sys2Proof
end

