-- ==== Sys2Proof/Decode.lean ====
section
/-! DEFINITION. The decoder (30_encoding.md R70 to R80) and the encoder, both from the tables of R74 and
R75. Decoding is total: a list of words gives a command and the rest, or a rejection by name. -/

namespace Sys2Proof

/-! ### The opcode map (R74) and the fixed bits (R75) -/

/-- The opcode of each row, the `OP` column of R74. -/
def Mnemonic.op : Mnemonic → Byte
  | .INIT => 0x01#8
  | .ON => 0x02#8
  | .OFF => 0x03#8
  | .BKL => 0x04#8
  | .CLEAR => 0x10#8
  | .SETPXC => 0x11#8
  | .SETPX => 0x12#8
  | .CLRPX => 0x13#8
  | .FRECT => 0x14#8
  | .DCHRC => 0x15#8
  | .DCHR => 0x16#8
  | .DIMG => 0x17#8
  | .SETWIN => 0x20#8
  | .FLIP => 0x21#8

/-- The number of argument words, the `k` column of R74. -/
def Mnemonic.argWords : Mnemonic → Nat
  | .INIT => 0
  | .ON => 0
  | .OFF => 0
  | .BKL => 0
  | .CLEAR => 0
  | .SETPXC => 1
  | .SETPX => 1
  | .CLRPX => 1
  | .FRECT => 2
  | .DCHRC => 2
  | .DCHR => 1
  | .DIMG => 0
  | .SETWIN => 2
  | .FLIP => 0

/-- The `mask` column of R75. -/
def Mnemonic.mask : Mnemonic → Word
  | .INIT => 0xFFFFFFFF#32
  | .ON => 0xFFFFFFFF#32
  | .OFF => 0xFFFFFFFF#32
  | .BKL => 0xFFFFFFFE#32
  | .CLEAR => 0xFF7F0000#32
  | .SETPXC => 0xFFFF0000#32
  | .SETPX => 0xFFFFFFFF#32
  | .CLRPX => 0xFFFFFFFF#32
  | .FRECT => 0xFF7FFFFF#32
  | .DCHRC => 0xFF9FFF00#32
  | .DCHR => 0xFF9FFF00#32
  | .DIMG => 0xFF7F0000#32
  | .SETWIN => 0xFFFFFFFF#32
  | .FLIP => 0xFFFFFFFF#32

/-- The `match` column of R75. -/
def Mnemonic.pattern : Mnemonic → Word
  | .INIT => 0x01000000#32
  | .ON => 0x02000000#32
  | .OFF => 0x03000000#32
  | .BKL => 0x04000000#32
  | .CLEAR => 0x10000000#32
  | .SETPXC => 0x11000000#32
  | .SETPX => 0x12000000#32
  | .CLRPX => 0x13000000#32
  | .FRECT => 0x14000000#32
  | .DCHRC => 0x15000000#32
  | .DCHR => 0x16000000#32
  | .DIMG => 0x17000000#32
  | .SETWIN => 0x20000000#32
  | .FLIP => 0x21000000#32

/-- The row an opcode selects; `none` is an unassigned opcode (R79). -/
def opcodeOf (op : Byte) : Option Mnemonic :=
  match op.toNat with
  | 0x01 => some .INIT
  | 0x02 => some .ON
  | 0x03 => some .OFF
  | 0x04 => some .BKL
  | 0x10 => some .CLEAR
  | 0x11 => some .SETPXC
  | 0x12 => some .SETPX
  | 0x13 => some .CLRPX
  | 0x14 => some .FRECT
  | 0x15 => some .DCHRC
  | 0x16 => some .DCHR
  | 0x17 => some .DIMG
  | 0x20 => some .SETWIN
  | 0x21 => some .FLIP
  | _ => none

/-! ### Fields (R71, R72) -/

/-- `OP = h[31:24]`. -/
def headOp (h : Word) : Byte := h.extractLsb' 24 8

/-- `I = h[23]`. -/
def headI (h : Word) : Bool := h.getLsbD 23

/-- `INV = h[22]`. -/
def headInv (h : Word) : Bool := h.getLsbD 22

/-- `DW = h[21]`. -/
def headDw (h : Word) : Bool := h.getLsbD 21

/-- `IMM16 = h[15:0]`. -/
def headImm (h : Word) : Colour := h.extractLsb' 0 16

/-- `CH = h[7:0]` (R76). -/
def headCh (h : Word) : Nat := (h.extractLsb' 0 8).toNat

/-- `EN = h[0]` (R76). -/
def headEn (h : Word) : Bool := h.getLsbD 0

/-- `HI` of an argument word, as a colour word. -/
def argHi (a : Word) : Colour := a.extractLsb' 16 16

/-- `LO` of an argument word, as a colour word. -/
def argLo (a : Word) : Colour := a.extractLsb' 0 16

/-- The command a row's head word `h` and argument words `a0`, `a1` stand for (R76, R77). A row reads
only the argument words its `argWords` counts. -/
def Mnemonic.build (m : Mnemonic) (h a0 a1 : Word) : Instr :=
  match m with
  | .INIT => .init
  | .ON => .on
  | .OFF => .off
  | .BKL => .bkl (headEn h)
  | .CLEAR => .clear (headI h) (headImm h)
  | .SETPXC => .setpxc (argHi a0).toNat (argLo a0).toNat (headImm h)
  | .SETPX => .setpx (argHi a0).toNat (argLo a0).toNat
  | .CLRPX => .clrpx (argHi a0).toNat (argLo a0).toNat
  | .FRECT => .frect (headI h) (argHi a0).toNat (argLo a0).toNat (argHi a1).toNat (argLo a1).toNat
  | .DCHRC => .dchrc (headInv h) (headDw h) (headCh h) (argHi a0).toNat (argLo a0).toNat (argHi a1) (argLo a1)
  | .DCHR => .dchr (headInv h) (headDw h) (headCh h) (argHi a0).toNat (argLo a0).toNat
  | .DIMG => .dimg (headI h) (headImm h).toNat
  | .SETWIN => .setwin (argHi a0).toNat (argLo a0).toNat (argHi a1).toNat (argLo a1).toNat
  | .FLIP => .flip

/-! ### Decoding (R73, R78) -/

/-- Why a head word is illegal (R78). -/
inductive IllegalHead
  /-- Its `OP` is not in the table of R74. -/
  | unassignedOpcode
  /-- It fails its row's mask and match test of R75. -/
  | fixedBits
  deriving DecidableEq, Repr

/-- What a list of words starting at the head word decodes to. -/
inductive Decoded
  /-- A command, and the words after it. -/
  | command (i : Instr) (rest : List Word)
  /-- The head word is illegal; no argument word was read (60_exceptions.md R221). -/
  | illegal (why : IllegalHead)
  /-- The head word is legal and its row's argument words are not all there (R81). -/
  | missingArguments (m : Mnemonic)
  /-- There is no head word (R81). -/
  | noHeadWord
  deriving DecidableEq, Repr

/-- The row of a head word, or why there is none (R73, R78). -/
def decodeHead (h : Word) : Except IllegalHead Mnemonic :=
  match opcodeOf (headOp h) with
  | none => .error .unassignedOpcode
  | some m => if h &&& m.mask = m.pattern then .ok m else .error .fixedBits

/-- Decode the command at the front of a list of words. An illegal head word is rejected on itself
alone, whether or not words follow it (DEDUCED from R73 and 60_exceptions.md R221, unsafe: log entry 8). -/
def decode (ws : List Word) : Decoded :=
  match ws with
  | [] => .noHeadWord
  | h :: rest =>
    match decodeHead h with
    | .error why => .illegal why
    | .ok m =>
      if rest.length < m.argWords then .missingArguments m
      else .command (m.build h (rest.getD 0 0#32) (rest.getD 1 0#32)) (rest.drop m.argWords)

/-! ### Encoding -/

/-- A head word from its fields (R71), the reserved bits 0. -/
def headWordOf (op : Byte) (i inv dw : Bool) (imm : Colour) : Word :=
  op ++ BitVec.ofBool i ++ BitVec.ofBool inv ++ BitVec.ofBool dw ++ 0#5 ++ imm

/-- An argument word from its two values (R72). -/
def argWordOf (hi lo : Colour) : Word := hi ++ lo

/-- A natural number as the 16-bit field that carries it. -/
def field16 (n : Nat) : Colour := BitVec.ofNat 16 n

/-- The head word of a command (R74, R76). -/
def encodeHead : Instr → Word
  | .init => headWordOf Mnemonic.INIT.op false false false 0#16
  | .on => headWordOf Mnemonic.ON.op false false false 0#16
  | .off => headWordOf Mnemonic.OFF.op false false false 0#16
  | .bkl en => headWordOf Mnemonic.BKL.op false false false (0#15 ++ BitVec.ofBool en)
  | .clear imm bgc => headWordOf Mnemonic.CLEAR.op imm false false bgc
  | .setpxc _ _ col => headWordOf Mnemonic.SETPXC.op false false false col
  | .setpx _ _ => headWordOf Mnemonic.SETPX.op false false false 0#16
  | .clrpx _ _ => headWordOf Mnemonic.CLRPX.op false false false 0#16
  | .frect imm _ _ _ _ => headWordOf Mnemonic.FRECT.op imm false false 0#16
  | .dchrc inv dw ch _ _ _ _ => headWordOf Mnemonic.DCHRC.op false inv dw (0#8 ++ BitVec.ofNat 8 ch)
  | .dchr inv dw ch _ _ => headWordOf Mnemonic.DCHR.op false inv dw (0#8 ++ BitVec.ofNat 8 ch)
  | .dimg imm sel => headWordOf Mnemonic.DIMG.op imm false false (field16 sel)
  | .setwin _ _ _ _ => headWordOf Mnemonic.SETWIN.op false false false 0#16
  | .flip => headWordOf Mnemonic.FLIP.op false false false 0#16

/-- The argument words of a command (R77). -/
def encodeArgs : Instr → List Word
  | .init => []
  | .on => []
  | .off => []
  | .bkl _ => []
  | .clear _ _ => []
  | .setpxc x y _ => [argWordOf (field16 x) (field16 y)]
  | .setpx x y => [argWordOf (field16 x) (field16 y)]
  | .clrpx x y => [argWordOf (field16 x) (field16 y)]
  | .frect _ x1 y1 x2 y2 => [argWordOf (field16 x1) (field16 y1), argWordOf (field16 x2) (field16 y2)]
  | .dchrc _ _ _ x y fg bg => [argWordOf (field16 x) (field16 y), argWordOf fg bg]
  | .dchr _ _ _ x y => [argWordOf (field16 x) (field16 y)]
  | .dimg _ _ => []
  | .setwin x0 y0 x1 y1 => [argWordOf (field16 x0) (field16 y0), argWordOf (field16 x1) (field16 y1)]
  | .flip => []

/-- The words of a command: the head word, then its argument words (R70). -/
def encode (i : Instr) : List Word := encodeHead i :: encodeArgs i

/-! ### The host's view of one table row -/

/-- The longest command is three words (R70). A number whose bits are an instruction's, bit 0 the least
significant bit of the first word, as those three words; the bits from `nbits` up are 0. -/
def wordsOfTable (nbits w : Nat) : List Word :=
  let v := w % 2 ^ nbits
  [BitVec.ofNat 32 v, BitVec.ofNat 32 (v / 2 ^ 32), BitVec.ofNat 32 (v / 2 ^ 64)]

/-- The command the decoder reads from a table row's word. -/
def decodeTableWord (nbits w : Nat) : Option Instr :=
  match decode (wordsOfTable nbits w) with
  | .command i _ => some i
  | .illegal _ => none
  | .missingArguments _ => none
  | .noHeadWord => none

end Sys2Proof
end

