-- ==== Sys2Proof/Config.lean ====
section
/-! DEFINITION. The configuration record of 00_scope.md R6, and the free values: constants without a
body that stand for what the spec leaves open. -/

namespace Sys2Proof

/-- The two levels the controller can drive on a pin (10_state.md R30). -/
inductive Level
  | low
  | high
  deriving DecidableEq, Repr, Inhabited

/-- One step of `INIT_SCRIPT` (00_scope.md R6, 43_device.md R166). -/
inductive ScriptStep
  /-- `Cmd(c, data)`: a command byte and its parameter bytes. -/
  | cmd (c : Byte) (data : List Byte)
  /-- `Wait(ms)`: a settling delay. -/
  | wait (ms : Word)
  deriving DecidableEq, Repr, Inhabited

/-- The bus's answer to one `WRITE` (60_exceptions.md R236): any natural number, or `FAIL`. -/
inductive BusAnswer
  | count (n : Nat)
  | fail
  deriving DecidableEq, Repr, Inhabited

/-- A stored font entry `F[i][0..7]`: eight bytes (42_rasterizer.md R137). -/
abbrev Glyph := Vector Byte 8

/-- A 128×32 one-bit image as the function `LOGO(sel, x, y)` of 00_scope.md R6, tabulated: bit `x` of
row `y` is the pixel. The table is the model's own coding of that function, not a storage layout of
the hardware (DESIGN CHOICE, safe: log entry 21). -/
abbrev LogoBitmap := Vector (BitVec 128) 32

/-- `BASE_MAP`: where the platform puts the block's three host spaces (20_memory.md R59). No rule reads
it (DESIGN CHOICE for its shape, safe: log entry 24). -/
structure BaseMap where
  commandPort : Nat
  registerWindow : Nat
  readbackWindow : Nat
  deriving DecidableEq, Repr, Inhabited

/-- `GLYPH_W`, `GLYPH_H`, `LOGO_W`, `LOGO_H`: the constants of 00_scope.md R6. -/
abbrev glyphW : Nat := 6
abbrev glyphH : Nat := 8
abbrev logoW : Nat := 128
abbrev logoH : Nat := 32

/-- The configuration record `cfg`, every parameter of the table of 00_scope.md R6. `NONE` for a pin is
`none`; `N_GLYPHS` is the number of font entries. -/
structure Config where
  /-- `W`. -/
  width : Nat
  /-- `H`. -/
  height : Nat
  /-- `CLK_HZ`. -/
  clkHz : Word
  /-- `CPOL`. -/
  cpol : Bool
  /-- `CPHA`. -/
  cpha : Bool
  /-- `CS`. -/
  cs : Byte
  /-- `DC_PIN`. -/
  dcPin : Option Pin
  /-- `RST_PIN`. -/
  rstPin : Option Pin
  /-- `BL_PIN`. -/
  blPin : Option Pin
  /-- `DEF_FG`. -/
  defFg : Colour
  /-- `DEF_BG`. -/
  defBg : Colour
  /-- The font table: `N_GLYPHS` entries. -/
  font : List Glyph
  /-- `LOGO(0, ·, ·)`. -/
  logoA : LogoBitmap
  /-- `LOGO(1, ·, ·)`. -/
  logoB : LogoBitmap
  /-- `OPC_SWRESET`. -/
  opcSwreset : Byte
  /-- `OPC_CASET`. -/
  opcCaset : Byte
  /-- `OPC_RASET`. -/
  opcRaset : Byte
  /-- `OPC_RAMWR`. -/
  opcRamwr : Byte
  /-- `OPC_DISPON`. -/
  opcDispon : Byte
  /-- `OPC_DISPOFF`. -/
  opcDispoff : Byte
  /-- `INIT_SCRIPT`. -/
  initScript : List ScriptStep
  /-- `BLINK_SEQ`. -/
  blinkSeq : List (Level × Word)
  /-- `T_RST_1`. -/
  tRst1 : Word
  /-- `T_RST_2`. -/
  tRst2 : Word
  /-- `T_RST_3`. -/
  tRst3 : Word
  /-- `T_SWRESET`. -/
  tSwreset : Word
  /-- `T_ON`. -/
  tOn : Word
  /-- `P_COLOR_LATCH`. -/
  colorLatch : Bool
  /-- `TYPE_CODE`. -/
  typeCode : Byte
  /-- `BASE_MAP`. -/
  baseMap : BaseMap
  /-- `COLOR_RED`. -/
  colorRed : Colour
  /-- `COLOR_GREEN`. -/
  colorGreen : Colour
  /-- `COLOR_BLUE`. -/
  colorBlue : Colour
  /-- `COLOR_WHITE`. -/
  colorWhite : Colour
  deriving DecidableEq, Repr

/-- `COLOR_BLACK`, the one named colour with a value (41_color.md R105). -/
abbrev colorBlack : Colour := 0x0000#16

/-- The constraints of 00_scope.md R8 (and `N_GLYPHS ≥ 1` of R6). `DC_PIN = NONE` is legal. -/
abbrev Config.Valid (c : Config) : Prop :=
  1 ≤ c.width ∧ c.width ≤ 65535 ∧ 1 ≤ c.height ∧ c.height ≤ 65535 ∧
  c.dcPin ≠ some 0xFF#8 ∧ c.rstPin ≠ some 0xFF#8 ∧ c.blPin ≠ some 0xFF#8 ∧
  1 ≤ c.font.length

/-! ### Free values of the step -/

/-- The reset draw of a framebuffer cell (10_state.md R47, R48; 93 I3): what cell `a` holds from the
`epoch`-th reset until a command writes it. DESIGN CHOICE for the form, safe: log entry 4. -/
opaque Config.resetCell (epoch : Nat) (a : Nat) : Colour

/-- The bus's answer to the `k`-th `WRITE` for which no answer is listed (60_exceptions.md R236; 93 I18).
DESIGN CHOICE for the form, safe: log entry 5. -/
opaque Config.busDraw (k : Nat) : BusAnswer

/-- What `FINFO1` holds after a count of 2^32 or more, which no 32-bit register holds
(10_state.md R27; the spec states no value). DESIGN CHOICE, safe: log entry 12. -/
opaque Config.wideCount (n : Nat) : Word

/-! ### The OPEN parameters of the configuration that State.reset carries (00_scope.md R7; log entry 2) -/

opaque Config.openDcPin : Fin 255
opaque Config.openDefFg : Colour
opaque Config.openDefBg : Colour
opaque Config.openGlyphs : Nat
opaque Config.openGlyph (i : Nat) : Glyph
opaque Config.openLogoA : LogoBitmap
opaque Config.openLogoB : LogoBitmap
opaque Config.openSwreset : Byte
opaque Config.openCaset : Byte
opaque Config.openRaset : Byte
opaque Config.openRamwr : Byte
opaque Config.openDispon : Byte
opaque Config.openDispoff : Byte
opaque Config.openInitScript : List ScriptStep
opaque Config.openBlinkSeq : List (Level × Word)
opaque Config.openTRst1 : Word
opaque Config.openTRst2 : Word
opaque Config.openTRst3 : Word
opaque Config.openTSwreset : Word
opaque Config.openBaseMap : BaseMap
opaque Config.openRed : Colour
opaque Config.openGreen : Colour
opaque Config.openBlue : Colour
opaque Config.openWhite : Colour

/-- The configuration of State.reset: every default the spec gives (00_scope.md R6), the mandatory DC
pin present under an unknown number, and an opaque constant for every OPEN parameter. DESIGN CHOICE,
unsafe only for a claim that rests on the instance being this one: log entry 2. -/
def Config.standard : Config where
  width := 240
  height := 240
  clkHz := 15000000#32
  cpol := false
  cpha := false
  cs := 0#8
  dcPin := some (BitVec.ofNat 8 Config.openDcPin.val)
  rstPin := none
  blPin := none
  defFg := Config.openDefFg
  defBg := Config.openDefBg
  font := (List.range (Config.openGlyphs + 1)).map Config.openGlyph
  logoA := Config.openLogoA
  logoB := Config.openLogoB
  opcSwreset := Config.openSwreset
  opcCaset := Config.openCaset
  opcRaset := Config.openRaset
  opcRamwr := Config.openRamwr
  opcDispon := Config.openDispon
  opcDispoff := Config.openDispoff
  initScript := Config.openInitScript
  blinkSeq := Config.openBlinkSeq
  tRst1 := Config.openTRst1
  tRst2 := Config.openTRst2
  tRst3 := Config.openTRst3
  tSwreset := Config.openTSwreset
  tOn := 100#32
  colorLatch := false
  typeCode := 0x01#8
  baseMap := Config.openBaseMap
  colorRed := Config.openRed
  colorGreen := Config.openGreen
  colorBlue := Config.openBlue
  colorWhite := Config.openWhite

end Sys2Proof
end

