-- ==== Sys2Proof/Machine/State.lean ====
section
/-! DEFINITION. The state of the block (10_state.md R20) as plain data, the outcomes that are no next
state, and the state after reset (10_state.md R47, 70_reset_and_hazards.md R251). -/

namespace Sys2Proof.Machine

/-- `CSTATE` (10_state.md R25). -/
inductive CState
  | uninit
  | ready
  | halted
  deriving DecidableEq, Repr

/-- The causes the block can record (60_exceptions.md R220). The reserved codes 8 to 15 are never
produced, so they have no constructor. -/
inductive Cause
  /-- Code 0, `NONE`. -/
  | noFault
  /-- Code 1, `ILLEGAL_COMMAND`. -/
  | illegalCommand
  /-- Code 2, `NOT_INIT`. -/
  | notInit
  /-- Code 3, `REINIT`. -/
  | reinit
  /-- Code 4, `BOUNDS`. -/
  | bounds
  /-- Code 5, `GLYPH_RANGE`. -/
  | glyphRange
  /-- Code 6, `TX_ERROR`. -/
  | txError
  /-- Code 7, `CONFIG`. -/
  | config
  deriving DecidableEq, Repr

/-- A pin level register: `UNSET` until the pin is first driven (10_state.md R29). -/
inductive PinLevel
  | unset
  | low
  | high
  deriving DecidableEq, Repr

/-- An event of the log `EV` (10_state.md R30). -/
inductive Event
  /-- `PINCFG(p)`. -/
  | pinCfg (p : Pin)
  /-- `PIN(p, lvl)`. -/
  | pin (p : Pin) (lvl : Level)
  /-- `CLK(hz)`. -/
  | clk (hz : Word)
  /-- `MODE(cpol, cpha)`. -/
  | mode (cpol cpha : Bool)
  /-- `WRITE(cs, bytes)`. -/
  | write (cs : Byte) (bytes : List Byte)
  /-- `DELAY(ms)`. -/
  | delay (ms : Word)
  deriving DecidableEq, Repr

/-- The framebuffer cells some command has written: (linear index, colour word) pairs with rising
indexes (20_memory.md R50; log entry 3). A cell not listed holds its reset draw (log entry 4). -/
abbrev Memory := List (Nat × Colour)

/-- The block's record (10_state.md R20), and the step relation's parameters (R32), which a step reads
from the state because it is given nothing else (log entry 1). -/
structure State where
  /-- The configuration (00_scope.md R6). No command writes it. -/
  cfg : Config
  /-- The host's command stream, indexed from 0 (30_encoding.md R81). No command writes it. -/
  stream : List Word
  /-- The bus answers already drawn for the `WRITE`s to come, the next one first
  (60_exceptions.md R236; log entry 5). -/
  answers : List BusAnswer
  /-- How many bus answers have been drawn (the model's own counter; log entry 15). -/
  draws : Nat
  /-- How many resets have redrawn the cells (the model's own counter; log entry 15). -/
  epoch : Nat
  /-- `FB`. -/
  fb : Memory
  /-- `ACTIVE`; true is 1. -/
  active : Bool
  /-- `CUR_FG`. -/
  curFg : Colour
  /-- `CUR_BG`. -/
  curBg : Colour
  /-- `CSTATE`. -/
  cstate : CState
  /-- `CAUSE`. -/
  cause : Cause
  /-- `FCP`. -/
  fcp : Word
  /-- `FINFO0`. -/
  finfo0 : Word
  /-- `FINFO1`. -/
  finfo1 : Word
  /-- `CP`. -/
  cp : Word
  /-- `DC_LVL`. -/
  dcLvl : PinLevel
  /-- `RST_LVL`. -/
  rstLvl : PinLevel
  /-- `BL_LVL`. -/
  blLvl : PinLevel
  /-- `EV`, the oldest event first. -/
  ev : List Event
  deriving DecidableEq, Repr

/-- The steps that end the run. A fault the block records while a command runs is NOT one of these: it
is a next state with `CSTATE = HALTED` (60_exceptions.md R226). -/
inductive Fault
  /-- The controller is halted and has no step; the recorded cause is carried along. Raised by `step` and
  by every meaning in `CSTATE = HALTED`. Safe: the spec gives a halted controller no step, "a model treats
  it as a fault that is never cleared" (60_exceptions.md R227; log entry 9). -/
  | halted (cause : Cause)
  deriving DecidableEq, Repr

/-- Why a step has no meaning. -/
inductive Refusal
  /-- An instruction this model gives no meaning to. Raised by no arm of `exec`: every command is
  modelled. Safe. -/
  | notModelled (mnemonic : String)
  /-- The command stream holds no word at `CP`: the controller waits for a head word. Raised by `step`.
  Safe: the spec gives no step there (30_encoding.md R81; log entry 10). -/
  | awaitingCommand
  /-- The command stream ends inside the command at `CP`: the controller waits for its argument words.
  Raised by `step`. Safe: the spec gives no step there (30_encoding.md R81, 93 I17; log entry 10). -/
  | awaitingArguments
  deriving DecidableEq, Repr

/-- The record after a reset of a block configured as `c` (10_state.md R47, 70_reset_and_hazards.md R251):
the cells are the reset draws of `epoch`, and `DC_PIN = NONE` halts the controller with `CONFIG`
(60_exceptions.md R225). The stream, the answers and the two counters are the model's own
(log entries 6, 15, 16). -/
def State.afterReset (c : Config) (answers : List BusAnswer) (draws epoch : Nat) : State where
  cfg := c
  stream := []
  answers := answers
  draws := draws
  epoch := epoch
  fb := []
  active := false
  curFg := c.defFg
  curBg := c.defBg
  cstate := if c.dcPin = none then .halted else .uninit
  cause := if c.dcPin = none then .config else .noFault
  fcp := 0#32
  finfo0 := 0#32
  finfo1 := 0#32
  cp := 0#32
  dcLvl := .unset
  rstLvl := .unset
  blLvl := .unset
  ev := []

/-- A block configured as `c`, right after its first reset, no bus answer listed yet. -/
def State.resetOf (c : Config) : State := State.afterReset c [] 0 0

/-- The machine right after reset, under the configuration of log entry 2. -/
def State.reset : State := State.resetOf Config.standard

end Sys2Proof.Machine
end

