-- ==== Sys2Proof/Machine/Ops.lean ====
section
/-! DEFINITION. The shared operations: byte order, framebuffer memory, the event log, the bus's answers,
the fault action and reset, the order in which a command's actions run, and the command stream. -/

namespace Sys2Proof.Machine

/-! ### Byte order (00_scope.md R10, 41_color.md R106) -/

/-- `swap16(v) = {v[7:0], v[15:8]}`. -/
def swap16 (v : Colour) : Colour := v.extractLsb' 0 8 ++ v.extractLsb' 8 8

/-- `be16(v) = [v[15:8], v[7:0]]`. -/
def be16 (v : Colour) : List Byte := [v.extractLsb' 8 8, v.extractLsb' 0 8]

/-- The wire form of a colour word, low byte first. -/
def wire (c : Colour) : List Byte := [c.extractLsb' 0 8, c.extractLsb' 8 8]

/-! ### The framebuffer memory (20_memory.md R50, R53; log entries 3 and 4) -/

/-- The word some command wrote at an index; `none` is an index not listed, which has no written word. -/
def Memory.get? (m : Memory) (a : Nat) : Option Colour :=
  match m with
  | [] => none
  | (k, v) :: rest => if k = a then some v else Memory.get? rest a

/-- Write consecutive cells from index `a` on, one per word of `ws`. -/
def Memory.writeRun (m : Memory) (a : Nat) (ws : List Colour) : Memory :=
  m.filter (fun c => decide (c.1 < a)) ++
    ((List.range' a ws.length).zip ws ++ m.filter (fun c => decide (a + ws.length ≤ c.1)))

/-- The canonical form: indexes strictly rising. No entry equals what an unlisted index gives, since an
entry is a written word and an unlisted index has none. -/
abbrev Memory.wf (m : Memory) : Prop := m.Pairwise (fun c d => c.1 < d.1)

/-- `ACTIVE` as a buffer index. -/
def bufferIndex (b : Bool) : Nat := if b then 1 else 0

/-- The linear index `(b·H + y)·W + x` of a cell (20_memory.md R50). -/
def cellIndex (c : Config) (b : Bool) (y x : Nat) : Nat :=
  (bufferIndex b * c.height + y) * c.width + x

/-- The number of cells, `2·W·H` (20_memory.md R50). -/
def cellCount (c : Config) : Nat := 2 * c.width * c.height

/-- What the cell of a linear index holds: the word written last, or its reset draw (10_state.md R48). -/
def State.cellAt (s : State) (a : Nat) : Colour :=
  match s.fb.get? a with
  | some v => v
  | none => Config.resetCell s.epoch a

/-- `FB[b][y][x]` (00_scope.md R11). -/
def State.cell (s : State) (b : Bool) (y x : Nat) : Colour := s.cellAt (cellIndex s.cfg b y x)

/-- Write the row of `w` cells from `(x, y)` of buffer `b`, column `x + col` taking `color col`. -/
def State.writeRow (s : State) (b : Bool) (y x w : Nat) (color : Nat → Colour) : State :=
  { s with fb := s.fb.writeRun (cellIndex s.cfg b y x) ((List.range w).map color) }

/-- The drawing loop every rasterizer command and INIT's clear run: the block of `h` rows and `w` columns
with its top left at `(x, y)` of buffer `b`, row by row, cell `(x + col, y + row)` taking
`color col row`. Irreducible, so that no proof unfolds the loop by accident; Laws/Memory.lean says what it
does. -/
@[irreducible] def State.paint (s : State) (b : Bool) (x y w h : Nat) (color : Nat → Nat → Colour) : State :=
  (List.range h).foldl (fun t row => t.writeRow b (y + row) x w (fun col => color col row)) s

/-! ### Events and pin levels (10_state.md R29, R30) -/

/-- The level register's value once a level has been driven. -/
def PinLevel.ofLevel (l : Level) : PinLevel :=
  match l with
  | .low => .low
  | .high => .high

/-- `Emit(e)`: append the event; `PIN(p, lvl)` also writes the level register of the pin `p` names. A
number that several pins share names each of them (DEDUCED, unsafe: log entry 14). -/
def State.emit (s : State) (e : Event) : State :=
  match e with
  | .pin p l =>
    { s with
      ev := s.ev ++ [.pin p l]
      dcLvl := if s.cfg.dcPin = some p then .ofLevel l else s.dcLvl
      rstLvl := if s.cfg.rstPin = some p then .ofLevel l else s.rstLvl
      blLvl := if s.cfg.blPin = some p then .ofLevel l else s.blLvl }
  | .pinCfg p => { s with ev := s.ev ++ [.pinCfg p] }
  | .clk hz => { s with ev := s.ev ++ [.clk hz] }
  | .mode cpol cpha => { s with ev := s.ev ++ [.mode cpol cpha] }
  | .write cs bytes => { s with ev := s.ev ++ [.write cs bytes] }
  | .delay ms => { s with ev := s.ev ++ [.delay ms] }

/-- Emit events in order. -/
def State.emitAll (s : State) (es : List Event) : State := es.foldl State.emit s

/-- `PIN(pin, lvl)` on a configured pin; a pin that is `NONE` has no event (log entry 13). -/
def drivePin (p : Option Pin) (l : Level) : List Event :=
  match p with
  | some n => [.pin n l]
  | none => []

/-! ### The bus's answers (60_exceptions.md R236; log entry 5) -/

/-- The answer to the next `WRITE`: the next one listed, or a free draw. -/
def State.nextAnswer (s : State) : BusAnswer :=
  match s.answers with
  | a :: _ => a
  | [] => Config.busDraw s.draws

/-- The state once that answer has been taken. -/
def State.takeAnswer (s : State) : State :=
  { s with answers := s.answers.tail, draws := s.draws + 1 }

/-! ### The fault action and the way out of it (60_exceptions.md R226, R232) -/

/-- The head word at `CP` (30_encoding.md R81; log entry 11). -/
def State.headWord (s : State) : Word := s.stream.getD s.cp.toNat 0#32

/-- `raise Fault(cause, aux)`: record the cause, the pointer, the head word and `aux`, and halt. `CP` is
not advanced, and no event is emitted. -/
def State.raiseFault (s : State) (cause : Cause) (aux : Word) : State :=
  { s with
    cause := cause
    fcp := s.cp
    finfo0 := s.headWord
    finfo1 := aux
    cstate := .halted }

/-- Reset, the only exit from `HALTED` (60_exceptions.md R232; 70_reset_and_hazards.md R250, R251). It
redraws every cell, so it advances `epoch`. The answers not yet taken stay, and the words the host
issues from then on are a new stream (20_memory.md R59; DESIGN CHOICE: log entry 16). -/
def State.hostReset (s : State) : State := State.afterReset s.cfg s.answers s.draws (s.epoch + 1)

/-- `FINFO1` for a count the bus returned (10_state.md R27): the count; past 32 bits, a free value. -/
def auxOfCount (n : Nat) : Word := if n < 4294967296 then BitVec.ofNat 32 n else Config.wideCount n

/-- `FINFO1` for a bus failure (60_exceptions.md R228). -/
def auxOfFail : Word := 0xFFFFFFFF#32

/-! ### The order of a command's actions (00_scope.md R11) -/

/-- Where a command stands between two of its actions: going on, or ended by a fault. -/
inductive Flow
  | going (s : State)
  | ended (s : State)
  deriving DecidableEq, Repr

/-- Go on with the next action; a fault ends the command at once. -/
def Flow.andThen (f : Flow) (k : State → Flow) : Flow :=
  match f with
  | .going s => k s
  | .ended s => .ended s

/-- One action for each element of a list, in order. -/
def Flow.forEach {α : Type} (xs : List α) (act : α → State → Flow) (s : State) : Flow :=
  match xs with
  | [] => .going s
  | x :: rest => (act x s).andThen (Flow.forEach rest act)

/-- `raise Fault(cause, aux)` as an action. -/
def raise (cause : Cause) (aux : Word) (s : State) : Flow := .ended (s.raiseFault cause aux)

/-- `require(cond, cause)`, then the rest of the command. -/
def require (ok : Bool) (cause : Cause) (k : State → Flow) (s : State) : Flow :=
  if ok then k s else raise cause 0#32 s

/-- `require(CSTATE = READY, NOT_INIT)`, then the rest of the command (60_exceptions.md R223). -/
def requireReady (k : State → Flow) (s : State) : Flow :=
  require (decide (s.cstate = .ready)) .notInit k s

/-- `cp <- cp + n` (10_state.md R28). -/
def State.advance (s : State) (n : Nat) : State := { s with cp := s.cp + BitVec.ofNat 32 n }

/-- The state a command of `n` words leaves: `CP` advances unless a fault ended it. -/
def Flow.finish (f : Flow) (n : Nat) : State :=
  match f with
  | .going s => s.advance n
  | .ended s => s

/-- Run the actions of a command of `n` words. A halted controller has no step (60_exceptions.md R227). -/
def runCommand (n : Nat) (actions : State → Flow) (s : State) : Host.Outcome State Fault Refusal :=
  if s.cstate = .halted then .fault (.halted s.cause) else .next ((actions s).finish n)

/-! ### Fetching (30_encoding.md R73, R81) -/

/-- The command stream from the word at `CP` on. -/
def State.wordsAtCp (s : State) : List Word := s.stream.drop s.cp.toNat

/-- An illegal head word: `ILLEGAL_COMMAND`, whatever `CSTATE` but `HALTED` (60_exceptions.md R221). -/
def illegalCommand (s : State) : Host.Outcome State Fault Refusal :=
  runCommand 0 (raise .illegalCommand 0#32) s

/-- A list of words with `ws` laid over it from index `at_` on; missing words before `at_` are 0. -/
def overlay (stream : List Word) (at_ : Nat) (ws : List Word) : List Word :=
  stream.take at_ ++ (List.replicate (at_ - stream.length) 0#32 ++ (ws ++ stream.drop (at_ + ws.length)))

end Sys2Proof.Machine
end

