-- ==== Sys2Proof/Machine/Operands.lean ====
section
/-! DEFINITION. What the operands of a command select and when they are in range: the bounds predicates
of 42_rasterizer.md R121, glyph lookup (R128, R137), image selectors (R134), and the window check of
44_transmit.md R197. Every computation is on exact integers (00_scope.md R12). -/

namespace Sys2Proof.Machine

/-- `inPixel(x, y)`. -/
def inPixel (c : Config) (x y : Nat) : Bool := decide (x < c.width ∧ y < c.height)

/-- `rectEmpty(x1, y1, x2, y2)`. -/
def rectEmpty (x1 y1 x2 y2 : Nat) : Bool := decide (x1 ≥ x2 ∨ y1 ≥ y2)

/-- `inRect(x1, y1, x2, y2)`. -/
def inRect (c : Config) (x1 y1 x2 y2 : Nat) : Bool :=
  rectEmpty x1 y1 x2 y2 || decide (x2 ≤ c.width ∧ y2 ≤ c.height)

/-- `inGlyph(x, y)`. -/
def inGlyph (c : Config) (x y : Nat) : Bool := decide (x + glyphW ≤ c.width ∧ y + glyphH ≤ c.height)

/-- `inImage`. -/
def inImage (c : Config) : Bool := decide (logoW ≤ c.width ∧ logoH ≤ c.height)

/-- SETWIN's check: `x0 ≤ x1` and `x1 < W` and `y0 ≤ y1` and `y1 < H` (44_transmit.md R197). -/
def inWindow (c : Config) (x0 y0 x1 y1 : Nat) : Bool :=
  decide (x0 ≤ x1 ∧ x1 < c.width ∧ y0 ≤ y1 ∧ y1 < c.height)

/-- `0 ≤ CH − 0x20 < N_GLYPHS` (R128). -/
def inFont (c : Config) (ch : Nat) : Bool := decide (0x20 ≤ ch ∧ ch - 0x20 < c.font.length)

/-- The font entry a character code selects, `i = CH − 0x20` (R128). -/
def glyphIndex (ch : Nat) : Nat := ch - 0x20

/-- `FONT_PIXEL(i, col, row) = F[i][col][row]` (R137): bit `row` of byte `col` of entry `i`. -/
def fontPixel (c : Config) (i col row : Nat) : Bool :=
  match c.font[i]? with
  | some g => (g.toList.getD col 0#8).getLsbD row
  | none => false

/-- The image a selector names; `none` is an unknown selector (R134). -/
def logoOf (c : Config) (sel : Nat) : Option LogoBitmap :=
  match sel with
  | 0 => some c.logoA
  | 1 => some c.logoB
  | _ => none

/-- `LOGO(sel, x, y)` of a known image. -/
def logoPixel (img : LogoBitmap) (x y : Nat) : Bool := (img.toList.getD y 0#128).getLsbD x

/-- The colour of a one-bit source: foreground where the bit is 1, background where it is 0 (R129, R133). -/
def inkColour (bit : Bool) (fg bg : Colour) : Colour := if bit then fg else bg

end Sys2Proof.Machine
end

