-- ==== Sys2Proof/Machine/Transmit.lean ====
section
/-! DEFINITION. The transaction primitive, the addressing window, SETWIN and FLIP (44_transmit.md). -/

namespace Sys2Proof.Machine

/-- The four events of one transaction, in order (44_transmit.md R190). -/
def txEvents (c : Config) (dc : Level) (bytes : List Byte) : List Event :=
  drivePin c.dcPin dc ++ [.clk c.clkHz, .mode c.cpol c.cpha, .write c.cs bytes]

/-- `TX(dc, bytes)` (R190): the four events, then the bus's answer; anything but the full count is
`TX_ERROR` (60_exceptions.md R228). -/
def tx (dc : Level) (bytes : List Byte) (s : State) : Flow :=
  let sent := (s.emitAll (txEvents s.cfg dc bytes)).takeAnswer
  match s.nextAnswer with
  | .fail => raise .txError auxOfFail sent
  | .count n => if n = bytes.length then .going sent else raise .txError (auxOfCount n) sent

/-- `SendCmd(c)` (R191). -/
def sendCmd (c : Byte) (s : State) : Flow := tx .low [c] s

/-- `SendData(bytes)` (R192): nothing for an empty list. -/
def sendData (bytes : List Byte) (s : State) : Flow :=
  match bytes with
  | [] => .going s
  | b :: rest => tx .high (b :: rest) s

/-- `SendCmdData(c, data)` (R193). -/
def sendCmdData (c : Byte) (data : List Byte) (s : State) : Flow :=
  (sendCmd c s).andThen (sendData data)

/-- `Emit(DELAY(ms))` as an action. -/
def delay (ms : Word) (s : State) : Flow := .going (s.emit (.delay ms))

/-- `WindowSeq(x0, y0, x1, y1)` (R194, R196). It makes no check. -/
def windowSeq (x0 y0 x1 y1 : Nat) (s : State) : Flow :=
  (sendCmdData s.cfg.opcCaset (be16 (field16 x0) ++ be16 (field16 x1)) s).andThen fun s =>
  (sendCmdData s.cfg.opcRaset (be16 (field16 y0) ++ be16 (field16 y1)) s).andThen fun s =>
  sendCmd s.cfg.opcRamwr s

/-- `RowBytes(b, y)` (R195): the row's cells from column 0 on, each in its wire form. -/
def State.rowBytes (s : State) (b : Bool) (y : Nat) : List Byte :=
  (List.range s.cfg.width).flatMap fun x => wire (s.cell b y x)

/-- `FlipBody()` (R198): the full window once, one transaction a row, and the swap only after every row
has been sent (R199). -/
def flipBody (s : State) : Flow :=
  (windowSeq 0 0 (s.cfg.width - 1) (s.cfg.height - 1) s).andThen fun t =>
  (Flow.forEach (List.range s.cfg.height) (fun y u => sendData (u.rowBytes s.active y) u) t).andThen fun t =>
  .going { t with active := !s.active }

/-- `SETWIN x0, y0, x1, y1` (R197). -/
def execSetwin (x0 y0 x1 y1 : Nat) (s : State) : Host.Outcome State Fault Refusal :=
  runCommand 3 (requireReady fun s =>
    require (inWindow s.cfg x0 y0 x1 y1) .bounds (windowSeq x0 y0 x1 y1) s) s

/-- `FLIP` (R198). -/
def execFlip (s : State) : Host.Outcome State Fault Refusal :=
  runCommand 1 (requireReady flipBody) s

end Sys2Proof.Machine
end

