-- ==== Sys2Proof/Machine/Rasterizer.lean ====
section
/-! DEFINITION. The rasterizer commands (42_rasterizer.md): CLEAR, SETPXC, SETPX, CLRPX, FRECT, DCHRC,
DCHR and DIMG, each in the order of R120. -/

namespace Sys2Proof.Machine

/-- The immediate flip (R122): with `I = 1`, `FlipBody()` as the command's last action. -/
def immediateFlip (imm : Bool) (s : State) : Flow := if imm then flipBody s else .going s

/-- Fill the whole of the active buffer with one colour: CLEAR's drawing step (R123), which INIT runs
too (43_device.md R167). -/
def clearActive (colour : Colour) (s : State) : State :=
  s.paint s.active 0 0 s.cfg.width s.cfg.height fun _ _ => colour

/-- Write one cell of the active buffer (R124 to R126). -/
def setPixel (x y : Nat) (colour : Colour) (s : State) : State :=
  s.paint s.active x y 1 1 fun _ _ => colour

/-- Fill the half-open rectangle `[x1,x2) × [y1,y2)` of the active buffer with `CUR_FG` (R127). -/
def fillRect (x1 y1 x2 y2 : Nat) (s : State) : State :=
  s.paint s.active x1 y1 (x2 - x1) (y2 - y1) fun _ _ => s.curFg

/-- `RenderGlyph(ACTIVE, i, x, y, fg, bg)` (R129): all 48 cells. -/
def renderGlyph (i x y : Nat) (fg bg : Colour) (s : State) : State :=
  s.paint s.active x y glyphW glyphH fun col row => inkColour (fontPixel s.cfg i col row) fg bg

/-- Blit a one-bit image into the top left of the active buffer, in the current colours (R133). -/
def blitLogo (img : LogoBitmap) (s : State) : State :=
  s.paint s.active 0 0 logoW logoH fun x y => inkColour (logoPixel img x y) s.curFg s.curBg

/-- SETPXC's colour latch (R135): only when `P_COLOR_LATCH` is TRUE. -/
def latchFg (fg : Colour) (s : State) : State :=
  { s with curFg := if s.cfg.colorLatch then fg else s.curFg }

/-- DCHRC's colour latch (R135). -/
def latchColours (fg bg : Colour) (s : State) : State :=
  { s with
    curFg := if s.cfg.colorLatch then fg else s.curFg
    curBg := if s.cfg.colorLatch then bg else s.curBg }

/-- `CLEAR[.I] bgc` (R123). -/
def execClear (imm : Bool) (bgc : Colour) (s : State) : Host.Outcome State Fault Refusal :=
  runCommand 1 (requireReady fun s => immediateFlip imm (clearActive bgc s)) s

/-- `SETPXC x, y, col` (R124). -/
def execSetpxc (x y : Nat) (col : Colour) (s : State) : Host.Outcome State Fault Refusal :=
  runCommand 2 (requireReady fun s =>
    require (inPixel s.cfg x y) .bounds (fun s => .going (latchFg col (setPixel x y col s))) s) s

/-- `SETPX x, y` (R125). -/
def execSetpx (x y : Nat) (s : State) : Host.Outcome State Fault Refusal :=
  runCommand 2 (requireReady fun s =>
    require (inPixel s.cfg x y) .bounds (fun s => .going (setPixel x y s.curFg s)) s) s

/-- `CLRPX x, y` (R126). -/
def execClrpx (x y : Nat) (s : State) : Host.Outcome State Fault Refusal :=
  runCommand 2 (requireReady fun s =>
    require (inPixel s.cfg x y) .bounds (fun s => .going (setPixel x y s.curBg s)) s) s

/-- `FRECT[.I] x1, y1, x2, y2` (R127); an empty rectangle still flips (R138). -/
def execFrect (imm : Bool) (x1 y1 x2 y2 : Nat) (s : State) : Host.Outcome State Fault Refusal :=
  runCommand 3 (requireReady fun s =>
    require (inRect s.cfg x1 y1 x2 y2) .bounds
      (fun s => immediateFlip imm (fillRect x1 y1 x2 y2 s)) s) s

/-- `DCHRC[.INV][.DW] ch, x, y, fg, bg` (R130). `INV` and `DW` have no effect (R132). -/
def execDchrc (_inv _dw : Bool) (ch x y : Nat) (fg bg : Colour) (s : State) :
    Host.Outcome State Fault Refusal :=
  runCommand 3 (requireReady fun s =>
    require (inFont s.cfg ch) .glyphRange (fun s =>
      require (inGlyph s.cfg x y) .bounds
        (fun s => .going (latchColours fg bg (renderGlyph (glyphIndex ch) x y fg bg s))) s) s) s

/-- `DCHR[.INV][.DW] ch, x, y` (R131). `INV` and `DW` have no effect (R132). -/
def execDchr (_inv _dw : Bool) (ch x y : Nat) (s : State) : Host.Outcome State Fault Refusal :=
  runCommand 2 (requireReady fun s =>
    require (inFont s.cfg ch) .glyphRange (fun s =>
      require (inGlyph s.cfg x y) .bounds
        (fun s => .going (renderGlyph (glyphIndex ch) x y s.curFg s.curBg s)) s) s) s

/-- `DIMG[.I] sel` (R133): an unknown selector is a no-op that does not flip either (R134). -/
def execDimg (imm : Bool) (sel : Nat) (s : State) : Host.Outcome State Fault Refusal :=
  runCommand 1 (requireReady fun s =>
    match logoOf s.cfg sel with
    | none => .going s
    | some img =>
      require (inImage s.cfg) .bounds (fun s => immediateFlip imm (blitLogo img s)) s) s

end Sys2Proof.Machine
end

