-- ==== Sys2Proof/Machine/Device.lean ====
section
/-! DEFINITION. The device sequencer commands (43_device.md): INIT and its phases, ON, OFF and BKL. -/

namespace Sys2Proof.Machine

/-- `PINCFG(p)` of a configured pin. -/
def pinCfgOf (p : Option Pin) : List Event :=
  match p with
  | some n => [.pinCfg n]
  | none => []

/-- `PinsConfigure()`: DC, reset, backlight (R162). -/
def pinsConfigure (s : State) : State :=
  s.emitAll (pinCfgOf s.cfg.dcPin ++ pinCfgOf s.cfg.rstPin ++ pinCfgOf s.cfg.blPin)

/-- The events of `BacklightBlink()` (R163). -/
def blinkEvents (c : Config) : List Event :=
  match c.blPin with
  | none => []
  | some p => c.blinkSeq.flatMap fun step => [.pin p step.1, .delay step.2]

/-- `BacklightBlink()` (R163). -/
def backlightBlink (s : State) : State := s.emitAll (blinkEvents s.cfg)

/-- The events of `ResetPulse()` (R164). -/
def resetPulseEvents (c : Config) : List Event :=
  match c.rstPin with
  | none => []
  | some p =>
    [.pin p .high, .delay c.tRst1, .pin p .low, .delay c.tRst2, .pin p .high, .delay c.tRst3]

/-- `ResetPulse()` (R164). -/
def resetPulse (s : State) : State := s.emitAll (resetPulseEvents s.cfg)

/-- `SoftwareReset()` (R165). -/
def softwareReset (s : State) : Flow := (sendCmd s.cfg.opcSwreset s).andThen (delay s.cfg.tSwreset)

/-- One step of the register script (R166). -/
def scriptStep (step : ScriptStep) (s : State) : Flow :=
  match step with
  | .cmd c data => sendCmdData c data s
  | .wait ms => delay ms s

/-- `RegisterScript()` (R166). -/
def registerScript (s : State) : Flow := Flow.forEach s.cfg.initScript scriptStep s

/-- `InitialClear()` (R167): CLEAR's drawing step with `CUR_BG`. -/
def initialClear (s : State) : State := clearActive s.curBg s

/-- `OnBody()` (R168). -/
def onBody (s : State) : Flow := (sendCmd s.cfg.opcDispon s).andThen (delay s.cfg.tOn)

/-- `INIT` (R161): once, from `UNINIT`; the phases in order, then `READY` (R169). -/
def execInit (s : State) : Host.Outcome State Fault Refusal :=
  runCommand 1 (fun s =>
    require (decide (s.cstate ≠ .ready)) .reinit (fun s =>
      (softwareReset (resetPulse (backlightBlink (pinsConfigure s)))).andThen fun s =>
      (registerScript s).andThen fun s =>
      (onBody (initialClear s)).andThen fun s =>
      .going { s with cstate := .ready }) s) s

/-- `ON` (R171). -/
def execOn (s : State) : Host.Outcome State Fault Refusal := runCommand 1 (requireReady onBody) s

/-- `OFF` (R172). -/
def execOff (s : State) : Host.Outcome State Fault Refusal :=
  runCommand 1 (requireReady fun s => sendCmd s.cfg.opcDispoff s) s

/-- `BKL en` (R173): accepted, and nothing but `CP` changes. -/
def execBkl (_en : Bool) (s : State) : Host.Outcome State Fault Refusal :=
  runCommand 1 (requireReady .going) s

end Sys2Proof.Machine
end

