-- ==== Sys2Proof/Machine/Dispatch.lean ====
section
/-! DEFINITION. One arm per command. -/

namespace Sys2Proof.Machine

def exec (i : Instr) (s : State) : Host.Outcome State Fault Refusal :=
  match i with
  | .init => Sys2Proof.Machine.execInit s
  | .on => Sys2Proof.Machine.execOn s
  | .off => Sys2Proof.Machine.execOff s
  | .bkl en => Sys2Proof.Machine.execBkl en s
  | .clear imm bgc => Sys2Proof.Machine.execClear imm bgc s
  | .setpxc x y col => Sys2Proof.Machine.execSetpxc x y col s
  | .setpx x y => Sys2Proof.Machine.execSetpx x y s
  | .clrpx x y => Sys2Proof.Machine.execClrpx x y s
  | .frect imm x1 y1 x2 y2 => Sys2Proof.Machine.execFrect imm x1 y1 x2 y2 s
  | .dchrc inv dw ch x y fg bg => Sys2Proof.Machine.execDchrc inv dw ch x y fg bg s
  | .dchr inv dw ch x y => Sys2Proof.Machine.execDchr inv dw ch x y s
  | .dimg imm sel => Sys2Proof.Machine.execDimg imm sel s
  | .setwin x0 y0 x1 y1 => Sys2Proof.Machine.execSetwin x0 y0 x1 y1 s
  | .flip => Sys2Proof.Machine.execFlip s

end Sys2Proof.Machine
end

