-- ==== Sys2Proof/Machine/Step.lean ====
section
/-! DEFINITION. One step of the controller: one whole command (00_scope.md R9). -/

namespace Sys2Proof.Machine

/-- One step (30_encoding.md R73, R81; 60_exceptions.md R221, R227): a halted controller has none; an
illegal head word takes the fault; a command whose words are all present runs; otherwise the controller
waits for words. -/
def step (s : State) : Host.Outcome State Fault Refusal :=
  if s.cstate = .halted then .fault (.halted s.cause)
  else
    match decode s.wordsAtCp with
    | .command i _ => exec i s
    | .illegal _ => illegalCommand s
    | .missingArguments _ => .refused .awaitingArguments
    | .noHeadWord => .refused .awaitingCommand

/-- The state with a table row's instruction laid into the command stream at `CP`, where the next step
fetches: this stands for the host issuing those words (log entry 6). -/
def State.withFetchWord (s : State) (nbits w : Nat) : State :=
  { s with stream := overlay s.stream s.cp.toNat (wordsOfTable nbits w) }

end Sys2Proof.Machine
end

