-- ==== Sys2Proof/Machine/ColourModel.lean ====
section
/-! DEFINITION. The pixel colour model (41_color.md): channels of a colour word, `MakeColor`, and the
named colours. The controller has no command for these (R101); the host side uses them. -/

namespace Sys2Proof.Machine

/-- `rgb565(C) = swap16(C)` (R100). -/
def rgb565 (c : Colour) : BitVec 16 := swap16 c

/-- `red5(C)` (R100). -/
def red5 (c : Colour) : BitVec 5 := (rgb565 c).extractLsb' 11 5

/-- `green6(C)` (R100). -/
def green6 (c : Colour) : BitVec 6 := (rgb565 c).extractLsb' 5 6

/-- `blue5(C)` (R100). -/
def blue5 (c : Colour) : BitVec 5 := (rgb565 c).extractLsb' 0 5

/-- The packed value of `MakeColor` before the swap: `r << 11 | g << 6 | b` (R101). -/
def packChannels (r g b : Nat) : BitVec 16 :=
  (BitVec.ofNat 16 r <<< 11) ||| (BitVec.ofNat 16 g <<< 6) ||| BitVec.ofNat 16 b

/-- `MakeColor(r, g, b)` (R101), defined only for channels in 0..31: outside there is no colour word
(R102). -/
def makeColor (r g b : Nat) : Option Colour :=
  if r ≤ 31 ∧ g ≤ 31 ∧ b ≤ 31 then some (swap16 (packChannels r g b)) else none

/-- The named colours (R105). -/
inductive ColourName
  | black
  | red
  | green
  | blue
  | white
  deriving DecidableEq, Repr

/-- The colour word of a name: `COLOR_BLACK = 0x0000`, the others parameters (R105). -/
def namedColour (c : Config) (n : ColourName) : Colour :=
  match n with
  | .black => colorBlack
  | .red => c.colorRed
  | .green => c.colorGreen
  | .blue => c.colorBlue
  | .white => c.colorWhite

end Sys2Proof.Machine
end

