-- ==== Sys2Proof/Machine/Assembler.lean ====
section
/-! DEFINITION. The assembler syntax (30_encoding.md R82, R83, R93), from a line split into its mnemonic,
suffixes and operands (log entry 19). A refusal is `none`: no word is emitted. -/

namespace Sys2Proof.Machine

/-- The suffixes `.I`, `.INV`, `.DW`. -/
inductive Suffix
  | I
  | INV
  | DW
  deriving DecidableEq, Repr

/-- The operand forms (R82, R83, R93). -/
inductive Operand
  /-- A decimal or hexadecimal literal. -/
  | number (digits : List Char)
  /-- `'c'`. -/
  | character (c : Char)
  /-- `rgb(r, g, b)`. -/
  | rgb (r g b : Nat)
  /-- `BLACK`, `RED`, `GREEN`, `BLUE`, `WHITE`. -/
  | colour (n : ColourName)
  /-- `LOGOA`. -/
  | logoA
  /-- `LOGOB`. -/
  | logoB
  deriving DecidableEq, Repr

/-- A line of assembler text, split. -/
structure AsmLine where
  mnemonic : Mnemonic
  suffixes : List Suffix
  operands : List Operand
  deriving DecidableEq, Repr

/-- The value of a digit in a base. -/
def digitValue (base : Nat) (c : Char) : Option Nat :=
  let v :=
    if '0' ≤ c ∧ c ≤ '9' then some (c.toNat - 48)
    else if 'a' ≤ c ∧ c ≤ 'f' then some (c.toNat - 87)
    else if 'A' ≤ c ∧ c ≤ 'F' then some (c.toNat - 55)
    else none
  v.filter (fun d => decide (d < base))

/-- Digits in a base, the most significant first. -/
def digitsValue (base : Nat) (acc : Nat) (cs : List Char) : Option Nat :=
  match cs with
  | [] => some acc
  | c :: rest =>
    match digitValue base c with
    | none => none
    | some d => digitsValue base (acc * base + d) rest

/-- A literal: decimal, or hexadecimal with `0x` (R83). -/
def parseNumber (cs : List Char) : Option Nat :=
  match cs with
  | [] => none
  | '0' :: 'x' :: d :: rest => digitsValue 16 0 (d :: rest)
  | d :: rest => digitsValue 10 0 (d :: rest)

/-- A numeric operand. -/
def Operand.numeric (o : Operand) : Option Nat :=
  match o with
  | .number ds => parseNumber ds
  | .character _ => none
  | .rgb _ _ _ => none
  | .colour _ => none
  | .logoA => none
  | .logoB => none

/-- A character operand: a number, or a printable ASCII character (R83). -/
def Operand.charCode (o : Operand) : Option Nat :=
  match o with
  | .character c => if 0x20 ≤ c.toNat ∧ c.toNat ≤ 0x7E then some c.toNat else none
  | .number ds => parseNumber ds
  | .rgb _ _ _ => none
  | .colour _ => none
  | .logoA => none
  | .logoB => none

/-- A colour operand: a number of 16 bits, `rgb(r, g, b)`, or a named colour (R83, R93). -/
def Operand.colourWord (c : Config) (o : Operand) : Option Colour :=
  match o with
  | .number ds => (parseNumber ds).bind fun n => if fits16 n then some (field16 n) else none
  | .rgb r g b => makeColor r g b
  | .colour n => some (namedColour c n)
  | .character _ => none
  | .logoA => none
  | .logoB => none

/-- DIMG's operand: `LOGOA`, `LOGOB` or a number (R82). -/
def Operand.selector (o : Operand) : Option Nat :=
  match o with
  | .logoA => some 0
  | .logoB => some 1
  | .number ds => parseNumber ds
  | .character _ => none
  | .rgb _ _ _ => none
  | .colour _ => none

/-- BKL's operand, 0 or 1 (R82, R83). -/
def Operand.enable (o : Operand) : Option Bool :=
  match o.numeric with
  | some 0 => some false
  | some 1 => some true
  | _ => none

/-- The suffixes of CLEAR, FRECT and DIMG: none or `.I`. -/
def immediateSuffix (ss : List Suffix) : Option Bool :=
  match ss with
  | [] => some false
  | [.I] => some true
  | _ => none

/-- The suffixes of DCHRC and DCHR: `[.INV][.DW]`. -/
def glyphSuffix (ss : List Suffix) : Option (Bool × Bool) :=
  match ss with
  | [] => some (false, false)
  | [.INV] => some (true, false)
  | [.DW] => some (false, true)
  | [.INV, .DW] => some (true, true)
  | _ => none

/-- Every other mnemonic takes no suffix: one is an assembly error (R82). -/
def noSuffix (ss : List Suffix) : Option Unit := if ss = [] then some () else none

/-- The command a line stands for, by the grammar of R82. -/
def AsmLine.instr (c : Config) (l : AsmLine) : Option Instr :=
  match l.mnemonic, l.operands with
  | .INIT, [] => (noSuffix l.suffixes).map fun _ => .init
  | .ON, [] => (noSuffix l.suffixes).map fun _ => .on
  | .OFF, [] => (noSuffix l.suffixes).map fun _ => .off
  | .FLIP, [] => (noSuffix l.suffixes).map fun _ => .flip
  | .BKL, [en] => do noSuffix l.suffixes; return .bkl (← en.enable)
  | .CLEAR, [bgc] => do return .clear (← immediateSuffix l.suffixes) (← bgc.colourWord c)
  | .SETPXC, [x, y, col] => do
    noSuffix l.suffixes; return .setpxc (← x.numeric) (← y.numeric) (← col.colourWord c)
  | .SETPX, [x, y] => do noSuffix l.suffixes; return .setpx (← x.numeric) (← y.numeric)
  | .CLRPX, [x, y] => do noSuffix l.suffixes; return .clrpx (← x.numeric) (← y.numeric)
  | .FRECT, [x1, y1, x2, y2] => do
    return .frect (← immediateSuffix l.suffixes) (← x1.numeric) (← y1.numeric) (← x2.numeric) (← y2.numeric)
  | .DCHRC, [ch, x, y, fg, bg] => do
    let (inv, dw) ← glyphSuffix l.suffixes
    return .dchrc inv dw (← ch.charCode) (← x.numeric) (← y.numeric) (← fg.colourWord c) (← bg.colourWord c)
  | .DCHR, [ch, x, y] => do
    let (inv, dw) ← glyphSuffix l.suffixes
    return .dchr inv dw (← ch.charCode) (← x.numeric) (← y.numeric)
  | .DIMG, [sel] => do return .dimg (← immediateSuffix l.suffixes) (← sel.selector)
  | .SETWIN, [x0, y0, x1, y1] => do
    noSuffix l.suffixes
    return .setwin (← x0.numeric) (← y0.numeric) (← x1.numeric) (← y1.numeric)
  | _, _ => none

/-- The words of a line; refused when an operand does not fit its field (R83). -/
def AsmLine.assemble (c : Config) (l : AsmLine) : Option (List Word) :=
  match l.instr c with
  | none => none
  | some i => if i.wellFormed then some (encode i) else none

end Sys2Proof.Machine
end

