-- ==== Sys2Proof/Machine/HostLayer.lean ====
section
/-! DEFINITION. The source's API as command sequences (30_encoding.md R84 to R92). The expansion happens
on the host; the controller sees only the commands. -/

namespace Sys2Proof.Machine

/-- The images of `DrawImage`; an unknown enumerator carries the selector value the host sends for it. -/
inductive Image
  | logoA
  | logoB
  | unknown (sel : Nat)
  deriving DecidableEq, Repr

/-- The selector of an image: 0, 1, or any other value for an unknown enumerator (R87). -/
def Image.selector (img : Image) : Option Nat :=
  match img with
  | .logoA => some 0
  | .logoB => some 1
  | .unknown n => if n ≤ 1 then none else some n

/-- The source's API calls (R85 to R89). A string is a list of 8-bit characters. -/
inductive ApiCall
  | callInitialize
  | on
  | off
  | setBacklightState (enabled : Bool)
  | setPixelColor (x y : Nat) (color : Colour)
  | setPixel (x y : Nat)
  | clearPixel (x y : Nat)
  | drawCharColor (ch : Byte) (x y : Nat) (fg bg : Colour)
  | setWindow (x0 y0 x1 y1 : Nat)
  | flip
  | clear (background : Colour) (immediate : Bool)
  | drawFilledRect (x1 y1 x2 y2 : Nat) (immediate : Bool)
  | drawImage (image : Image) (immediate : Bool)
  | drawTextColor (x y : Nat) (s : List Byte) (fg bg : Colour)
  | print (text : List Byte) (cellX cellY : Nat) (clearLine immediate : Bool)
  deriving DecidableEq, Repr

/-- The horizontal advance of the text calls, 6 pixels a character (R88). -/
def textColumn (x i : Nat) : Nat := x + 6 * i

/-- The commands a call stands for, before it is known whether they can be encoded (R85 to R89). -/
def ApiCall.commands (call : ApiCall) : Option (List Instr) :=
  match call with
  | .callInitialize => some [.init]
  | .on => some [.on]
  | .off => some [.off]
  | .setBacklightState enabled => some [.bkl enabled]
  | .setPixelColor x y color => some [.setpxc x y color]
  | .setPixel x y => some [.setpx x y]
  | .clearPixel x y => some [.clrpx x y]
  | .drawCharColor ch x y fg bg => some [.dchrc false false ch.toNat x y fg bg]
  | .setWindow x0 y0 x1 y1 => some [.setwin x0 y0 x1 y1]
  | .flip => some [.flip]
  | .clear background immediate => some [.clear immediate background]
  | .drawFilledRect x1 y1 x2 y2 immediate => some [.frect immediate x1 y1 x2 y2]
  | .drawImage image immediate => image.selector.map fun sel => [.dimg immediate sel]
  | .drawTextColor x y s fg bg =>
    some ((s.zip (List.range s.length)).map fun ci =>
      .dchrc false false ci.1.toNat (textColumn x ci.2) y fg bg)
  | .print text cellX cellY _clearLine _immediate =>
    some ((text.zip (List.range text.length)).map fun ci =>
      .dchr false false ci.1.toNat (textColumn (cellX * 6) ci.2) (cellY * 8))

/-- The expansion of a call. The host refuses the whole call, and sends no command, when any command of
it has an argument that does not fit its field (R85, R91; log entry 20). -/
def ApiCall.expand (call : ApiCall) : Option (List Instr) :=
  match call.commands with
  | none => none
  | some is => if is.all Instr.wellFormed then some is else none

/-- The words the host sends for a call. -/
def ApiCall.words (call : ApiCall) : Option (List Word) := call.expand.map fun is => is.flatMap encode

end Sys2Proof.Machine
end

