-- ==== Sys2Proof/Machine/Flags.lean ====
section
/-! DEFINITION. The block has no arithmetic flags (10_state.md R31). Its status bits are the fields of
`STATUS`, and the other registers of the host's read-only window mirror state or configuration
(10_state.md R33 to R46). -/

namespace Sys2Proof.Machine

/-- The code of a cause (60_exceptions.md R220). -/
def Cause.code : Cause → BitVec 4
  | .noFault => 0#4
  | .illegalCommand => 1#4
  | .notInit => 2#4
  | .reinit => 3#4
  | .bounds => 4#4
  | .glyphRange => 5#4
  | .txError => 6#4
  | .config => 7#4

/-- `STATE` as `STATUS` encodes it (R37). -/
def CState.code : CState → BitVec 2
  | .uninit => 0#2
  | .ready => 1#2
  | .halted => 2#2

/-- `code(p)` of a pin (R43): its number, or 0xFF for `NONE`. -/
def pinCode (p : Option Pin) : Byte :=
  match p with
  | some n => n
  | none => 0xFF#8

/-- `ID` (R35). -/
def State.regId (s : State) : Word := 0#24 ++ s.cfg.typeCode

/-- `GEOM = {W[15:0], H[15:0]}` (R36). -/
def State.regGeom (s : State) : Word := BitVec.ofNat 16 s.cfg.width ++ BitVec.ofNat 16 s.cfg.height

/-- `STATUS = {20'b0, CAUSE, 3'b0, ACTIVE, 2'b0, STATE}` (R37). -/
def State.regStatus (s : State) : Word :=
  0#20 ++ s.cause.code ++ 0#3 ++ BitVec.ofBool s.active ++ 0#2 ++ s.cstate.code

/-- `COLORS = {CUR_FG, CUR_BG}` (R42). -/
def State.regColors (s : State) : Word := s.curFg ++ s.curBg

/-- `PINS = {8'b0, code(BL_PIN), code(RST_PIN), code(DC_PIN)}` (R43). -/
def State.regPins (s : State) : Word :=
  0#8 ++ pinCode s.cfg.blPin ++ pinCode s.cfg.rstPin ++ pinCode s.cfg.dcPin

/-- `BUSCFG = {16'b0, CS, 6'b0, CPOL, CPHA}` (R44). -/
def State.regBuscfg (s : State) : Word :=
  0#16 ++ s.cfg.cs ++ 0#6 ++ BitVec.ofBool s.cfg.cpol ++ BitVec.ofBool s.cfg.cpha

/-- A host read of the register window at a word offset (R33, R34); an offset past 0x0A reads 0 (R46). -/
def State.readRegister (s : State) (offset : Nat) : Word :=
  match offset with
  | 0x00 => s.regId
  | 0x01 => s.regGeom
  | 0x02 => s.regStatus
  | 0x03 => s.cp
  | 0x04 => s.fcp
  | 0x05 => s.finfo0
  | 0x06 => s.finfo1
  | 0x07 => s.regColors
  | 0x08 => s.regPins
  | 0x09 => s.regBuscfg
  | 0x0A => s.cfg.clkHz
  | _ => 0#32

end Sys2Proof.Machine
end

