-- ==== Sys2Proof/Machine/HostPort.lean ====
section
/-! DEFINITION. What the host does to the block between two commands (60_exceptions.md R239): issue a
command word, read a register, read the readback window, assert reset; and the source's getters
(30_encoding.md R94). -/

namespace Sys2Proof.Machine

/-- The command word joins the end of the stream (30_encoding.md R81). -/
def State.issue (s : State) (w : Word) : State := { s with stream := s.stream ++ [w] }

/-- `MemRead(a, 2)`: a 16-bit read of the readback window at a half-word address (20_memory.md R53); at
or beyond `2·W·H` it gives 0 (R55). -/
def State.memRead (s : State) (a : Nat) : Colour :=
  if a < cellCount s.cfg then
    let b := a / (s.cfg.width * s.cfg.height)
    let r := a % (s.cfg.width * s.cfg.height)
    s.cell (decide (b = 1)) (r / s.cfg.width) (r % s.cfg.width)
  else 0x0000#16

/-- A move of the host (60_exceptions.md R239). There is none that writes a register or the framebuffer,
and none of another width (20_memory.md R54). -/
inductive HostMove
  | issue (w : Word)
  | readRegister (offset : Nat)
  | readBack (a : Nat)
  | reset
  deriving DecidableEq, Repr

/-- What the block gives back at once. -/
inductive Reply
  | nothing
  | register (w : Word)
  | cell (c : Colour)
  deriving DecidableEq, Repr

/-- A host move: the state after it and the reply. Reads change nothing (10_state.md R33, 20_memory.md
R53). -/
def HostMove.apply (m : HostMove) (s : State) : State × Reply :=
  match m with
  | .issue w => (s.issue w, .nothing)
  | .readRegister offset => (s, .register (s.readRegister offset))
  | .readBack a => (s, .cell (s.memRead a))
  | .reset => (s.hostReset, .nothing)

/-- `GetType()` reads `ID.TYPE` (30_encoding.md R94). -/
def State.getType (s : State) : Byte := (s.readRegister 0x00).extractLsb' 0 8

/-- `GetWidth()` reads `GEOM.WIDTH` (30_encoding.md R94). -/
def State.getWidth (s : State) : BitVec 16 := (s.readRegister 0x01).extractLsb' 16 16

/-- `GetHeight()` reads `GEOM.HEIGHT` (30_encoding.md R94). -/
def State.getHeight (s : State) : BitVec 16 := (s.readRegister 0x01).extractLsb' 0 16

/-- What `Initialize()` returns once INIT has run (43_device.md R175). -/
inductive InitResult
  | success
  | failure (cause : Cause)
  deriving DecidableEq, Repr

/-- `Initialize() -> success/failure`: read from the state INIT leaves (43_device.md R175). -/
def initializeResult (after : State) : InitResult :=
  if after.cstate = .ready then .success else .failure after.cause

/-- The normal end of a run (60_exceptions.md R245): not halted, every word consumed as whole commands,
no cause recorded. No command is executing between two steps (00_scope.md R9). -/
abbrev State.runComplete (s : State) : Prop :=
  s.cstate ≠ .halted ∧ s.cp.toNat = s.stream.length ∧ s.cause = .noFault

end Sys2Proof.Machine
end

