-- ==== Sys2Proof/Machine/Panel.lean ====
section
/-! DEFINITION. The panel observer (44_transmit.md R205): what the byte stream means to the panel, as far
as the source says. It is no part of the block and reads only the event log. Where R206 and
93_implementation_defined.md I9 and I10 give it no meaning, what it does is the model's choice (DESIGN CHOICE,
unsafe: log entries 17 and 25). -/

namespace Sys2Proof.Machine

/-- The `(dc, byte)` pairs of an event log, each byte under the DC level in force at its `WRITE`; `lvl` is
the level before the first event. A `WRITE` the bus answered short or with `FAIL` is in the log like any other,
so its bytes are all read, although the panel's state after it is not known (R206, R258; DESIGN CHOICE, unsafe:
log entry 25). -/
def busStream (dcPin : Option Pin) (lvl : PinLevel) (es : List Event) : List (PinLevel × Byte) :=
  match es with
  | [] => []
  | .pin p l :: rest => busStream dcPin (if dcPin = some p then .ofLevel l else lvl) rest
  | .write _ bytes :: rest => bytes.map (fun b => (lvl, b)) ++ busStream dcPin lvl rest
  | .pinCfg _ :: rest => busStream dcPin lvl rest
  | .clk _ :: rest => busStream dcPin lvl rest
  | .mode _ _ :: rest => busStream dcPin lvl rest
  | .delay _ :: rest => busStream dcPin lvl rest

/-- The observer's mode. -/
inductive PanelMode
  | idle
  /-- `PARAM(c, k)`, with the `k` bytes collected so far. -/
  | param (c : Byte) (got : List Byte)
  /-- `WRITING`, with the pixels written so far and the first byte of an unfinished pair. -/
  | writing (pixels : Nat) (hi : Option Byte)
  deriving DecidableEq, Repr

/-- The observer's state. `gram` lists the pixels written, the latest first, as ((y, x), RGB565). -/
structure Panel where
  colStart : Nat
  colEnd : Nat
  rowStart : Nat
  rowEnd : Nat
  px : Nat
  py : Nat
  mode : PanelMode
  gram : List ((Nat × Nat) × BitVec 16)
  deriving DecidableEq, Repr

/-- `GRAM[y][x]`, if the observer has written it. -/
def Panel.pixel? (p : Panel) (y x : Nat) : Option (BitVec 16) := p.gram.lookup (y, x)

/-- How many pixels the window holds: `(colEnd-colStart+1)*(rowEnd-rowStart+1)` in exact integers
(00_scope.md R12), and none where that is negative. The spec does not speak of a window whose bounds are
reversed (DESIGN CHOICE, unsafe: log entry 17). -/
def Panel.windowCount (p : Panel) : Nat :=
  (((p.colEnd : Int) - p.colStart + 1) * ((p.rowEnd : Int) - p.rowStart + 1)).toNat

/-- `on (LOW, c)`. -/
def Panel.onCommand (cfg : Config) (p : Panel) (c : Byte) : Panel :=
  if c = cfg.opcCaset ∨ c = cfg.opcRaset then { p with mode := .param c [] }
  else if c = cfg.opcRamwr then { p with px := p.colStart, py := p.rowStart, mode := .writing 0 none }
  else { p with mode := .idle }

/-- The window bounds four collected bytes give: `{byte0, byte1}` and `{byte2, byte3}`. -/
def boundsOf (got : List Byte) : Nat × Nat :=
  ((got.getD 0 0#8 ++ got.getD 1 0#8 : BitVec 16).toNat, (got.getD 2 0#8 ++ got.getD 3 0#8 : BitVec 16).toNat)

/-- The effect of a complete parameter list. -/
def Panel.setBounds (cfg : Config) (p : Panel) (c : Byte) (got : List Byte) : Panel :=
  let p := if c = cfg.opcCaset then { p with colStart := (boundsOf got).1, colEnd := (boundsOf got).2 } else p
  if c = cfg.opcRaset then { p with rowStart := (boundsOf got).1, rowEnd := (boundsOf got).2 } else p

/-- One pixel in arrival order, then the pointer moves on. -/
def Panel.writePixel (p : Panel) (v : BitVec 16) (pixels : Nat) : Panel :=
  { p with
    gram := ((p.py, p.px), v) :: p.gram
    mode := .writing (pixels + 1) none
    px := if p.px + 1 > p.colEnd then p.colStart else p.px + 1
    py := if p.px + 1 > p.colEnd then p.py + 1 else p.py }

/-- `on (HIGH, d)`. Bytes past the fourth parameter, pixels past the window's count, and data in `IDLE` have no
effect modelled (R205, R206; DESIGN CHOICE, unsafe: log entry 17). -/
def Panel.onData (cfg : Config) (p : Panel) (d : Byte) : Panel :=
  match p.mode with
  | .idle => p
  | .param c got =>
    if got.length < 4 then
      let q := { p with mode := .param c (got ++ [d]) }
      if got.length + 1 = 4 then q.setBounds cfg c (got ++ [d]) else q
    else p
  | .writing pixels none => { p with mode := .writing pixels (some d) }
  | .writing pixels (some hi) =>
    if pixels < p.windowCount then p.writePixel (hi ++ d) pixels
    else { p with mode := .writing pixels none }

/-- One `(dc, byte)` pair. A byte under an `UNSET` level has no effect modelled. -/
def Panel.observe (cfg : Config) (p : Panel) (b : PinLevel × Byte) : Panel :=
  match b.1 with
  | .low => p.onCommand cfg b.2
  | .high => p.onData cfg b.2
  | .unset => p

/-- The panel after a list of events, the DC level being `lvl` before them. -/
def Panel.afterEvents (cfg : Config) (p : Panel) (lvl : PinLevel) (es : List Event) : Panel :=
  (busStream cfg.dcPin lvl es).foldl (Panel.observe cfg) p

end Sys2Proof.Machine
end

