-- ==== Sys2Proof/Safety.lean ====
section
/-! DEFINITION. The terms claims are stated in: what a legal state is, what the bus answers to a list of
writes, the event lists the spec's rules write out, and the record a fault leaves. Nothing here is read
by the machine. -/

namespace Sys2Proof.Machine

/-! ### The bus's answers -/

/-- The answer to the `k`-th `WRITE` from `s` on, counted from 0: the listed ones, then free draws. -/
def State.answerAt (s : State) (k : Nat) : BusAnswer :=
  match s.answers[k]? with
  | some a => a
  | none => Config.busDraw (s.draws + k)

/-- The bus answers the next `lens.length` writes with their full lengths. -/
abbrev State.answersInFull (s : State) (lens : List Nat) : Prop :=
  ∀ k < lens.length, s.answerAt k = .count (lens.getD k 0)

/-- `FINFO1` for a failing answer (60_exceptions.md R228). -/
def auxOfAnswer (a : BusAnswer) : Word :=
  match a with
  | .count n => auxOfCount n
  | .fail => 0xFFFFFFFF#32

/-- The lengths of the `WRITE`s among events. -/
def writeLengths (es : List Event) : List Nat :=
  match es with
  | [] => []
  | .write _ bytes :: rest => bytes.length :: writeLengths rest
  | .pinCfg _ :: rest => writeLengths rest
  | .pin _ _ :: rest => writeLengths rest
  | .clk _ :: rest => writeLengths rest
  | .mode _ _ :: rest => writeLengths rest
  | .delay _ :: rest => writeLengths rest

/-! ### Event lists, as the rules write them -/

/-- A pin's level after events: the level of the last `PIN` event that names it, or the level before
(10_state.md R29). A pin that is `NONE` keeps its level. -/
def levelAfter (p : Option Pin) (before : PinLevel) (es : List Event) : PinLevel :=
  match es with
  | [] => before
  | .pin q .low :: rest => levelAfter p (if p = some q then .low else before) rest
  | .pin q .high :: rest => levelAfter p (if p = some q then .high else before) rest
  | .pinCfg _ :: rest => levelAfter p before rest
  | .clk _ :: rest => levelAfter p before rest
  | .mode _ _ :: rest => levelAfter p before rest
  | .write _ _ :: rest => levelAfter p before rest
  | .delay _ :: rest => levelAfter p before rest

/-- The four events of `TX(dc, bytes)` on DC pin `p` (44_transmit.md R190). -/
def transaction (c : Config) (p : Pin) (dc : Level) (bytes : List Byte) : List Event :=
  [.pin p dc, .clk c.clkHz, .mode c.cpol c.cpha, .write c.cs bytes]

/-- The high byte of a number's 16-bit field. -/
def hiByte (n : Nat) : Byte := BitVec.ofNat 8 (n / 256)

/-- The low byte of a number's 16-bit field. -/
def loByte (n : Nat) : Byte := BitVec.ofNat 8 n

/-- The five transactions of `WindowSeq(x0, y0, x1, y1)` (44_transmit.md R194, R196). -/
def windowEvents (c : Config) (p : Pin) (x0 y0 x1 y1 : Nat) : List Event :=
  transaction c p .low [c.opcCaset] ++
  transaction c p .high [hiByte x0, loByte x0, hiByte x1, loByte x1] ++
  transaction c p .low [c.opcRaset] ++
  transaction c p .high [hiByte y0, loByte y0, hiByte y1, loByte y1] ++
  transaction c p .low [c.opcRamwr]

/-- The bytes of row `y` of buffer `b`: each cell low byte first (44_transmit.md R195). -/
def rowData (s : State) (b : Bool) (y : Nat) : List Byte :=
  (List.range s.cfg.width).flatMap fun x => [(s.cell b y x).extractLsb' 0 8, (s.cell b y x).extractLsb' 8 8]

/-- The events of `FlipBody()` (44_transmit.md R198): the full window once, then one data transaction a
row of the active buffer. -/
def flipEvents (s : State) (p : Pin) : List Event :=
  windowEvents s.cfg p 0 0 (s.cfg.width - 1) (s.cfg.height - 1) ++
  (List.range s.cfg.height).flatMap fun y => transaction s.cfg p .high (rowData s s.active y)

/-- The events of one step of the register script (43_device.md R166, 44_transmit.md R193). -/
def scriptStepEvents (c : Config) (p : Pin) (step : ScriptStep) : List Event :=
  match step with
  | .cmd op [] => transaction c p .low [op]
  | .cmd op (d :: ds) => transaction c p .low [op] ++ transaction c p .high (d :: ds)
  | .wait ms => [.delay ms]

/-- The events of the optional phases before the software reset: pin configuration, backlight blink,
reset pulse (43_device.md R162, R163, R164). -/
def bringUpPinEvents (c : Config) (p : Pin) : List Event :=
  [.pinCfg p] ++ (match c.rstPin with | some r => [.pinCfg r] | none => []) ++
  (match c.blPin with | some b => [.pinCfg b] | none => []) ++
  (match c.blPin with
    | some b => c.blinkSeq.flatMap fun step => [.pin b step.1, .delay step.2]
    | none => []) ++
  (match c.rstPin with
    | some r => [.pin r .high, .delay c.tRst1, .pin r .low, .delay c.tRst2, .pin r .high, .delay c.tRst3]
    | none => [])

/-- The events of INIT (43_device.md R161 to R168). -/
def initEvents (c : Config) (p : Pin) : List Event :=
  bringUpPinEvents c p ++
  transaction c p .low [c.opcSwreset] ++ [.delay c.tSwreset] ++
  c.initScript.flatMap (scriptStepEvents c p) ++
  transaction c p .low [c.opcDispon] ++ [.delay c.tOn]

/-! ### The records actions leave -/

/-- The state after events whose writes the bus answered in full: the log, the three levels, and the
answers taken; nothing else. -/
def State.afterBus (s : State) (es : List Event) : State :=
  { s with
    ev := s.ev ++ es
    dcLvl := levelAfter s.cfg.dcPin s.dcLvl es
    rstLvl := levelAfter s.cfg.rstPin s.rstLvl es
    blLvl := levelAfter s.cfg.blPin s.blLvl es
    answers := s.answers.drop (writeLengths es).length
    draws := s.draws + (writeLengths es).length }

/-- The record the fault action leaves, the head word being `h` (60_exceptions.md R226). -/
def State.faulted (s : State) (h : Word) (cause : Cause) (aux : Word) : State :=
  { s with cause := cause, fcp := s.cp, finfo0 := h, finfo1 := aux, cstate := .halted }

/-- `u` is what a `TX_ERROR` among the events `es` leaves of `s` (44_transmit.md R190; 60_exceptions.md R228,
R230): `es` is `pre`, a `WRITE`, and `post`; the bus answers every write of `pre` in full and that one
otherwise; the log takes `pre` and that `WRITE`, the controller halts with the answer in `FINFO1`, and
nothing of `post` happens. (`FINFO1` for a count of 2^32 or more is free: log entry 12.) -/
structure StopsIn (s : State) (es : List Event) (u : State) : Prop where
  stop : ∃ pre bytes post, es = pre ++ .write s.cfg.cs bytes :: post ∧
    s.answersInFull (writeLengths pre) ∧
    s.answerAt (writeLengths pre).length ≠ .count bytes.length ∧
    u = (s.afterBus (pre ++ [.write s.cfg.cs bytes])).faulted s.headWord .txError
      (auxOfAnswer (s.answerAt (writeLengths pre).length))

end Sys2Proof.Machine

namespace Sys2Proof

/-! ### Which commands do what -/

/-- The commands that end in a flip: FLIP, and CLEAR, FRECT and DIMG with `I = 1` (42_rasterizer.md R122). -/
def Instr.flips (i : Instr) : Bool :=
  match i with
  | .clear imm _ => imm
  | .frect imm _ _ _ _ => imm
  | .dimg imm _ => imm
  | .flip => true
  | .init => false
  | .on => false
  | .off => false
  | .bkl _ => false
  | .setpxc _ _ _ => false
  | .setpx _ _ => false
  | .clrpx _ _ => false
  | .dchrc _ _ _ _ _ _ _ => false
  | .dchr _ _ _ _ _ => false
  | .setwin _ _ _ _ => false

/-- The rasterizer commands (42_rasterizer.md). -/
def Instr.rasterizer (i : Instr) : Bool :=
  match i with
  | .clear _ _ => true
  | .setpxc _ _ _ => true
  | .setpx _ _ => true
  | .clrpx _ _ => true
  | .frect _ _ _ _ _ => true
  | .dchrc _ _ _ _ _ _ _ => true
  | .dchr _ _ _ _ _ => true
  | .dimg _ _ => true
  | .init => false
  | .on => false
  | .off => false
  | .bkl _ => false
  | .setwin _ _ _ _ => false
  | .flip => false

/-- The cells of the active buffer a command may write: column `x`, row `y`. -/
def Instr.targets (i : Instr) (x y : Nat) : Bool :=
  match i with
  | .init => true
  | .clear _ _ => true
  | .setpxc x0 y0 _ => decide (x = x0 ∧ y = y0)
  | .setpx x0 y0 => decide (x = x0 ∧ y = y0)
  | .clrpx x0 y0 => decide (x = x0 ∧ y = y0)
  | .frect _ x1 y1 x2 y2 => decide (x1 ≤ x ∧ x < x2 ∧ y1 ≤ y ∧ y < y2)
  | .dchrc _ _ _ x0 y0 _ _ => decide (x0 ≤ x ∧ x < x0 + 6 ∧ y0 ≤ y ∧ y < y0 + 8)
  | .dchr _ _ _ x0 y0 => decide (x0 ≤ x ∧ x < x0 + 6 ∧ y0 ≤ y ∧ y < y0 + 8)
  | .dimg _ sel => decide (sel ≤ 1 ∧ x < 128 ∧ y < 32)
  | .on => false
  | .off => false
  | .bkl _ => false
  | .setwin _ _ _ _ => false
  | .flip => false

end Sys2Proof

namespace Sys2Proof.Machine

/-! ### Legal states -/

/-- What holds of every state a run can reach (10_state.md R22, R24, R25, R26, R27, R29; 00_scope.md R8):
a legal configuration, a canonical memory inside the readback window, the fault registers clear exactly
while not halted, no DC pin only when halted, levels of absent pins `UNSET`, and an untouched record
before INIT. -/
structure State.Inv (s : State) : Prop where
  cfg : s.cfg.Valid
  memory : s.fb.wf
  inWindow : ∀ c ∈ s.fb, c.1 < cellCount s.cfg
  cause : s.cause = .noFault ↔ s.cstate ≠ .halted
  faultRegs : s.cstate ≠ .halted → s.fcp = 0#32 ∧ s.finfo0 = 0#32 ∧ s.finfo1 = 0#32
  dcPin : s.cfg.dcPin = none → s.cstate = .halted
  rstPin : s.cfg.rstPin = none → s.rstLvl = .unset
  blPin : s.cfg.blPin = none → s.blLvl = .unset
  uninit : s.cstate = .uninit → s.active = false ∧ s.cp = 0#32 ∧ s.ev = []
  colours : s.cfg.colorLatch = false → s.curFg = s.cfg.defFg ∧ s.curBg = s.cfg.defBg

/-- The level registers hold the level last driven on their pins, `UNSET` before any (10_state.md R29). -/
structure State.LevelsMirrorLog (s : State) : Prop where
  dc : s.dcLvl = levelAfter s.cfg.dcPin .unset s.ev
  rst : s.rstLvl = levelAfter s.cfg.rstPin .unset s.ev
  bl : s.blLvl = levelAfter s.cfg.blPin .unset s.ev

/-- A row of 30_encoding.md R74 and R75: its mnemonic, argument words, mask and match. -/
structure HeadRow where
  mnemonic : Mnemonic
  argWords : Nat
  mask : Word
  pattern : Word
  deriving DecidableEq, Repr

/-- The fourteen rows, as R74 and R75 print them. -/
def headRows : List HeadRow :=
  [⟨.INIT, 0, 0xFFFFFFFF#32, 0x01000000#32⟩, ⟨.ON, 0, 0xFFFFFFFF#32, 0x02000000#32⟩,
   ⟨.OFF, 0, 0xFFFFFFFF#32, 0x03000000#32⟩, ⟨.BKL, 0, 0xFFFFFFFE#32, 0x04000000#32⟩,
   ⟨.CLEAR, 0, 0xFF7F0000#32, 0x10000000#32⟩, ⟨.SETPXC, 1, 0xFFFF0000#32, 0x11000000#32⟩,
   ⟨.SETPX, 1, 0xFFFFFFFF#32, 0x12000000#32⟩, ⟨.CLRPX, 1, 0xFFFFFFFF#32, 0x13000000#32⟩,
   ⟨.FRECT, 2, 0xFF7FFFFF#32, 0x14000000#32⟩, ⟨.DCHRC, 2, 0xFF9FFF00#32, 0x15000000#32⟩,
   ⟨.DCHR, 1, 0xFF9FFF00#32, 0x16000000#32⟩, ⟨.DIMG, 0, 0xFF7F0000#32, 0x17000000#32⟩,
   ⟨.SETWIN, 2, 0xFFFFFFFF#32, 0x20000000#32⟩, ⟨.FLIP, 0, 0xFFFFFFFF#32, 0x21000000#32⟩]

end Sys2Proof.Machine

namespace Sys2Proof

/-- The panel's window opcodes are told apart; without this the observer of 44_transmit.md R205 cannot
tell CASET, RASET and RAMWR from one another. -/
abbrev Config.WindowOpcodesDistinct (c : Config) : Prop :=
  c.opcCaset ≠ c.opcRaset ∧ c.opcRamwr ≠ c.opcCaset ∧ c.opcRamwr ≠ c.opcRaset

end Sys2Proof
end

