-- ==== Sys2Proof/Certificates/Slice0/Obligations.lean ====
section
/-! DEFINITION. The statements for the provers. Each docstring names the rule of spec/ it formalises.
`s.headWord` is the word at `CP` in the command stream, `s.answerAt k` the bus's answer to the `k`-th
write from `s` on; `s.faulted`, `s.afterBus` and the event lists are the records of Safety.lean. -/

open Sys2Proof Sys2Proof.Machine

/-! ### Encoding -/

/-- Decoding the encoding of a well-formed command gives it back, whatever words follow, with every
operand at every value its field admits (30_encoding.md R70 to R77). -/
def Obligations.DecodeReadsBackEncode : Prop :=
  ∀ (i : Instr) (rest : List Word), i.wellFormed = true → decode (encode i ++ rest) = .command i rest

/-- Words that decode to a command are that command's encoding and what follows it, and the command is
well formed: each word sequence has one meaning, and no bit of it is ignored (30_encoding.md R73 to R77). -/
def Obligations.EncodeRebuildsDecodedWords : Prop :=
  ∀ (ws : List Word) (i : Instr) (rest : List Word),
    decode ws = .command i rest → i.wellFormed = true ∧ encode i ++ rest = ws

/-- A head word is read by its row of R74 and R75: where `h & mask = match`, it is that row's command once
the row's argument words are there, whatever they hold; where it is so for no row, it is illegal
(R73, R75, R78). -/
def Obligations.HeadWordsSelectTheirRows : Prop :=
  ∀ (h : Word) (rest : List Word),
    (∀ row ∈ headRows, h &&& row.mask = row.pattern →
      (rest.length < row.argWords → decode (h :: rest) = .missingArguments row.mnemonic) ∧
      (row.argWords ≤ rest.length →
        ∃ i, decode (h :: rest) = .command i (rest.drop row.argWords) ∧ i.mnemonic = row.mnemonic)) ∧
    ((∀ row ∈ headRows, h &&& row.mask ≠ row.pattern) → ∃ why, decode (h :: rest) = .illegal why)

/-- A few words of the spec's encoding decode to the commands they stand for, and a few illegal head words
are refused (95_test_vectors.md V11 to V23). -/
def Obligations.SampleWordsDecode : Prop :=
  decode [0x1080FFFF#32] = .command (.clear true 0xFFFF#16) [] ∧
  decode [0x14800000#32, 0x00000000#32, 0x000A000A#32] = .command (.frect true 0 0 10 10) [] ∧
  decode [0x16400041#32, 0x00000000#32] = .command (.dchr true false 0x41 0 0) [] ∧
  decode [0x1560005A#32, 0x00000000#32, 0xFFFF0000#32] =
    .command (.dchrc true true 0x5A 0 0 0xFFFF#16 0x0000#16) [] ∧
  decode [0x17800000#32] = .command (.dimg true 0) [] ∧
  decode [0x04000001#32] = .command (.bkl true) [] ∧
  decode [0x20000000#32, 0x00020003#32, 0x00050004#32] = .command (.setwin 2 3 5 4) [] ∧
  decode [0x12800000#32] = .illegal .fixedBits ∧
  decode [0x00000000#32] = .illegal .unassignedOpcode

/-! ### A step of the controller -/

/-- A step runs the command the stream holds at `CP` (00_scope.md R9, 30_encoding.md R73, R81); the step
adds nothing around it. -/
def Obligations.StepRunsDecodedCommand : Prop :=
  ∀ (s : State) (i : Instr) (rest : List Word), s.cstate ≠ .halted →
    decode (s.stream.drop s.cp.toNat) = .command i rest → step s = exec i s

/-- Without a head word, or with argument words missing, the controller has no step; it waits
(30_encoding.md R81). -/
def Obligations.StepWaitsForMissingWords : Prop :=
  ∀ s : State, s.cstate ≠ .halted →
    (s.stream.drop s.cp.toNat = [] → step s = .refused .awaitingCommand) ∧
    (∀ m : Mnemonic, decode (s.stream.drop s.cp.toNat) = .missingArguments m →
      step s = .refused .awaitingArguments)

/-- An illegal head word halts with `ILLEGAL_COMMAND`, in every `CSTATE` but `HALTED`; `FINFO0` holds it and
nothing else changes (60_exceptions.md R221). That it does so whatever follows it, also where words its opcode's
row would count as arguments are missing and 30_encoding.md R81 could mean waiting, is the model's reading
(DEDUCED, unsafe: log entry 8). -/
def Obligations.IllegalHeadWordHalts : Prop :=
  ∀ (s : State) (h : Word) (rest : List Word) (why : IllegalHead), s.cstate ≠ .halted →
    s.stream.drop s.cp.toNat = h :: rest → decode (h :: rest) = .illegal why →
    step s = .next (s.faulted h .illegalCommand 0#32)

/-- A halted controller has no step and runs no command, and its run has not ended; the host's reads and
words leave it as it is but for the words themselves, and only a reset takes it out of `HALTED`
(60_exceptions.md R227). -/
def Obligations.HaltedControllerHasNoStep : Prop :=
  ∀ s : State, s.cstate = .halted →
    step s = .fault (.halted s.cause) ∧
    (∀ i : Instr, exec i s = .fault (.halted s.cause)) ∧
    ¬ s.runComplete ∧
    (∀ w, ((HostMove.issue w).apply s).1 = { s with stream := s.stream ++ [w] }) ∧
    (∀ o, (HostMove.readRegister o).apply s = (s, .register (s.readRegister o))) ∧
    (∀ a, (HostMove.readBack a).apply s = (s, .cell (s.memRead a))) ∧
    (s.cfg.dcPin ≠ none → (HostMove.reset.apply s).1.cstate = .uninit)

/-- A fault a step records names the command it stopped: `FCP` and `CP` are its index, `FINFO0` is its head
word in the stream, `FINFO1` is 0 unless the cause is `TX_ERROR`; a step that does not halt leaves the fault
registers alone (10_state.md R27, 60_exceptions.md R226). -/
def Obligations.FaultRecordNamesTheCommand : Prop :=
  ∀ s t : State, step s = .next t →
    (t.cstate = .halted → t.fcp = s.cp ∧ t.cp = s.cp ∧ s.stream[s.cp.toNat]? = some t.finfo0 ∧
      t.cause ≠ .noFault ∧ t.cause ≠ .config ∧ (t.cause ≠ .txError → t.finfo1 = 0#32)) ∧
    (t.cstate ≠ .halted → t.cause = s.cause ∧ t.fcp = s.fcp ∧ t.finfo0 = s.finfo0 ∧ t.finfo1 = s.finfo1)

/-- The normal end of a run: every word consumed and no fault, and the controller waits for the next
command (60_exceptions.md R245, 30_encoding.md R81). -/
def Obligations.CompletedRunWaits : Prop :=
  ∀ s : State, s.runComplete → step s = .refused .awaitingCommand

/-! ### Checks and faults -/

/-- The state checks (60_exceptions.md R223): in `UNINIT` every command but INIT raises `NOT_INIT`, in
`READY` INIT raises `REINIT`, in `HALTED` no command is checked. -/
def Obligations.StateChecksComeFirst : Prop :=
  ∀ (s : State) (i : Instr),
    (s.cstate = .uninit → i ≠ .init → exec i s = .next (s.faulted s.headWord .notInit 0#32)) ∧
    (s.cstate = .ready → exec .init s = .next (s.faulted s.headWord .reinit 0#32)) ∧
    (s.cstate = .halted → exec i s = .fault (.halted s.cause))

/-- `BOUNDS`: coordinates that fail the predicate of their command's rule raise it, and nothing else
changes, no cell and no event (60_exceptions.md R222; 42_rasterizer.md R121; 44_transmit.md R197). -/
def Obligations.CoordinatesOutOfRangeFault : Prop :=
  ∀ s : State, s.cstate = .ready →
    (∀ (x y : Nat) (col : Colour), s.cfg.width ≤ x ∨ s.cfg.height ≤ y →
      exec (.setpxc x y col) s = .next (s.faulted s.headWord .bounds 0#32) ∧
      exec (.setpx x y) s = .next (s.faulted s.headWord .bounds 0#32) ∧
      exec (.clrpx x y) s = .next (s.faulted s.headWord .bounds 0#32)) ∧
    (∀ (imm : Bool) (x1 y1 x2 y2 : Nat), x1 < x2 → y1 < y2 → s.cfg.width < x2 ∨ s.cfg.height < y2 →
      exec (.frect imm x1 y1 x2 y2) s = .next (s.faulted s.headWord .bounds 0#32)) ∧
    (∀ (inv dw : Bool) (ch x y : Nat) (fg bg : Colour), 0x20 ≤ ch → ch < 0x20 + s.cfg.font.length →
      s.cfg.width < x + 6 ∨ s.cfg.height < y + 8 →
      exec (.dchrc inv dw ch x y fg bg) s = .next (s.faulted s.headWord .bounds 0#32) ∧
      exec (.dchr inv dw ch x y) s = .next (s.faulted s.headWord .bounds 0#32)) ∧
    (∀ (imm : Bool) (sel : Nat), sel = 0 ∨ sel = 1 → s.cfg.width < 128 ∨ s.cfg.height < 32 →
      exec (.dimg imm sel) s = .next (s.faulted s.headWord .bounds 0#32)) ∧
    (∀ x0 y0 x1 y1 : Nat, x1 < x0 ∨ s.cfg.width ≤ x1 ∨ y1 < y0 ∨ s.cfg.height ≤ y1 →
      exec (.setwin x0 y0 x1 y1) s = .next (s.faulted s.headWord .bounds 0#32))

/-- `GLYPH_RANGE`: a character outside the font raises it, whatever the coordinates, and nothing else
changes (60_exceptions.md R224, R229). -/
def Obligations.CharactersOutsideFontFault : Prop :=
  ∀ (s : State) (inv dw : Bool) (ch x y : Nat) (fg bg : Colour), s.cstate = .ready →
    ch < 0x20 ∨ 0x20 + s.cfg.font.length ≤ ch →
    exec (.dchrc inv dw ch x y fg bg) s = .next (s.faulted s.headWord .glyphRange 0#32) ∧
    exec (.dchr inv dw ch x y) s = .next (s.faulted s.headWord .glyphRange 0#32)

/-- Every fault but `TX_ERROR` is precise: the command changes nothing but the fault registers and
`CSTATE` (60_exceptions.md R230). -/
def Obligations.PreciseFaultsChangeNothingElse : Prop :=
  ∀ (i : Instr) (s t : State), exec i s = .next t → t.cstate = .halted → t.cause ≠ .txError →
    t = s.faulted s.headWord t.cause 0#32

/-- `TX_ERROR` (60_exceptions.md R228, R230): it stops at the first write not answered in full. Every write
before it was, the log ends with it, `FINFO1` is the count returned, or 0xFFFFFFFF for a failure; `ACTIVE`,
`CP` and the colours stay. (What a count of 2^32 or more leaves in `FINFO1` is free: log entry 12.) -/
def Obligations.TransmissionErrorStopsAtTheWrite : Prop :=
  ∀ (i : Instr) (s t : State), exec i s = .next t → t.cstate = .halted → t.cause = .txError →
    ∃ (es : List Event) (bytes : List Byte),
      t.ev = s.ev ++ es ++ [.write s.cfg.cs bytes] ∧
      s.answersInFull (writeLengths es) ∧
      s.answerAt (writeLengths es).length ≠ .count bytes.length ∧
      (s.answerAt (writeLengths es).length = .fail → t.finfo1 = 0xFFFFFFFF#32) ∧
      (∀ n : Nat, s.answerAt (writeLengths es).length = .count n → n < 4294967296 →
        t.finfo1.toNat = n) ∧
      t.active = s.active ∧ t.cp = s.cp ∧ t.fcp = s.cp ∧ t.finfo0 = s.headWord ∧
      t.curFg = s.curFg ∧ t.curBg = s.curBg

/-! ### Invariants and whole-machine rules -/

/-- Every step keeps the legal states legal (10_state.md R22, R24 to R29; 00_scope.md R8). -/
def Obligations.EveryStepKeepsLegalStates : Prop :=
  ∀ s t : State, s.Inv → step s = .next t → t.Inv

/-- The state after reset is legal, and so is the reset state of every legal configuration
(10_state.md R47). -/
def Obligations.ResetIsLegal : Prop :=
  State.reset.Inv ∧ ∀ c : Config, c.Valid → (State.resetOf c).Inv

/-- Every move of the host keeps the legal states legal (60_exceptions.md R239). -/
def Obligations.HostMovesKeepLegalStates : Prop :=
  ∀ (m : HostMove) (s : State), s.Inv → (m.apply s).1.Inv

/-- The level registers hold the last level driven on their pins, after reset and after every step
(10_state.md R29). -/
def Obligations.LevelRegistersMirrorTheLog : Prop :=
  (∀ c : Config, (State.resetOf c).LevelsMirrorLog) ∧
  ∀ s t : State, s.LevelsMirrorLog → step s = .next t → t.LevelsMirrorLog

/-- No step shortens or rewrites the event log (10_state.md R30, 20_memory.md R62). -/
def Obligations.EventLogOnlyGrows : Prop :=
  ∀ s t : State, step s = .next t → ∃ es, t.ev = s.ev ++ es

/-- No step changes the configuration or the command stream, or redraws the cells (00_scope.md R6,
20_memory.md R65, 10_state.md R32). -/
def Obligations.ConfigurationAndStreamStayFixed : Prop :=
  ∀ s t : State, step s = .next t → t.cfg = s.cfg ∧ t.stream = s.stream ∧ t.epoch = s.epoch

/-- A step moves `CP` by the length of the command it completed, modulo 2^32, and a step that faults keeps
it at the head word's index; nothing else moves it (10_state.md R28). -/
def Obligations.CommandPointerAdvancesByLength : Prop :=
  ∀ s t : State, step s = .next t →
    (t.cstate ≠ .halted → ∃ i rest, decode (s.stream.drop s.cp.toNat) = .command i rest ∧
      t.cp = s.cp + BitVec.ofNat 32 (1 + i.mnemonic.argWords)) ∧
    (t.cstate = .halted → t.cp = s.cp)

/-- `CSTATE` changes only so: any command may halt, INIT takes `UNINIT` to `READY`, and nothing else
(10_state.md R25, 43_device.md R169). -/
def Obligations.LifecycleHasNoOtherMoves : Prop :=
  ∀ (i : Instr) (s t : State), exec i s = .next t →
    t.cstate = .halted ∨ (s.cstate = .ready ∧ t.cstate = .ready) ∨
    (i = .init ∧ s.cstate = .uninit ∧ t.cstate = .ready)

/-- `ACTIVE` changes only through a flip: FLIP, or CLEAR, FRECT or a known DIMG with `I = 1`, that did not
fault (10_state.md R23, 44_transmit.md R199). -/
def Obligations.OnlyFlipsChangeActive : Prop :=
  ∀ (i : Instr) (s t : State), exec i s = .next t → t.active ≠ s.active →
    i.flips = true ∧ s.cstate = .ready ∧ t.cstate = .ready ∧
    (∀ (imm : Bool) (sel : Nat), i = .dimg imm sel → sel = 0 ∨ sel = 1)

/-- The frame of memory, for every command: cells of the other buffer, and cells of the active buffer
outside the command's target, hold what they held (20_memory.md R51, R67). -/
def Obligations.CellsOutsideTheTargetAreKept : Prop :=
  ∀ (i : Instr) (s t : State) (b : Bool) (y x : Nat), exec i s = .next t →
    x < s.cfg.width → y < s.cfg.height → (b ≠ s.active ∨ i.targets x y = false) →
    t.cell b y x = s.cell b y x

/-- The frame of the registers, for every command: configuration, stream and epoch stay; without a fault
the fault registers stay; a command other than INIT drives no pin but the DC pin, so the levels of a
reset and a backlight pin of their own stay; only the bus commands take answers (10_state.md R24, R27,
R29, R31). -/
def Obligations.RegistersOutsideTheEffectAreKept : Prop :=
  ∀ (i : Instr) (s t : State), exec i s = .next t →
    (t.cfg = s.cfg ∧ t.stream = s.stream ∧ t.epoch = s.epoch) ∧
    (t.cstate ≠ .halted → t.cause = s.cause ∧ t.fcp = s.fcp ∧ t.finfo0 = s.finfo0 ∧ t.finfo1 = s.finfo1) ∧
    (i ≠ .init → s.cfg.rstPin ≠ s.cfg.dcPin → t.rstLvl = s.rstLvl) ∧
    (i ≠ .init → s.cfg.blPin ≠ s.cfg.dcPin → t.blLvl = s.blLvl) ∧
    (t.ev = s.ev → t.answers = s.answers ∧ t.draws = s.draws ∧
      t.dcLvl = s.dcLvl ∧ t.rstLvl = s.rstLvl ∧ t.blLvl = s.blLvl)

/-- No command's outcome depends on the buffer that is not active: two states that agree but for it give
states that agree but for it (20_memory.md R51). -/
def Obligations.InactiveBufferIsNeverRead : Prop :=
  ∀ (i : Instr) (s : State) (m : Memory) (t : State),
    (∀ y x, x < s.cfg.width → y < s.cfg.height →
      ({ s with fb := m } : State).cell s.active y x = s.cell s.active y x) →
    exec i s = .next t →
    ∃ m', exec i { s with fb := m } = .next { t with fb := m' } ∧
      ∀ y x, x < s.cfg.width → y < s.cfg.height →
        ({ t with fb := m' } : State).cell s.active y x = t.cell s.active y x

/-- A rasterizer command without `I = 1` emits no event and leaves `ACTIVE` and the pin levels alone; every
rasterizer command leaves the other buffer unchanged (42_rasterizer.md R136). -/
def Obligations.RasterizerWorksInMemoryOnly : Prop :=
  ∀ (i : Instr) (s t : State), i.rasterizer = true → exec i s = .next t →
    (i.flips = false → t.ev = s.ev ∧ t.active = s.active ∧ t.dcLvl = s.dcLvl ∧ t.rstLvl = s.rstLvl ∧
      t.blLvl = s.blLvl ∧ t.answers = s.answers ∧ t.draws = s.draws) ∧
    (∀ y x, x < s.cfg.width → y < s.cfg.height → t.cell (!s.active) y x = s.cell (!s.active) y x)

/-- The colour latch (42_rasterizer.md R135): with `P_COLOR_LATCH` FALSE no command writes the colours;
with it TRUE, SETPXC and DCHRC write them when they do not fault, and no other command does. -/
def Obligations.ColoursAreLatchedOnlyWhenConfigured : Prop :=
  ∀ (i : Instr) (s t : State), exec i s = .next t →
    (s.cfg.colorLatch = false → t.curFg = s.curFg ∧ t.curBg = s.curBg) ∧
    (t.cstate = .halted → t.curFg = s.curFg ∧ t.curBg = s.curBg) ∧
    (s.cfg.colorLatch = true → t.cstate ≠ .halted →
      (∀ (x y : Nat) (col : Colour), i = .setpxc x y col → t.curFg = col ∧ t.curBg = s.curBg) ∧
      (∀ (inv dw : Bool) (ch x y : Nat) (fg bg : Colour), i = .dchrc inv dw ch x y fg bg →
        t.curFg = fg ∧ t.curBg = bg) ∧
      (i.mnemonic ≠ .SETPXC → i.mnemonic ≠ .DCHRC → t.curFg = s.curFg ∧ t.curBg = s.curBg))

/-! ### The device sequencer -/

/-- BKL in `READY` changes only `CP` (43_device.md R173). -/
def Obligations.BacklightCommandChangesOnlyThePointer : Prop :=
  ∀ (s : State) (en : Bool), s.cstate = .ready → exec (.bkl en) s = .next { s with cp := s.cp + 1#32 }

/-- ON sends the display-on command and waits `T_ON`; OFF sends display-off with no delay; nothing else
changes but the DC level and `CP` (43_device.md R168, R171, R172). Any answer but a count of 1 raises
`TX_ERROR` after the transaction, before the delay, with the answer in `FINFO1` (44_transmit.md R190,
60_exceptions.md R228; for a count of 2^32 or more that value is the model's free one: log entry 12). -/
def Obligations.DisplayOnAndOffSendOneCommand : Prop :=
  ∀ (s : State) (p : Pin), s.cstate = .ready → s.cfg.dcPin = some p →
    (s.answersInFull [1] →
      exec .on s = .next { s.afterBus (transaction s.cfg p .low [s.cfg.opcDispon] ++ [.delay s.cfg.tOn]) with
        cp := s.cp + 1#32 } ∧
      exec .off s = .next { s.afterBus (transaction s.cfg p .low [s.cfg.opcDispoff]) with
        cp := s.cp + 1#32 }) ∧
    (¬ s.answersInFull [1] →
      exec .on s = .next ((s.afterBus (transaction s.cfg p .low [s.cfg.opcDispon])).faulted
        s.headWord .txError (auxOfAnswer (s.answerAt 0))) ∧
      exec .off s = .next ((s.afterBus (transaction s.cfg p .low [s.cfg.opcDispoff])).faulted
        s.headWord .txError (auxOfAnswer (s.answerAt 0))))

/-- INIT from `UNINIT`, every write answered in full: the events of its phases in order, the active buffer
filled with `CUR_BG`, `READY`, and nothing else (43_device.md R161 to R169). -/
def Obligations.InitBringsTheBlockUp : Prop :=
  ∀ (s : State) (p : Pin), s.cstate = .uninit → s.cfg.dcPin = some p →
    s.answersInFull (writeLengths (initEvents s.cfg p)) →
    ∃ t, exec .init s = .next t ∧
      t = { s.afterBus (initEvents s.cfg p) with fb := t.fb, cstate := .ready, cp := s.cp + 1#32 } ∧
      ∀ b y x, x < s.cfg.width → y < s.cfg.height →
        t.cell b y x = if b = s.active then s.curBg else s.cell b y x

/-- INIT with a failing write: before the display-on command no cell has changed; at the display-on
command the active buffer is already cleared. Either way it halts with `TX_ERROR` (43_device.md R170). -/
def Obligations.FailedInitClearsOnlyAtTheEnd : Prop :=
  ∀ (s t : State) (p : Pin) (before : List Event), s.cstate = .uninit → s.cfg.dcPin = some p →
    initEvents s.cfg p = before ++ transaction s.cfg p .low [s.cfg.opcDispon] ++ [.delay s.cfg.tOn] →
    exec .init s = .next t →
    (¬ s.answersInFull (writeLengths before) →
      t.cstate = .halted ∧ t.cause = .txError ∧ t.fb = s.fb) ∧
    (s.answersInFull (writeLengths before) → s.answerAt (writeLengths before).length ≠ .count 1 →
      t.cstate = .halted ∧ t.cause = .txError ∧
      ∀ y x, x < s.cfg.width → y < s.cfg.height → t.cell s.active y x = s.curBg)

/-! ### The rasterizer -/

/-- CLEAR fills the active buffer with its operand and changes nothing else (42_rasterizer.md R123). -/
def Obligations.ClearFillsTheActiveBuffer : Prop :=
  ∀ (s : State) (bgc : Colour), s.cstate = .ready →
    ∃ t, exec (.clear false bgc) s = .next t ∧ t = { s with fb := t.fb, cp := s.cp + 1#32 } ∧
      ∀ b y x, x < s.cfg.width → y < s.cfg.height →
        t.cell b y x = if b = s.active then bgc else s.cell b y x

/-- SETPXC, SETPX and CLRPX write one cell, with the operand, `CUR_FG` and `CUR_BG`; every other cell of
both buffers stays; SETPXC latches `CUR_FG` when the configuration says so (42_rasterizer.md R124 to R126;
20_memory.md R67). -/
def Obligations.PixelCommandsWriteOneCell : Prop :=
  ∀ (s : State) (x0 y0 : Nat) (col : Colour), s.cstate = .ready → x0 < s.cfg.width → y0 < s.cfg.height →
    (∃ t, exec (.setpxc x0 y0 col) s = .next t ∧
      t = { s with fb := t.fb, cp := s.cp + 2#32, curFg := if s.cfg.colorLatch then col else s.curFg } ∧
      ∀ b y x, x < s.cfg.width → y < s.cfg.height →
        t.cell b y x = if b = s.active ∧ y = y0 ∧ x = x0 then col else s.cell b y x) ∧
    (∃ t, exec (.setpx x0 y0) s = .next t ∧ t = { s with fb := t.fb, cp := s.cp + 2#32 } ∧
      ∀ b y x, x < s.cfg.width → y < s.cfg.height →
        t.cell b y x = if b = s.active ∧ y = y0 ∧ x = x0 then s.curFg else s.cell b y x) ∧
    (∃ t, exec (.clrpx x0 y0) s = .next t ∧ t = { s with fb := t.fb, cp := s.cp + 2#32 } ∧
      ∀ b y x, x < s.cfg.width → y < s.cfg.height →
        t.cell b y x = if b = s.active ∧ y = y0 ∧ x = x0 then s.curBg else s.cell b y x)

/-- FRECT fills the half-open rectangle with `CUR_FG`; an empty one, whatever its coordinates, writes
nothing; nothing else changes (42_rasterizer.md R121, R127). -/
def Obligations.FilledRectangleIsHalfOpen : Prop :=
  ∀ (s : State) (x1 y1 x2 y2 : Nat), s.cstate = .ready →
    (x2 ≤ x1 ∨ y2 ≤ y1) ∨ (x2 ≤ s.cfg.width ∧ y2 ≤ s.cfg.height) →
    ∃ t, exec (.frect false x1 y1 x2 y2) s = .next t ∧ t = { s with fb := t.fb, cp := s.cp + 3#32 } ∧
      ∀ b y x, x < s.cfg.width → y < s.cfg.height →
        t.cell b y x =
          if b = s.active ∧ x1 ≤ x ∧ x < x2 ∧ y1 ≤ y ∧ y < y2 then s.curFg else s.cell b y x

/-- DCHRC and DCHR render the 6×8 cell of font entry `CH − 0x20`: bit `row` of byte `col` chooses
foreground or background, every one of the 48 cells is written, and nothing else changes but the latch
(42_rasterizer.md R128 to R131, R135, R137). -/
def Obligations.GlyphCommandsRenderOneCell : Prop :=
  ∀ (s : State) (inv dw : Bool) (ch x0 y0 : Nat) (fg bg : Colour) (g : Glyph), s.cstate = .ready →
    0x20 ≤ ch → s.cfg.font[ch - 0x20]? = some g →
    x0 + 6 ≤ s.cfg.width → y0 + 8 ≤ s.cfg.height →
    (∃ t, exec (.dchrc inv dw ch x0 y0 fg bg) s = .next t ∧
      t = { s with
        fb := t.fb, cp := s.cp + 3#32
        curFg := if s.cfg.colorLatch then fg else s.curFg
        curBg := if s.cfg.colorLatch then bg else s.curBg } ∧
      ∀ b y x, x < s.cfg.width → y < s.cfg.height →
        t.cell b y x =
          if b = s.active ∧ x0 ≤ x ∧ x < x0 + 6 ∧ y0 ≤ y ∧ y < y0 + 8 then
            if (g.toList.getD (x - x0) 0#8).getLsbD (y - y0) then fg else bg
          else s.cell b y x) ∧
    (∃ t, exec (.dchr inv dw ch x0 y0) s = .next t ∧ t = { s with fb := t.fb, cp := s.cp + 2#32 } ∧
      ∀ b y x, x < s.cfg.width → y < s.cfg.height →
        t.cell b y x =
          if b = s.active ∧ x0 ≤ x ∧ x < x0 + 6 ∧ y0 ≤ y ∧ y < y0 + 8 then
            if (g.toList.getD (x - x0) 0#8).getLsbD (y - y0) then s.curFg else s.curBg
          else s.cell b y x)

/-- `INV` and `DW` have no effect: a command with either set behaves exactly as the same command with both
clear (42_rasterizer.md R132). -/
def Obligations.GlyphFlagsHaveNoEffect : Prop :=
  ∀ (s : State) (inv dw : Bool) (ch x y : Nat) (fg bg : Colour),
    exec (.dchrc inv dw ch x y fg bg) s = exec (.dchrc false false ch x y fg bg) s ∧
    exec (.dchr inv dw ch x y) s = exec (.dchr false false ch x y) s

/-- DIMG writes all 4,096 cells of the image block in the current colours (42_rasterizer.md R133). -/
def Obligations.ImageCommandWritesTheBlock : Prop :=
  ∀ (s : State) (sel : Nat), s.cstate = .ready → sel = 0 ∨ sel = 1 →
    128 ≤ s.cfg.width → 32 ≤ s.cfg.height →
    ∃ t, exec (.dimg false sel) s = .next t ∧ t = { s with fb := t.fb, cp := s.cp + 1#32 } ∧
      ∀ b y x, x < s.cfg.width → y < s.cfg.height →
        t.cell b y x =
          if b = s.active ∧ x < 128 ∧ y < 32 then
            if ((if sel = 0 then s.cfg.logoA else s.cfg.logoB).toList.getD y 0#128).getLsbD x
            then s.curFg else s.curBg
          else s.cell b y x

/-- An unknown image selector is not a fault: the command advances `CP` and changes nothing else, with `I`
set or not, on a display of any size (60_exceptions.md R233, 42_rasterizer.md R134). -/
def Obligations.UnknownImageIsANoOp : Prop :=
  ∀ (s : State) (imm : Bool) (sel : Nat), s.cstate = .ready → 2 ≤ sel →
    exec (.dimg imm sel) s = .next { s with cp := s.cp + 1#32 }

/-- The immediate flip: with `I = 1`, what CLEAR, FRECT and a known DIMG leave is what FLIP leaves when it
runs on the drawing step's result, but for how far `CP` moves (42_rasterizer.md R122, R138). -/
def Obligations.ImmediateFlagEndsInAFlip : Prop :=
  ∀ s t : State, s.cstate = .ready → t.cstate = .ready →
    (∀ bgc, exec (.clear false bgc) s = .next t →
      ∃ u, exec .flip { t with cp := s.cp } = .next u ∧ exec (.clear true bgc) s = .next u) ∧
    (∀ x1 y1 x2 y2, exec (.frect false x1 y1 x2 y2) s = .next t →
      ∃ u, exec .flip { t with cp := s.cp } = .next u ∧
        exec (.frect true x1 y1 x2 y2) s =
          .next { u with cp := if u.cstate = .halted then s.cp else s.cp + 3#32 }) ∧
    (∀ sel, sel = 0 ∨ sel = 1 → exec (.dimg false sel) s = .next t →
      ∃ u, exec .flip { t with cp := s.cp } = .next u ∧ exec (.dimg true sel) s = .next u)

/-! ### The transmitter -/

/-- SETWIN sends the window's five transactions, the bounds big-endian and inclusive, and changes nothing
else but the DC level and `CP` (44_transmit.md R194, R196, R197). The first write not answered in full
raises `TX_ERROR` and ends the command there (44_transmit.md R190, 60_exceptions.md R228; `StopsIn` says what
that leaves, and log entry 12 what is free in it). -/
def Obligations.SetWindowSendsFiveTransactions : Prop :=
  ∀ (s : State) (p : Pin) (x0 y0 x1 y1 : Nat), s.cstate = .ready → s.cfg.dcPin = some p →
    x0 ≤ x1 → x1 < s.cfg.width → y0 ≤ y1 → y1 < s.cfg.height →
    (s.answersInFull [1, 4, 1, 4, 1] →
      exec (.setwin x0 y0 x1 y1) s =
        .next { s.afterBus (windowEvents s.cfg p x0 y0 x1 y1) with cp := s.cp + 3#32 }) ∧
    (¬ s.answersInFull [1, 4, 1, 4, 1] →
      ∃ t, exec (.setwin x0 y0 x1 y1) s = .next t ∧ StopsIn s (windowEvents s.cfg p x0 y0 x1 y1) t ∧
        t.cstate = .halted ∧ t.cause = .txError)

/-- FLIP sends the full window and then every row of the active buffer, one transaction a row, and only
then swaps the buffers; no cell changes (44_transmit.md R195, R198). The first write not answered in full
raises `TX_ERROR` and ends the command there, before the swap (44_transmit.md R190, 60_exceptions.md R228;
`StopsIn` says what that leaves, and log entry 12 what is free in it). -/
def Obligations.FlipSendsTheFrameAndSwaps : Prop :=
  ∀ (s : State) (p : Pin), s.cstate = .ready → s.cfg.dcPin = some p → 1 ≤ s.cfg.width →
    (s.answersInFull ([1, 4, 1, 4, 1] ++ List.replicate s.cfg.height (2 * s.cfg.width)) →
      exec .flip s =
        .next { s.afterBus (flipEvents s p) with active := !s.active, cp := s.cp + 1#32 }) ∧
    (¬ s.answersInFull ([1, 4, 1, 4, 1] ++ List.replicate s.cfg.height (2 * s.cfg.width)) →
      ∃ t, exec .flip s = .next t ∧ StopsIn s (flipEvents s p) t ∧
        t.cstate = .halted ∧ t.cause = .txError)

/-- `ACTIVE` changes exactly when every one of the `5 + H` transactions of a flip has been answered with
its full length, in FLIP and in every command that ends in a flip (44_transmit.md R199). The hypotheses on
`i` and `t` say that the command reaches its flip: it is no unknown image, and no check stopped it. -/
def Obligations.ActiveChangesOnlyAfterTheWholeFrame : Prop :=
  ∀ (i : Instr) (s t : State) (p : Pin), s.cstate = .ready → s.cfg.dcPin = some p → 1 ≤ s.cfg.width →
    i.flips = true → (∀ imm sel, i = .dimg imm sel → sel = 0 ∨ sel = 1) →
    exec i s = .next t → (t.cstate = .halted → t.cause = .txError) →
    (t.active ≠ s.active ↔
      s.answersInFull ([1, 4, 1, 4, 1] ++ List.replicate s.cfg.height (2 * s.cfg.width)))

/-- The laws of FLIP when no fault occurs (44_transmit.md R200): `ACTIVE` toggles once, two flips restore it,
the window is the full display, and no cell of either buffer changes. -/
def Obligations.FlipLaws : Prop :=
  ∀ (s t : State) (p : Pin), s.cfg.dcPin = some p → exec .flip s = .next t → t.cstate ≠ .halted →
    t.active = (!s.active) ∧
    (∀ u, exec .flip t = .next u → u.cstate ≠ .halted → u.active = s.active) ∧
    (∃ rows, t.ev = s.ev ++ windowEvents s.cfg p 0 0 (s.cfg.width - 1) (s.cfg.height - 1) ++ rows) ∧
    ∀ b y x, t.cell b y x = s.cell b y x

/-- The size of one flip (44_transmit.md R201): `5 + H` transactions, `4·(5 + H)` events and
`11 + 2·W·H` bytes. -/
def Obligations.FlipSize : Prop :=
  ∀ (s t : State) (p : Pin), s.cfg.dcPin = some p → 1 ≤ s.cfg.width → exec .flip s = .next t →
    t.cstate ≠ .halted →
    ∃ es, t.ev = s.ev ++ es ∧ es.length = 4 * (5 + s.cfg.height) ∧
      (writeLengths es).length = 5 + s.cfg.height ∧
      (writeLengths es).sum = 11 + 2 * s.cfg.width * s.cfg.height

/-- End to end (44_transmit.md R207): after a FLIP without a fault, the observer's panel, whatever it held
before, shows the RGB565 value of every cell of the buffer sent, under the window of the full display and
with exactly `W·H` pixels written. (The window opcodes are parameters; the observer tells them apart only
when they differ, so that is assumed.) -/
def Obligations.PanelShowsTheFrameAfterFlip : Prop :=
  ∀ (s t : State) (p : Pin) (panel : Panel), s.cfg.Valid → s.cfg.WindowOpcodesDistinct →
    s.cfg.dcPin = some p → exec .flip s = .next t → t.cstate ≠ .halted →
    ∃ es, t.ev = s.ev ++ es ∧
      (panel.afterEvents s.cfg s.dcLvl es).mode = .writing (s.cfg.width * s.cfg.height) none ∧
      (panel.afterEvents s.cfg s.dcLvl es).colStart = 0 ∧
      (panel.afterEvents s.cfg s.dcLvl es).colEnd = s.cfg.width - 1 ∧
      (panel.afterEvents s.cfg s.dcLvl es).rowStart = 0 ∧
      (panel.afterEvents s.cfg s.dcLvl es).rowEnd = s.cfg.height - 1 ∧
      ∀ y x, x < s.cfg.width → y < s.cfg.height →
        (panel.afterEvents s.cfg s.dcLvl es).pixel? y x = some (swap16 (s.cell s.active y x))

/-! ### Reset and the host's reads -/

/-- Reset (70_reset_and_hazards.md R251): every field of the record at its reset value, no event, each cell a
free draw of the new reset, and `HALTED` with `CONFIG` exactly when there is no DC pin. -/
def Obligations.ResetRestoresTheRecord : Prop :=
  ∀ s : State,
    s.hostReset.active = false ∧ s.hostReset.curFg = s.cfg.defFg ∧ s.hostReset.curBg = s.cfg.defBg ∧
    s.hostReset.fcp = 0#32 ∧ s.hostReset.finfo0 = 0#32 ∧ s.hostReset.finfo1 = 0#32 ∧
    s.hostReset.cp = 0#32 ∧ s.hostReset.dcLvl = .unset ∧ s.hostReset.rstLvl = .unset ∧
    s.hostReset.blLvl = .unset ∧ s.hostReset.ev = [] ∧ s.hostReset.cfg = s.cfg ∧
    (∀ b y x, s.hostReset.cell b y x = Config.resetCell (s.epoch + 1) (cellIndex s.cfg b y x)) ∧
    (s.cfg.dcPin = none → s.hostReset.cstate = .halted ∧ s.hostReset.cause = .config) ∧
    (s.cfg.dcPin ≠ none → s.hostReset.cstate = .uninit ∧ s.hostReset.cause = .noFault)

/-- The register window (10_state.md R34 to R46), field by field; every bit not listed reads 0, and so does
every other offset. A read changes nothing, and the type code of the spec's configuration is 1. -/
def Obligations.RegisterWindowReadsItsFields : Prop :=
  ∀ s : State,
    s.readRegister 0x00 = s.cfg.typeCode.setWidth 32 ∧
    (s.cfg.Valid → (s.readRegister 0x01).toNat = s.cfg.width * 65536 + s.cfg.height) ∧
    (s.readRegister 0x02).toNat =
      (match s.cstate with | .uninit => 0 | .ready => 1 | .halted => 2) +
      16 * (if s.active then 1 else 0) +
      256 * (match s.cause with
        | .noFault => 0 | .illegalCommand => 1 | .notInit => 2 | .reinit => 3
        | .bounds => 4 | .glyphRange => 5 | .txError => 6 | .config => 7) ∧
    s.readRegister 0x03 = s.cp ∧ s.readRegister 0x04 = s.fcp ∧
    s.readRegister 0x05 = s.finfo0 ∧ s.readRegister 0x06 = s.finfo1 ∧
    (s.readRegister 0x07).toNat = s.curFg.toNat * 65536 + s.curBg.toNat ∧
    (s.readRegister 0x08).toNat =
      (s.cfg.blPin.getD 0xFF#8).toNat * 65536 + (s.cfg.rstPin.getD 0xFF#8).toNat * 256 +
      (s.cfg.dcPin.getD 0xFF#8).toNat ∧
    (s.readRegister 0x09).toNat =
      s.cfg.cs.toNat * 256 + (if s.cfg.cpol then 2 else 0) + (if s.cfg.cpha then 1 else 0) ∧
    s.readRegister 0x0A = s.cfg.clkHz ∧
    (∀ o, 0x0A < o → s.readRegister o = 0#32) ∧
    (∀ o, (HostMove.readRegister o).apply s = (s, .register (s.readRegister o))) ∧
    State.reset.readRegister 0x00 = 0x00000001#32

/-- The getters (30_encoding.md R94): the type code, the width and the height, in every `CSTATE`. -/
def Obligations.GettersReadTheWindow : Prop :=
  ∀ s : State, s.cfg.Valid →
    s.getType = s.cfg.typeCode ∧ s.getWidth.toNat = s.cfg.width ∧ s.getHeight.toNat = s.cfg.height

/-- The readback window (20_memory.md R53, R55): the half-word at `(b·H + y)·W + x` is the cell `FB[b][y][x]`,
and an address at or beyond `2·W·H` reads 0; a read changes nothing, in any `CSTATE`. -/
def Obligations.ReadbackReturnsTheCell : Prop :=
  ∀ s : State,
    (∀ (b : Bool) (y x : Nat), x < s.cfg.width → y < s.cfg.height →
      s.memRead (((if b then 1 else 0) * s.cfg.height + y) * s.cfg.width + x) = s.cell b y x) ∧
    (∀ a, 2 * s.cfg.width * s.cfg.height ≤ a → s.memRead a = 0x0000#16) ∧
    (∀ a, (HostMove.readBack a).apply s = (s, .cell (s.memRead a)))

/-! ### The host side: colours, calls, assembler -/

/-- `MakeColor` (41_color.md R101 to R103): defined exactly for channels in 0..31; there red and blue are the
channels, green is twice its channel, and distinct channels give distinct words. -/
def Obligations.MakeColorPacksTheChannels : Prop :=
  (∀ r g b : Nat, r ≤ 31 → g ≤ 31 → b ≤ 31 →
    ∃ c, makeColor r g b = some c ∧ (swap16 c).toNat = r * 2048 + g * 64 + b ∧
      (red5 c).toNat = r ∧ (green6 c).toNat = 2 * g ∧ (blue5 c).toNat = b) ∧
  (∀ r g b : Nat, 31 < r ∨ 31 < g ∨ 31 < b → makeColor r g b = none) ∧
  (∀ (r g b r' g' b' : Nat) (c : Colour), makeColor r g b = some c → makeColor r' g' b' = some c →
    r = r' ∧ g = g' ∧ b = b') ∧
  makeColor 0 0 0 = some 0x0000#16 ∧ makeColor 31 31 31 = some 0xDFFF#16

/-- The wire form of a colour word is low byte first, which is its RGB565 value high byte first
(41_color.md R100, R106). -/
def Obligations.WireFormIsLowByteFirst : Prop :=
  ∀ c : Colour, wire c = [BitVec.ofNat 8 c.toNat, BitVec.ofNat 8 (c.toNat / 256)] ∧
    wire c = be16 (rgb565 c) ∧ rgb565 (rgb565 c) = c

/-- The text calls (30_encoding.md R88, R89): one glyph command a character, six pixels apart; refused as a
whole exactly when some coordinate does not fit 16 bits. The spec says so of the x coordinate (R91); that the
y coordinate refuses the call too is the model's choice (read from R85 and R91; DEDUCED: log entry 20).
`Print` ignores its last two arguments. -/
def Obligations.TextCallsExpandToGlyphs : Prop :=
  ∀ (x y : Nat) (str : List Byte) (fg bg : Colour) (clearLine immediate : Bool),
    ((∀ i < str.length, x + 6 * i < 65536 ∧ y < 65536) →
      ∃ is, (ApiCall.drawTextColor x y str fg bg).expand = some is ∧ is.length = str.length ∧
        ∀ (i : Nat) (c : Byte), str[i]? = some c →
          is[i]? = some (.dchrc false false c.toNat (x + 6 * i) y fg bg)) ∧
    ((∃ i < str.length, 65536 ≤ x + 6 * i ∨ 65536 ≤ y) →
      (ApiCall.drawTextColor x y str fg bg).expand = none) ∧
    ((∀ i < str.length, x * 6 + 6 * i < 65536 ∧ y * 8 < 65536) →
      ∃ is, (ApiCall.print str x y clearLine immediate).expand = some is ∧ is.length = str.length ∧
        ∀ (i : Nat) (c : Byte), str[i]? = some c →
          is[i]? = some (.dchr false false c.toNat (x * 6 + 6 * i) (y * 8))) ∧
    ((∃ i < str.length, 65536 ≤ x * 6 + 6 * i ∨ 65536 ≤ y * 8) →
      (ApiCall.print str x y clearLine immediate).expand = none)

/-- What the assembler emits for a line is what the decoder reads as the line's command, and every command
it accepts carries the line's mnemonic (30_encoding.md R82, R83). -/
def Obligations.AssembledLinesDecode : Prop :=
  ∀ (c : Config) (l : AsmLine) (ws : List Word), l.assemble c = some ws →
    ∃ i, l.instr c = some i ∧ i.mnemonic = l.mnemonic ∧ decode ws = .command i []
end

