-- ==== Sys2Proof/Laws/State.lean ====
section
/-! SUPPORT. One lemma per field per update of the state, so that no later proof unfolds an update. -/

namespace Sys2Proof.Machine

variable (s : State)

/-! ### `emit` -/

@[simp] theorem State.emit_cfg (e : Event) : (s.emit e).cfg = s.cfg := by cases e <;> rfl
@[simp] theorem State.emit_stream (e : Event) : (s.emit e).stream = s.stream := by cases e <;> rfl
@[simp] theorem State.emit_answers (e : Event) : (s.emit e).answers = s.answers := by cases e <;> rfl
@[simp] theorem State.emit_draws (e : Event) : (s.emit e).draws = s.draws := by cases e <;> rfl
@[simp] theorem State.emit_epoch (e : Event) : (s.emit e).epoch = s.epoch := by cases e <;> rfl
@[simp] theorem State.emit_fb (e : Event) : (s.emit e).fb = s.fb := by cases e <;> rfl
@[simp] theorem State.emit_active (e : Event) : (s.emit e).active = s.active := by cases e <;> rfl
@[simp] theorem State.emit_curFg (e : Event) : (s.emit e).curFg = s.curFg := by cases e <;> rfl
@[simp] theorem State.emit_curBg (e : Event) : (s.emit e).curBg = s.curBg := by cases e <;> rfl
@[simp] theorem State.emit_cstate (e : Event) : (s.emit e).cstate = s.cstate := by cases e <;> rfl
@[simp] theorem State.emit_cause (e : Event) : (s.emit e).cause = s.cause := by cases e <;> rfl
@[simp] theorem State.emit_fcp (e : Event) : (s.emit e).fcp = s.fcp := by cases e <;> rfl
@[simp] theorem State.emit_finfo0 (e : Event) : (s.emit e).finfo0 = s.finfo0 := by cases e <;> rfl
@[simp] theorem State.emit_finfo1 (e : Event) : (s.emit e).finfo1 = s.finfo1 := by cases e <;> rfl
@[simp] theorem State.emit_cp (e : Event) : (s.emit e).cp = s.cp := by cases e <;> rfl
@[simp] theorem State.emit_ev (e : Event) : (s.emit e).ev = s.ev ++ [e] := by cases e <;> rfl

/-! ### `emitAll` -/

@[simp] theorem State.emitAll_nil : s.emitAll [] = s := rfl

theorem State.emitAll_cons (e : Event) (es : List Event) : s.emitAll (e :: es) = (s.emit e).emitAll es := rfl

theorem State.emitAll_append (es fs : List Event) : s.emitAll (es ++ fs) = (s.emitAll es).emitAll fs :=
  List.foldl_append ..

@[simp] theorem State.emitAll_cfg (es : List Event) : (s.emitAll es).cfg = s.cfg := by
  induction es generalizing s with
  | nil => rfl
  | cons e es ih => simp [State.emitAll_cons, ih]

@[simp] theorem State.emitAll_stream (es : List Event) : (s.emitAll es).stream = s.stream := by
  induction es generalizing s with
  | nil => rfl
  | cons e es ih => simp [State.emitAll_cons, ih]

@[simp] theorem State.emitAll_answers (es : List Event) : (s.emitAll es).answers = s.answers := by
  induction es generalizing s with
  | nil => rfl
  | cons e es ih => simp [State.emitAll_cons, ih]

@[simp] theorem State.emitAll_draws (es : List Event) : (s.emitAll es).draws = s.draws := by
  induction es generalizing s with
  | nil => rfl
  | cons e es ih => simp [State.emitAll_cons, ih]

@[simp] theorem State.emitAll_epoch (es : List Event) : (s.emitAll es).epoch = s.epoch := by
  induction es generalizing s with
  | nil => rfl
  | cons e es ih => simp [State.emitAll_cons, ih]

@[simp] theorem State.emitAll_fb (es : List Event) : (s.emitAll es).fb = s.fb := by
  induction es generalizing s with
  | nil => rfl
  | cons e es ih => simp [State.emitAll_cons, ih]

@[simp] theorem State.emitAll_active (es : List Event) : (s.emitAll es).active = s.active := by
  induction es generalizing s with
  | nil => rfl
  | cons e es ih => simp [State.emitAll_cons, ih]

@[simp] theorem State.emitAll_curFg (es : List Event) : (s.emitAll es).curFg = s.curFg := by
  induction es generalizing s with
  | nil => rfl
  | cons e es ih => simp [State.emitAll_cons, ih]

@[simp] theorem State.emitAll_curBg (es : List Event) : (s.emitAll es).curBg = s.curBg := by
  induction es generalizing s with
  | nil => rfl
  | cons e es ih => simp [State.emitAll_cons, ih]

@[simp] theorem State.emitAll_cstate (es : List Event) : (s.emitAll es).cstate = s.cstate := by
  induction es generalizing s with
  | nil => rfl
  | cons e es ih => simp [State.emitAll_cons, ih]

@[simp] theorem State.emitAll_cause (es : List Event) : (s.emitAll es).cause = s.cause := by
  induction es generalizing s with
  | nil => rfl
  | cons e es ih => simp [State.emitAll_cons, ih]

@[simp] theorem State.emitAll_fcp (es : List Event) : (s.emitAll es).fcp = s.fcp := by
  induction es generalizing s with
  | nil => rfl
  | cons e es ih => simp [State.emitAll_cons, ih]

@[simp] theorem State.emitAll_finfo0 (es : List Event) : (s.emitAll es).finfo0 = s.finfo0 := by
  induction es generalizing s with
  | nil => rfl
  | cons e es ih => simp [State.emitAll_cons, ih]

@[simp] theorem State.emitAll_finfo1 (es : List Event) : (s.emitAll es).finfo1 = s.finfo1 := by
  induction es generalizing s with
  | nil => rfl
  | cons e es ih => simp [State.emitAll_cons, ih]

@[simp] theorem State.emitAll_cp (es : List Event) : (s.emitAll es).cp = s.cp := by
  induction es generalizing s with
  | nil => rfl
  | cons e es ih => simp [State.emitAll_cons, ih]

@[simp] theorem State.emitAll_ev (es : List Event) : (s.emitAll es).ev = s.ev ++ es := by
  induction es generalizing s with
  | nil => simp
  | cons e es ih => simp [State.emitAll_cons, ih]


/-! ### `takeAnswer` -/

@[simp] theorem State.takeAnswer_cfg : s.takeAnswer.cfg = s.cfg := rfl
@[simp] theorem State.takeAnswer_stream : s.takeAnswer.stream = s.stream := rfl
@[simp] theorem State.takeAnswer_answers : s.takeAnswer.answers = s.answers.tail := rfl
@[simp] theorem State.takeAnswer_draws : s.takeAnswer.draws = s.draws + 1 := rfl
@[simp] theorem State.takeAnswer_epoch : s.takeAnswer.epoch = s.epoch := rfl
@[simp] theorem State.takeAnswer_fb : s.takeAnswer.fb = s.fb := rfl
@[simp] theorem State.takeAnswer_active : s.takeAnswer.active = s.active := rfl
@[simp] theorem State.takeAnswer_curFg : s.takeAnswer.curFg = s.curFg := rfl
@[simp] theorem State.takeAnswer_curBg : s.takeAnswer.curBg = s.curBg := rfl
@[simp] theorem State.takeAnswer_cstate : s.takeAnswer.cstate = s.cstate := rfl
@[simp] theorem State.takeAnswer_cause : s.takeAnswer.cause = s.cause := rfl
@[simp] theorem State.takeAnswer_fcp : s.takeAnswer.fcp = s.fcp := rfl
@[simp] theorem State.takeAnswer_finfo0 : s.takeAnswer.finfo0 = s.finfo0 := rfl
@[simp] theorem State.takeAnswer_finfo1 : s.takeAnswer.finfo1 = s.finfo1 := rfl
@[simp] theorem State.takeAnswer_cp : s.takeAnswer.cp = s.cp := rfl
@[simp] theorem State.takeAnswer_dcLvl : s.takeAnswer.dcLvl = s.dcLvl := rfl
@[simp] theorem State.takeAnswer_rstLvl : s.takeAnswer.rstLvl = s.rstLvl := rfl
@[simp] theorem State.takeAnswer_blLvl : s.takeAnswer.blLvl = s.blLvl := rfl
@[simp] theorem State.takeAnswer_ev : s.takeAnswer.ev = s.ev := rfl

/-! ### `raiseFault` -/

@[simp] theorem State.raiseFault_cfg (c : Cause) (aux : Word) : (s.raiseFault c aux).cfg = s.cfg := rfl
@[simp] theorem State.raiseFault_stream (c : Cause) (aux : Word) : (s.raiseFault c aux).stream = s.stream := rfl
@[simp] theorem State.raiseFault_answers (c : Cause) (aux : Word) : (s.raiseFault c aux).answers = s.answers := rfl
@[simp] theorem State.raiseFault_draws (c : Cause) (aux : Word) : (s.raiseFault c aux).draws = s.draws := rfl
@[simp] theorem State.raiseFault_epoch (c : Cause) (aux : Word) : (s.raiseFault c aux).epoch = s.epoch := rfl
@[simp] theorem State.raiseFault_fb (c : Cause) (aux : Word) : (s.raiseFault c aux).fb = s.fb := rfl
@[simp] theorem State.raiseFault_active (c : Cause) (aux : Word) : (s.raiseFault c aux).active = s.active := rfl
@[simp] theorem State.raiseFault_curFg (c : Cause) (aux : Word) : (s.raiseFault c aux).curFg = s.curFg := rfl
@[simp] theorem State.raiseFault_curBg (c : Cause) (aux : Word) : (s.raiseFault c aux).curBg = s.curBg := rfl
@[simp] theorem State.raiseFault_cstate (c : Cause) (aux : Word) : (s.raiseFault c aux).cstate = .halted := rfl
@[simp] theorem State.raiseFault_cause (c : Cause) (aux : Word) : (s.raiseFault c aux).cause = c := rfl
@[simp] theorem State.raiseFault_fcp (c : Cause) (aux : Word) : (s.raiseFault c aux).fcp = s.cp := rfl
@[simp] theorem State.raiseFault_finfo0 (c : Cause) (aux : Word) : (s.raiseFault c aux).finfo0 = s.headWord := rfl
@[simp] theorem State.raiseFault_finfo1 (c : Cause) (aux : Word) : (s.raiseFault c aux).finfo1 = aux := rfl
@[simp] theorem State.raiseFault_cp (c : Cause) (aux : Word) : (s.raiseFault c aux).cp = s.cp := rfl
@[simp] theorem State.raiseFault_dcLvl (c : Cause) (aux : Word) : (s.raiseFault c aux).dcLvl = s.dcLvl := rfl
@[simp] theorem State.raiseFault_rstLvl (c : Cause) (aux : Word) : (s.raiseFault c aux).rstLvl = s.rstLvl := rfl
@[simp] theorem State.raiseFault_blLvl (c : Cause) (aux : Word) : (s.raiseFault c aux).blLvl = s.blLvl := rfl
@[simp] theorem State.raiseFault_ev (c : Cause) (aux : Word) : (s.raiseFault c aux).ev = s.ev := rfl

/-! ### `advance` -/

@[simp] theorem State.advance_cfg (n : Nat) : (s.advance n).cfg = s.cfg := rfl
@[simp] theorem State.advance_stream (n : Nat) : (s.advance n).stream = s.stream := rfl
@[simp] theorem State.advance_answers (n : Nat) : (s.advance n).answers = s.answers := rfl
@[simp] theorem State.advance_draws (n : Nat) : (s.advance n).draws = s.draws := rfl
@[simp] theorem State.advance_epoch (n : Nat) : (s.advance n).epoch = s.epoch := rfl
@[simp] theorem State.advance_fb (n : Nat) : (s.advance n).fb = s.fb := rfl
@[simp] theorem State.advance_active (n : Nat) : (s.advance n).active = s.active := rfl
@[simp] theorem State.advance_curFg (n : Nat) : (s.advance n).curFg = s.curFg := rfl
@[simp] theorem State.advance_curBg (n : Nat) : (s.advance n).curBg = s.curBg := rfl
@[simp] theorem State.advance_cstate (n : Nat) : (s.advance n).cstate = s.cstate := rfl
@[simp] theorem State.advance_cause (n : Nat) : (s.advance n).cause = s.cause := rfl
@[simp] theorem State.advance_fcp (n : Nat) : (s.advance n).fcp = s.fcp := rfl
@[simp] theorem State.advance_finfo0 (n : Nat) : (s.advance n).finfo0 = s.finfo0 := rfl
@[simp] theorem State.advance_finfo1 (n : Nat) : (s.advance n).finfo1 = s.finfo1 := rfl
@[simp] theorem State.advance_cp (n : Nat) : (s.advance n).cp = s.cp + BitVec.ofNat 32 n := rfl
@[simp] theorem State.advance_dcLvl (n : Nat) : (s.advance n).dcLvl = s.dcLvl := rfl
@[simp] theorem State.advance_rstLvl (n : Nat) : (s.advance n).rstLvl = s.rstLvl := rfl
@[simp] theorem State.advance_blLvl (n : Nat) : (s.advance n).blLvl = s.blLvl := rfl
@[simp] theorem State.advance_ev (n : Nat) : (s.advance n).ev = s.ev := rfl

/-! ### `writeRow` and `paint` -/

@[simp] theorem State.writeRow_cfg (b : Bool) (y x w : Nat) (color : Nat → Colour) : (s.writeRow b y x w color).cfg = s.cfg := rfl
@[simp] theorem State.writeRow_stream (b : Bool) (y x w : Nat) (color : Nat → Colour) : (s.writeRow b y x w color).stream = s.stream := rfl
@[simp] theorem State.writeRow_answers (b : Bool) (y x w : Nat) (color : Nat → Colour) : (s.writeRow b y x w color).answers = s.answers := rfl
@[simp] theorem State.writeRow_draws (b : Bool) (y x w : Nat) (color : Nat → Colour) : (s.writeRow b y x w color).draws = s.draws := rfl
@[simp] theorem State.writeRow_epoch (b : Bool) (y x w : Nat) (color : Nat → Colour) : (s.writeRow b y x w color).epoch = s.epoch := rfl
@[simp] theorem State.writeRow_active (b : Bool) (y x w : Nat) (color : Nat → Colour) : (s.writeRow b y x w color).active = s.active := rfl
@[simp] theorem State.writeRow_curFg (b : Bool) (y x w : Nat) (color : Nat → Colour) : (s.writeRow b y x w color).curFg = s.curFg := rfl
@[simp] theorem State.writeRow_curBg (b : Bool) (y x w : Nat) (color : Nat → Colour) : (s.writeRow b y x w color).curBg = s.curBg := rfl
@[simp] theorem State.writeRow_cstate (b : Bool) (y x w : Nat) (color : Nat → Colour) : (s.writeRow b y x w color).cstate = s.cstate := rfl
@[simp] theorem State.writeRow_cause (b : Bool) (y x w : Nat) (color : Nat → Colour) : (s.writeRow b y x w color).cause = s.cause := rfl
@[simp] theorem State.writeRow_fcp (b : Bool) (y x w : Nat) (color : Nat → Colour) : (s.writeRow b y x w color).fcp = s.fcp := rfl
@[simp] theorem State.writeRow_finfo0 (b : Bool) (y x w : Nat) (color : Nat → Colour) : (s.writeRow b y x w color).finfo0 = s.finfo0 := rfl
@[simp] theorem State.writeRow_finfo1 (b : Bool) (y x w : Nat) (color : Nat → Colour) : (s.writeRow b y x w color).finfo1 = s.finfo1 := rfl
@[simp] theorem State.writeRow_cp (b : Bool) (y x w : Nat) (color : Nat → Colour) : (s.writeRow b y x w color).cp = s.cp := rfl
@[simp] theorem State.writeRow_dcLvl (b : Bool) (y x w : Nat) (color : Nat → Colour) : (s.writeRow b y x w color).dcLvl = s.dcLvl := rfl
@[simp] theorem State.writeRow_rstLvl (b : Bool) (y x w : Nat) (color : Nat → Colour) : (s.writeRow b y x w color).rstLvl = s.rstLvl := rfl
@[simp] theorem State.writeRow_blLvl (b : Bool) (y x w : Nat) (color : Nat → Colour) : (s.writeRow b y x w color).blLvl = s.blLvl := rfl
@[simp] theorem State.writeRow_ev (b : Bool) (y x w : Nat) (color : Nat → Colour) : (s.writeRow b y x w color).ev = s.ev := rfl

/-- Drawing changes nothing but the framebuffer. -/
theorem State.paint_eq (b : Bool) (x y w h : Nat) (color : Nat → Nat → Colour) :
    s.paint b x y w h color = { s with fb := (s.paint b x y w h color).fb } := by
  unfold State.paint
  induction h with
  | zero => rfl
  | succ h ih => rw [List.range_succ, List.foldl_append, ih]; rfl

@[simp] theorem State.paint_cfg (b : Bool) (x y w h : Nat) (color : Nat → Nat → Colour) :
    (s.paint b x y w h color).cfg = s.cfg := by rw [State.paint_eq]
@[simp] theorem State.paint_stream (b : Bool) (x y w h : Nat) (color : Nat → Nat → Colour) :
    (s.paint b x y w h color).stream = s.stream := by rw [State.paint_eq]
@[simp] theorem State.paint_answers (b : Bool) (x y w h : Nat) (color : Nat → Nat → Colour) :
    (s.paint b x y w h color).answers = s.answers := by rw [State.paint_eq]
@[simp] theorem State.paint_draws (b : Bool) (x y w h : Nat) (color : Nat → Nat → Colour) :
    (s.paint b x y w h color).draws = s.draws := by rw [State.paint_eq]
@[simp] theorem State.paint_epoch (b : Bool) (x y w h : Nat) (color : Nat → Nat → Colour) :
    (s.paint b x y w h color).epoch = s.epoch := by rw [State.paint_eq]
@[simp] theorem State.paint_active (b : Bool) (x y w h : Nat) (color : Nat → Nat → Colour) :
    (s.paint b x y w h color).active = s.active := by rw [State.paint_eq]
@[simp] theorem State.paint_curFg (b : Bool) (x y w h : Nat) (color : Nat → Nat → Colour) :
    (s.paint b x y w h color).curFg = s.curFg := by rw [State.paint_eq]
@[simp] theorem State.paint_curBg (b : Bool) (x y w h : Nat) (color : Nat → Nat → Colour) :
    (s.paint b x y w h color).curBg = s.curBg := by rw [State.paint_eq]
@[simp] theorem State.paint_cstate (b : Bool) (x y w h : Nat) (color : Nat → Nat → Colour) :
    (s.paint b x y w h color).cstate = s.cstate := by rw [State.paint_eq]
@[simp] theorem State.paint_cause (b : Bool) (x y w h : Nat) (color : Nat → Nat → Colour) :
    (s.paint b x y w h color).cause = s.cause := by rw [State.paint_eq]
@[simp] theorem State.paint_fcp (b : Bool) (x y w h : Nat) (color : Nat → Nat → Colour) :
    (s.paint b x y w h color).fcp = s.fcp := by rw [State.paint_eq]
@[simp] theorem State.paint_finfo0 (b : Bool) (x y w h : Nat) (color : Nat → Nat → Colour) :
    (s.paint b x y w h color).finfo0 = s.finfo0 := by rw [State.paint_eq]
@[simp] theorem State.paint_finfo1 (b : Bool) (x y w h : Nat) (color : Nat → Nat → Colour) :
    (s.paint b x y w h color).finfo1 = s.finfo1 := by rw [State.paint_eq]
@[simp] theorem State.paint_cp (b : Bool) (x y w h : Nat) (color : Nat → Nat → Colour) :
    (s.paint b x y w h color).cp = s.cp := by rw [State.paint_eq]
@[simp] theorem State.paint_dcLvl (b : Bool) (x y w h : Nat) (color : Nat → Nat → Colour) :
    (s.paint b x y w h color).dcLvl = s.dcLvl := by rw [State.paint_eq]
@[simp] theorem State.paint_rstLvl (b : Bool) (x y w h : Nat) (color : Nat → Nat → Colour) :
    (s.paint b x y w h color).rstLvl = s.rstLvl := by rw [State.paint_eq]
@[simp] theorem State.paint_blLvl (b : Bool) (x y w h : Nat) (color : Nat → Nat → Colour) :
    (s.paint b x y w h color).blLvl = s.blLvl := by rw [State.paint_eq]
@[simp] theorem State.paint_ev (b : Bool) (x y w h : Nat) (color : Nat → Nat → Colour) :
    (s.paint b x y w h color).ev = s.ev := by rw [State.paint_eq]

/-! ### The drawing steps and the latches -/

@[simp] theorem clearActive_cfg (c : Colour) : (clearActive c s).cfg = s.cfg := by simp [clearActive]
@[simp] theorem clearActive_stream (c : Colour) : (clearActive c s).stream = s.stream := by simp [clearActive]
@[simp] theorem clearActive_answers (c : Colour) : (clearActive c s).answers = s.answers := by simp [clearActive]
@[simp] theorem clearActive_draws (c : Colour) : (clearActive c s).draws = s.draws := by simp [clearActive]
@[simp] theorem clearActive_epoch (c : Colour) : (clearActive c s).epoch = s.epoch := by simp [clearActive]
@[simp] theorem clearActive_active (c : Colour) : (clearActive c s).active = s.active := by simp [clearActive]
@[simp] theorem clearActive_curFg (c : Colour) : (clearActive c s).curFg = s.curFg := by simp [clearActive]
@[simp] theorem clearActive_curBg (c : Colour) : (clearActive c s).curBg = s.curBg := by simp [clearActive]
@[simp] theorem clearActive_cstate (c : Colour) : (clearActive c s).cstate = s.cstate := by simp [clearActive]
@[simp] theorem clearActive_cause (c : Colour) : (clearActive c s).cause = s.cause := by simp [clearActive]
@[simp] theorem clearActive_fcp (c : Colour) : (clearActive c s).fcp = s.fcp := by simp [clearActive]
@[simp] theorem clearActive_finfo0 (c : Colour) : (clearActive c s).finfo0 = s.finfo0 := by simp [clearActive]
@[simp] theorem clearActive_finfo1 (c : Colour) : (clearActive c s).finfo1 = s.finfo1 := by simp [clearActive]
@[simp] theorem clearActive_cp (c : Colour) : (clearActive c s).cp = s.cp := by simp [clearActive]
@[simp] theorem clearActive_dcLvl (c : Colour) : (clearActive c s).dcLvl = s.dcLvl := by simp [clearActive]
@[simp] theorem clearActive_rstLvl (c : Colour) : (clearActive c s).rstLvl = s.rstLvl := by simp [clearActive]
@[simp] theorem clearActive_blLvl (c : Colour) : (clearActive c s).blLvl = s.blLvl := by simp [clearActive]
@[simp] theorem clearActive_ev (c : Colour) : (clearActive c s).ev = s.ev := by simp [clearActive]
@[simp] theorem setPixel_cfg (x y : Nat) (c : Colour) : (setPixel x y c s).cfg = s.cfg := by simp [setPixel]
@[simp] theorem setPixel_stream (x y : Nat) (c : Colour) : (setPixel x y c s).stream = s.stream := by simp [setPixel]
@[simp] theorem setPixel_answers (x y : Nat) (c : Colour) : (setPixel x y c s).answers = s.answers := by simp [setPixel]
@[simp] theorem setPixel_draws (x y : Nat) (c : Colour) : (setPixel x y c s).draws = s.draws := by simp [setPixel]
@[simp] theorem setPixel_epoch (x y : Nat) (c : Colour) : (setPixel x y c s).epoch = s.epoch := by simp [setPixel]
@[simp] theorem setPixel_active (x y : Nat) (c : Colour) : (setPixel x y c s).active = s.active := by simp [setPixel]
@[simp] theorem setPixel_curFg (x y : Nat) (c : Colour) : (setPixel x y c s).curFg = s.curFg := by simp [setPixel]
@[simp] theorem setPixel_curBg (x y : Nat) (c : Colour) : (setPixel x y c s).curBg = s.curBg := by simp [setPixel]
@[simp] theorem setPixel_cstate (x y : Nat) (c : Colour) : (setPixel x y c s).cstate = s.cstate := by simp [setPixel]
@[simp] theorem setPixel_cause (x y : Nat) (c : Colour) : (setPixel x y c s).cause = s.cause := by simp [setPixel]
@[simp] theorem setPixel_fcp (x y : Nat) (c : Colour) : (setPixel x y c s).fcp = s.fcp := by simp [setPixel]
@[simp] theorem setPixel_finfo0 (x y : Nat) (c : Colour) : (setPixel x y c s).finfo0 = s.finfo0 := by simp [setPixel]
@[simp] theorem setPixel_finfo1 (x y : Nat) (c : Colour) : (setPixel x y c s).finfo1 = s.finfo1 := by simp [setPixel]
@[simp] theorem setPixel_cp (x y : Nat) (c : Colour) : (setPixel x y c s).cp = s.cp := by simp [setPixel]
@[simp] theorem setPixel_dcLvl (x y : Nat) (c : Colour) : (setPixel x y c s).dcLvl = s.dcLvl := by simp [setPixel]
@[simp] theorem setPixel_rstLvl (x y : Nat) (c : Colour) : (setPixel x y c s).rstLvl = s.rstLvl := by simp [setPixel]
@[simp] theorem setPixel_blLvl (x y : Nat) (c : Colour) : (setPixel x y c s).blLvl = s.blLvl := by simp [setPixel]
@[simp] theorem setPixel_ev (x y : Nat) (c : Colour) : (setPixel x y c s).ev = s.ev := by simp [setPixel]
@[simp] theorem fillRect_cfg (x1 y1 x2 y2 : Nat) : (fillRect x1 y1 x2 y2 s).cfg = s.cfg := by simp [fillRect]
@[simp] theorem fillRect_stream (x1 y1 x2 y2 : Nat) : (fillRect x1 y1 x2 y2 s).stream = s.stream := by simp [fillRect]
@[simp] theorem fillRect_answers (x1 y1 x2 y2 : Nat) : (fillRect x1 y1 x2 y2 s).answers = s.answers := by simp [fillRect]
@[simp] theorem fillRect_draws (x1 y1 x2 y2 : Nat) : (fillRect x1 y1 x2 y2 s).draws = s.draws := by simp [fillRect]
@[simp] theorem fillRect_epoch (x1 y1 x2 y2 : Nat) : (fillRect x1 y1 x2 y2 s).epoch = s.epoch := by simp [fillRect]
@[simp] theorem fillRect_active (x1 y1 x2 y2 : Nat) : (fillRect x1 y1 x2 y2 s).active = s.active := by simp [fillRect]
@[simp] theorem fillRect_curFg (x1 y1 x2 y2 : Nat) : (fillRect x1 y1 x2 y2 s).curFg = s.curFg := by simp [fillRect]
@[simp] theorem fillRect_curBg (x1 y1 x2 y2 : Nat) : (fillRect x1 y1 x2 y2 s).curBg = s.curBg := by simp [fillRect]
@[simp] theorem fillRect_cstate (x1 y1 x2 y2 : Nat) : (fillRect x1 y1 x2 y2 s).cstate = s.cstate := by simp [fillRect]
@[simp] theorem fillRect_cause (x1 y1 x2 y2 : Nat) : (fillRect x1 y1 x2 y2 s).cause = s.cause := by simp [fillRect]
@[simp] theorem fillRect_fcp (x1 y1 x2 y2 : Nat) : (fillRect x1 y1 x2 y2 s).fcp = s.fcp := by simp [fillRect]
@[simp] theorem fillRect_finfo0 (x1 y1 x2 y2 : Nat) : (fillRect x1 y1 x2 y2 s).finfo0 = s.finfo0 := by simp [fillRect]
@[simp] theorem fillRect_finfo1 (x1 y1 x2 y2 : Nat) : (fillRect x1 y1 x2 y2 s).finfo1 = s.finfo1 := by simp [fillRect]
@[simp] theorem fillRect_cp (x1 y1 x2 y2 : Nat) : (fillRect x1 y1 x2 y2 s).cp = s.cp := by simp [fillRect]
@[simp] theorem fillRect_dcLvl (x1 y1 x2 y2 : Nat) : (fillRect x1 y1 x2 y2 s).dcLvl = s.dcLvl := by simp [fillRect]
@[simp] theorem fillRect_rstLvl (x1 y1 x2 y2 : Nat) : (fillRect x1 y1 x2 y2 s).rstLvl = s.rstLvl := by simp [fillRect]
@[simp] theorem fillRect_blLvl (x1 y1 x2 y2 : Nat) : (fillRect x1 y1 x2 y2 s).blLvl = s.blLvl := by simp [fillRect]
@[simp] theorem fillRect_ev (x1 y1 x2 y2 : Nat) : (fillRect x1 y1 x2 y2 s).ev = s.ev := by simp [fillRect]
@[simp] theorem renderGlyph_cfg (i x y : Nat) (fg bg : Colour) : (renderGlyph i x y fg bg s).cfg = s.cfg := by simp [renderGlyph]
@[simp] theorem renderGlyph_stream (i x y : Nat) (fg bg : Colour) : (renderGlyph i x y fg bg s).stream = s.stream := by simp [renderGlyph]
@[simp] theorem renderGlyph_answers (i x y : Nat) (fg bg : Colour) : (renderGlyph i x y fg bg s).answers = s.answers := by simp [renderGlyph]
@[simp] theorem renderGlyph_draws (i x y : Nat) (fg bg : Colour) : (renderGlyph i x y fg bg s).draws = s.draws := by simp [renderGlyph]
@[simp] theorem renderGlyph_epoch (i x y : Nat) (fg bg : Colour) : (renderGlyph i x y fg bg s).epoch = s.epoch := by simp [renderGlyph]
@[simp] theorem renderGlyph_active (i x y : Nat) (fg bg : Colour) : (renderGlyph i x y fg bg s).active = s.active := by simp [renderGlyph]
@[simp] theorem renderGlyph_curFg (i x y : Nat) (fg bg : Colour) : (renderGlyph i x y fg bg s).curFg = s.curFg := by simp [renderGlyph]
@[simp] theorem renderGlyph_curBg (i x y : Nat) (fg bg : Colour) : (renderGlyph i x y fg bg s).curBg = s.curBg := by simp [renderGlyph]
@[simp] theorem renderGlyph_cstate (i x y : Nat) (fg bg : Colour) : (renderGlyph i x y fg bg s).cstate = s.cstate := by simp [renderGlyph]
@[simp] theorem renderGlyph_cause (i x y : Nat) (fg bg : Colour) : (renderGlyph i x y fg bg s).cause = s.cause := by simp [renderGlyph]
@[simp] theorem renderGlyph_fcp (i x y : Nat) (fg bg : Colour) : (renderGlyph i x y fg bg s).fcp = s.fcp := by simp [renderGlyph]
@[simp] theorem renderGlyph_finfo0 (i x y : Nat) (fg bg : Colour) : (renderGlyph i x y fg bg s).finfo0 = s.finfo0 := by simp [renderGlyph]
@[simp] theorem renderGlyph_finfo1 (i x y : Nat) (fg bg : Colour) : (renderGlyph i x y fg bg s).finfo1 = s.finfo1 := by simp [renderGlyph]
@[simp] theorem renderGlyph_cp (i x y : Nat) (fg bg : Colour) : (renderGlyph i x y fg bg s).cp = s.cp := by simp [renderGlyph]
@[simp] theorem renderGlyph_dcLvl (i x y : Nat) (fg bg : Colour) : (renderGlyph i x y fg bg s).dcLvl = s.dcLvl := by simp [renderGlyph]
@[simp] theorem renderGlyph_rstLvl (i x y : Nat) (fg bg : Colour) : (renderGlyph i x y fg bg s).rstLvl = s.rstLvl := by simp [renderGlyph]
@[simp] theorem renderGlyph_blLvl (i x y : Nat) (fg bg : Colour) : (renderGlyph i x y fg bg s).blLvl = s.blLvl := by simp [renderGlyph]
@[simp] theorem renderGlyph_ev (i x y : Nat) (fg bg : Colour) : (renderGlyph i x y fg bg s).ev = s.ev := by simp [renderGlyph]
@[simp] theorem blitLogo_cfg (img : LogoBitmap) : (blitLogo img s).cfg = s.cfg := by simp [blitLogo]
@[simp] theorem blitLogo_stream (img : LogoBitmap) : (blitLogo img s).stream = s.stream := by simp [blitLogo]
@[simp] theorem blitLogo_answers (img : LogoBitmap) : (blitLogo img s).answers = s.answers := by simp [blitLogo]
@[simp] theorem blitLogo_draws (img : LogoBitmap) : (blitLogo img s).draws = s.draws := by simp [blitLogo]
@[simp] theorem blitLogo_epoch (img : LogoBitmap) : (blitLogo img s).epoch = s.epoch := by simp [blitLogo]
@[simp] theorem blitLogo_active (img : LogoBitmap) : (blitLogo img s).active = s.active := by simp [blitLogo]
@[simp] theorem blitLogo_curFg (img : LogoBitmap) : (blitLogo img s).curFg = s.curFg := by simp [blitLogo]
@[simp] theorem blitLogo_curBg (img : LogoBitmap) : (blitLogo img s).curBg = s.curBg := by simp [blitLogo]
@[simp] theorem blitLogo_cstate (img : LogoBitmap) : (blitLogo img s).cstate = s.cstate := by simp [blitLogo]
@[simp] theorem blitLogo_cause (img : LogoBitmap) : (blitLogo img s).cause = s.cause := by simp [blitLogo]
@[simp] theorem blitLogo_fcp (img : LogoBitmap) : (blitLogo img s).fcp = s.fcp := by simp [blitLogo]
@[simp] theorem blitLogo_finfo0 (img : LogoBitmap) : (blitLogo img s).finfo0 = s.finfo0 := by simp [blitLogo]
@[simp] theorem blitLogo_finfo1 (img : LogoBitmap) : (blitLogo img s).finfo1 = s.finfo1 := by simp [blitLogo]
@[simp] theorem blitLogo_cp (img : LogoBitmap) : (blitLogo img s).cp = s.cp := by simp [blitLogo]
@[simp] theorem blitLogo_dcLvl (img : LogoBitmap) : (blitLogo img s).dcLvl = s.dcLvl := by simp [blitLogo]
@[simp] theorem blitLogo_rstLvl (img : LogoBitmap) : (blitLogo img s).rstLvl = s.rstLvl := by simp [blitLogo]
@[simp] theorem blitLogo_blLvl (img : LogoBitmap) : (blitLogo img s).blLvl = s.blLvl := by simp [blitLogo]
@[simp] theorem blitLogo_ev (img : LogoBitmap) : (blitLogo img s).ev = s.ev := by simp [blitLogo]
@[simp] theorem latchFg_cfg (c : Colour) : (latchFg c s).cfg = s.cfg := rfl
@[simp] theorem latchFg_stream (c : Colour) : (latchFg c s).stream = s.stream := rfl
@[simp] theorem latchFg_answers (c : Colour) : (latchFg c s).answers = s.answers := rfl
@[simp] theorem latchFg_draws (c : Colour) : (latchFg c s).draws = s.draws := rfl
@[simp] theorem latchFg_epoch (c : Colour) : (latchFg c s).epoch = s.epoch := rfl
@[simp] theorem latchFg_fb (c : Colour) : (latchFg c s).fb = s.fb := rfl
@[simp] theorem latchFg_active (c : Colour) : (latchFg c s).active = s.active := rfl
@[simp] theorem latchFg_curFg (c : Colour) : (latchFg c s).curFg = if s.cfg.colorLatch then c else s.curFg := rfl
@[simp] theorem latchFg_curBg (c : Colour) : (latchFg c s).curBg = s.curBg := rfl
@[simp] theorem latchFg_cstate (c : Colour) : (latchFg c s).cstate = s.cstate := rfl
@[simp] theorem latchFg_cause (c : Colour) : (latchFg c s).cause = s.cause := rfl
@[simp] theorem latchFg_fcp (c : Colour) : (latchFg c s).fcp = s.fcp := rfl
@[simp] theorem latchFg_finfo0 (c : Colour) : (latchFg c s).finfo0 = s.finfo0 := rfl
@[simp] theorem latchFg_finfo1 (c : Colour) : (latchFg c s).finfo1 = s.finfo1 := rfl
@[simp] theorem latchFg_cp (c : Colour) : (latchFg c s).cp = s.cp := rfl
@[simp] theorem latchFg_dcLvl (c : Colour) : (latchFg c s).dcLvl = s.dcLvl := rfl
@[simp] theorem latchFg_rstLvl (c : Colour) : (latchFg c s).rstLvl = s.rstLvl := rfl
@[simp] theorem latchFg_blLvl (c : Colour) : (latchFg c s).blLvl = s.blLvl := rfl
@[simp] theorem latchFg_ev (c : Colour) : (latchFg c s).ev = s.ev := rfl
@[simp] theorem latchColours_cfg (c d : Colour) : (latchColours c d s).cfg = s.cfg := rfl
@[simp] theorem latchColours_stream (c d : Colour) : (latchColours c d s).stream = s.stream := rfl
@[simp] theorem latchColours_answers (c d : Colour) : (latchColours c d s).answers = s.answers := rfl
@[simp] theorem latchColours_draws (c d : Colour) : (latchColours c d s).draws = s.draws := rfl
@[simp] theorem latchColours_epoch (c d : Colour) : (latchColours c d s).epoch = s.epoch := rfl
@[simp] theorem latchColours_fb (c d : Colour) : (latchColours c d s).fb = s.fb := rfl
@[simp] theorem latchColours_active (c d : Colour) : (latchColours c d s).active = s.active := rfl
@[simp] theorem latchColours_curFg (c d : Colour) : (latchColours c d s).curFg = if s.cfg.colorLatch then c else s.curFg := rfl
@[simp] theorem latchColours_curBg (c d : Colour) : (latchColours c d s).curBg = if s.cfg.colorLatch then d else s.curBg := rfl
@[simp] theorem latchColours_cstate (c d : Colour) : (latchColours c d s).cstate = s.cstate := rfl
@[simp] theorem latchColours_cause (c d : Colour) : (latchColours c d s).cause = s.cause := rfl
@[simp] theorem latchColours_fcp (c d : Colour) : (latchColours c d s).fcp = s.fcp := rfl
@[simp] theorem latchColours_finfo0 (c d : Colour) : (latchColours c d s).finfo0 = s.finfo0 := rfl
@[simp] theorem latchColours_finfo1 (c d : Colour) : (latchColours c d s).finfo1 = s.finfo1 := rfl
@[simp] theorem latchColours_cp (c d : Colour) : (latchColours c d s).cp = s.cp := rfl
@[simp] theorem latchColours_dcLvl (c d : Colour) : (latchColours c d s).dcLvl = s.dcLvl := rfl
@[simp] theorem latchColours_rstLvl (c d : Colour) : (latchColours c d s).rstLvl = s.rstLvl := rfl
@[simp] theorem latchColours_blLvl (c d : Colour) : (latchColours c d s).blLvl = s.blLvl := rfl
@[simp] theorem latchColours_ev (c d : Colour) : (latchColours c d s).ev = s.ev := rfl

end Sys2Proof.Machine
end

