-- ==== Sys2Proof/Laws/Memory.lean ====
section
/-! SUPPORT. The framebuffer memory: what a run of writes leaves at every index, that it keeps the
canonical form, and what the drawing loop leaves in every cell. -/

namespace Sys2Proof.Machine

/-! ### Reading a list of cells -/

@[simp] theorem Memory.get?_nil (a : Nat) : Memory.get? [] a = none := rfl

theorem Memory.get?_cons (k : Nat) (v : Colour) (m : Memory) (a : Nat) :
    Memory.get? ((k, v) :: m) a = if k = a then some v else Memory.get? m a := rfl

theorem Memory.get?_append (m n : Memory) (a : Nat) :
    Memory.get? (m ++ n) a = (Memory.get? m a).or (Memory.get? n a) := by
  induction m with
  | nil => rfl
  | cons c m ih =>
    obtain ⟨k, v⟩ := c
    simp only [List.cons_append, Memory.get?_cons, ih]
    split <;> rfl

/-- A filter on indexes keeps what the kept indexes hold and drops the rest. -/
theorem Memory.get?_filter (m : Memory) (p : Nat → Bool) (a : Nat) :
    Memory.get? (m.filter (fun c => p c.1)) a = if p a then Memory.get? m a else none := by
  induction m with
  | nil => simp
  | cons c m ih =>
    obtain ⟨k, v⟩ := c
    by_cases hk : p k <;> by_cases ha : k = a <;> simp_all [Memory.get?_cons]

theorem Memory.get?_run (a n : Nat) (ws : List Colour) (h : ws.length = n) (k : Nat) :
    Memory.get? ((List.range' a n).zip ws) k = if a ≤ k then ws[k - a]? else none := by
  induction ws generalizing a n with
  | nil => subst h; simp
  | cons w ws ih =>
    obtain _ | n := n
    · simp at h
    · rw [List.range'_succ, List.zip_cons_cons, Memory.get?_cons, ih (a + 1) n (by simpa using h)]
      by_cases hk : a = k
      · subst hk; simp
      · by_cases hle : a ≤ k
        · obtain ⟨d, rfl⟩ : ∃ d, k = a + 1 + d := ⟨k - a - 1, by omega⟩
          simp [show a ≠ a + 1 + d by omega, show a + 1 + d - a = d + 1 by omega, hle]
        · simp [hk, hle, show ¬ a + 1 ≤ k by omega]

/-- Everything a run of writes does: its own indexes hold the new words, every other index what it
held. -/
theorem Memory.get?_writeRun (m : Memory) (a : Nat) (ws : List Colour) (k : Nat) :
    (m.writeRun a ws).get? k = if a ≤ k ∧ k < a + ws.length then ws[k - a]? else m.get? k := by
  unfold Memory.writeRun
  rw [Memory.get?_append, Memory.get?_append, Memory.get?_run a _ ws rfl,
    Memory.get?_filter m (fun i => decide (i < a)), Memory.get?_filter m (fun i => decide (a + ws.length ≤ i))]
  by_cases h1 : k < a
  · simp [h1, show ¬ a ≤ k by omega, show ¬ a + ws.length ≤ k by omega]
  · by_cases h2 : k < a + ws.length
    · have hlt : k - a < ws.length := by omega
      simp [h1, h2, show a ≤ k by omega, List.getElem?_eq_getElem hlt]
    · have hge : ws.length ≤ k - a := by omega
      simp [h1, h2, show a + ws.length ≤ k by omega, List.getElem?_eq_none hge]

/-! ### The canonical form -/

theorem Memory.wf_nil : Memory.wf [] := List.Pairwise.nil

theorem Memory.run_indexes (a n : Nat) (ws : List Colour) :
    ∀ c ∈ (List.range' a n).zip ws, a ≤ c.1 ∧ c.1 < a + n := by
  intro c hc
  have := (List.of_mem_zip (a := c.1) (b := c.2) hc).1
  simpa [List.mem_range'_1] using this

theorem Memory.run_wf (a n : Nat) (ws : List Colour) : Memory.wf ((List.range' a n).zip ws) := by
  have h : (List.range' a n).Pairwise (· < ·) := List.pairwise_lt_range'
  induction n generalizing a ws with
  | zero => simp
  | succ n ih =>
    obtain _ | ⟨w, ws⟩ := ws
    · simp
    · rw [List.range'_succ, List.zip_cons_cons]
      rw [List.range'_succ] at h
      refine List.Pairwise.cons ?_ (ih (a + 1) ws h.of_cons)
      intro c hc
      have := (Memory.run_indexes (a + 1) n ws c hc).1
      show a < c.1
      omega

/-- A run of writes keeps the canonical form. -/
theorem Memory.writeRun_wf (m : Memory) (a : Nat) (ws : List Colour) (h : m.wf) : (m.writeRun a ws).wf := by
  unfold Memory.writeRun Memory.wf
  refine List.pairwise_append.2 ⟨h.filter _, ?_, ?_⟩
  · refine List.pairwise_append.2 ⟨Memory.run_wf a _ ws, h.filter _, ?_⟩
    intro c hc d hd
    have h1 := (Memory.run_indexes a ws.length ws c hc).2
    have h2 : a + ws.length ≤ d.1 := by simpa using (List.mem_filter.1 hd).2
    omega
  · intro c hc d hd
    have h1 : c.1 < a := by simpa using (List.mem_filter.1 hc).2
    rcases List.mem_append.1 hd with hd | hd
    · have := (Memory.run_indexes a ws.length ws d hd).1
      omega
    · have : a + ws.length ≤ d.1 := by simpa using (List.mem_filter.1 hd).2
      omega

/-- The indexes a run of writes leaves listed. -/
theorem Memory.mem_writeRun (m : Memory) (a : Nat) (ws : List Colour) (c : Nat × Colour)
    (h : c ∈ m.writeRun a ws) : c ∈ m ∨ (a ≤ c.1 ∧ c.1 < a + ws.length) := by
  unfold Memory.writeRun at h
  rcases List.mem_append.1 h with h | h
  · exact .inl (List.mem_filter.1 h).1
  · rcases List.mem_append.1 h with h | h
    · exact .inr (Memory.run_indexes a ws.length ws c h)
    · exact .inl (List.mem_filter.1 h).1

/-! ### Linear indexes -/

/-- Cells inside the framebuffer have distinct linear indexes (20_memory.md R67). -/
theorem cellIndex_inj {c : Config} {b b' : Bool} {x x' y y' : Nat} (hx : x < c.width) (hx' : x' < c.width)
    (hy : y < c.height) (hy' : y' < c.height) (h : cellIndex c b y x = cellIndex c b' y' x') :
    b = b' ∧ y = y' ∧ x = x' := by
  unfold cellIndex at h
  have hrow : bufferIndex b * c.height + y = bufferIndex b' * c.height + y' := by
    have h1 : ∀ r z, z < c.width → (r * c.width + z) / c.width = r := by
      intro r z hz
      rw [Nat.add_comm, Nat.add_mul_div_right _ _ (by omega), Nat.div_eq_of_lt hz, Nat.zero_add]
    rw [← h1 (bufferIndex b * c.height + y) x hx, h, h1 _ x' hx']
  have hxx : x = x' := by rw [hrow] at h; omega
  refine ⟨?_, ?_, hxx⟩ <;> cases b <;> cases b' <;> simp [bufferIndex] at hrow ⊢ <;> omega

/-- The linear index of a cell inside the framebuffer is inside the readback window. -/
theorem cellIndex_lt {c : Config} {b : Bool} {x y : Nat} (hx : x < c.width) (hy : y < c.height) :
    cellIndex c b y x < cellCount c := by
  unfold cellIndex cellCount
  have h1 : bufferIndex b * c.height + y + 1 ≤ 2 * c.height := by
    cases b <;> simp [bufferIndex] <;> omega
  calc (bufferIndex b * c.height + y) * c.width + x
      < (bufferIndex b * c.height + y) * c.width + c.width := by omega
    _ = (bufferIndex b * c.height + y + 1) * c.width := by rw [Nat.add_mul _ 1, Nat.one_mul]
    _ ≤ (2 * c.height) * c.width := Nat.mul_le_mul_right _ h1
    _ = 2 * c.width * c.height := by rw [Nat.mul_assoc, Nat.mul_assoc, Nat.mul_comm c.height]

/-! ### The drawing loop -/

theorem State.paint_zero (s : State) (b : Bool) (x y w : Nat) (color : Nat → Nat → Colour) :
    s.paint b x y w 0 color = s := by simp [State.paint]

theorem State.paint_succ (s : State) (b : Bool) (x y w h : Nat) (color : Nat → Nat → Colour) :
    s.paint b x y w (h + 1) color =
      (s.paint b x y w h color).writeRow b (y + h) x w (fun col => color col h) := by
  simp [State.paint, List.range_succ]

/-- One row of the loop, at a cell inside the framebuffer. -/
theorem State.writeRow_cell (s : State) (b : Bool) (x y w : Nat) (color : Nat → Colour)
    (hw : x + w ≤ s.cfg.width) (hy : y < s.cfg.height) (b' : Bool) (y' x' : Nat)
    (hx' : x' < s.cfg.width) (hy' : y' < s.cfg.height) :
    (s.writeRow b y x w color).cell b' y' x' =
      if b' = b ∧ y' = y ∧ x ≤ x' ∧ x' < x + w then color (x' - x) else s.cell b' y' x' := by
  have key : (cellIndex s.cfg b y x ≤ cellIndex s.cfg b' y' x' ∧
      cellIndex s.cfg b' y' x' < cellIndex s.cfg b y x + w) ↔ (b' = b ∧ y' = y ∧ x ≤ x' ∧ x' < x + w) := by
    constructor
    · rintro ⟨h1, h2⟩
      obtain ⟨d, hd⟩ : ∃ d, cellIndex s.cfg b' y' x' = cellIndex s.cfg b y x + d := ⟨_, (Nat.add_sub_cancel' h1).symm⟩
      have hdw : d < w := by omega
      have heq : cellIndex s.cfg b' y' x' = cellIndex s.cfg b y (x + d) := by
        rw [hd]; unfold cellIndex; omega
      obtain ⟨hb, hyy, hxx⟩ := cellIndex_inj hx' (by omega) hy' hy heq
      exact ⟨hb, hyy, by omega, by omega⟩
    · rintro ⟨rfl, rfl, h1, h2⟩
      unfold cellIndex
      omega
  unfold State.cell State.cellAt
  simp only [State.writeRow_cfg, State.writeRow_epoch]
  rw [show (s.writeRow b y x w color).fb =
    s.fb.writeRun (cellIndex s.cfg b y x) ((List.range w).map color) from rfl, Memory.get?_writeRun]
  simp only [List.length_map, List.length_range]
  by_cases hc : b' = b ∧ y' = y ∧ x ≤ x' ∧ x' < x + w
  · rw [if_pos (key.2 hc), if_pos hc]
    obtain ⟨rfl, rfl, h1, h2⟩ := hc
    have : cellIndex s.cfg b' y' x' - cellIndex s.cfg b' y' x = x' - x := by unfold cellIndex; omega
    rw [this, List.getElem?_map, List.getElem?_range (by omega)]
    rfl
  · rw [if_neg (fun h => hc (key.1 h)), if_neg hc]

/-- Everything the drawing loop does, at a cell inside the framebuffer: the block holds its colours,
every other cell of either buffer what it held. -/
theorem State.paint_cell (s : State) (b : Bool) (x y w h : Nat) (color : Nat → Nat → Colour)
    (hw : x + w ≤ s.cfg.width) (hh : y + h ≤ s.cfg.height) (b' : Bool) (y' x' : Nat)
    (hx' : x' < s.cfg.width) (hy' : y' < s.cfg.height) :
    (s.paint b x y w h color).cell b' y' x' =
      if b' = b ∧ (x ≤ x' ∧ x' < x + w) ∧ (y ≤ y' ∧ y' < y + h) then color (x' - x) (y' - y)
      else s.cell b' y' x' := by
  induction h with
  | zero => rw [if_neg (by omega), State.paint_zero]
  | succ h ih =>
    rw [State.paint_succ, State.writeRow_cell _ _ _ _ _ _ (by simpa using hw) (by simp; omega) _ _ _
      (by simpa using hx') (by simpa using hy'), ih (by omega)]
    by_cases hb : b' = b
    · by_cases hx : x ≤ x' ∧ x' < x + w
      · by_cases hrow : y' = y + h
        · subst hrow
          simp [hb, hx]
        · by_cases hy : y ≤ y' ∧ y' < y + h
          · rw [if_neg (by tauto), if_pos ⟨hb, hx, hy⟩, if_pos ⟨hb, hx, by omega⟩]
          · rw [if_neg (by tauto), if_neg (by tauto), if_neg (by omega)]
      · rw [if_neg (by tauto), if_neg (by tauto), if_neg (by tauto)]
    · rw [if_neg (by tauto), if_neg (by tauto), if_neg (by tauto)]

/-- The drawing loop keeps the canonical form. -/
theorem State.paint_wf (s : State) (b : Bool) (x y w h : Nat) (color : Nat → Nat → Colour) (hs : s.fb.wf) :
    (s.paint b x y w h color).fb.wf := by
  induction h with
  | zero => rw [State.paint_zero]; exact hs
  | succ h ih => rw [State.paint_succ]; exact Memory.writeRun_wf _ _ _ ih

/-- Inside the framebuffer, the drawing loop lists only indexes inside the readback window. -/
theorem State.paint_indexes (s : State) (b : Bool) (x y w h : Nat) (color : Nat → Nat → Colour)
    (hw : x + w ≤ s.cfg.width) (hh : y + h ≤ s.cfg.height)
    (hs : ∀ c ∈ s.fb, c.1 < cellCount s.cfg) :
    ∀ c ∈ (s.paint b x y w h color).fb, c.1 < cellCount s.cfg := by
  induction h with
  | zero => rw [State.paint_zero]; exact hs
  | succ h ih =>
    intro c hc
    rw [State.paint_succ] at hc
    rcases Memory.mem_writeRun _ _ _ c hc with hc | ⟨h1, h2⟩
    · exact ih (by omega) c hc
    · simp only [State.paint_cfg, List.length_map, List.length_range] at h1 h2
      have hlt := cellIndex_lt (c := s.cfg) (b := b) (x := x + (c.1 - cellIndex s.cfg b (y + h) x))
        (y := y + h) (by omega) (by omega)
      unfold cellIndex at hlt h1 h2
      omega

end Sys2Proof.Machine
end

