-- ==== Sys2Proof/Laws/Flow.lean ====
section
/-! SUPPORT. The order of a command's actions: how actions chain, when a command answers a next state,
and what a check does. -/

namespace Sys2Proof.Machine

@[simp] theorem Flow.going_andThen (s : State) (k : State → Flow) : (Flow.going s).andThen k = k s := rfl

@[simp] theorem Flow.ended_andThen (s : State) (k : State → Flow) : (Flow.ended s).andThen k = .ended s := rfl

@[simp] theorem Flow.finish_going (s : State) (n : Nat) : (Flow.going s).finish n = s.advance n := rfl

@[simp] theorem Flow.finish_ended (s : State) (n : Nat) : (Flow.ended s).finish n = s := rfl

theorem require_true (c : Cause) (k : State → Flow) (s : State) : require true c k s = k s := rfl

theorem require_false (c : Cause) (k : State → Flow) (s : State) :
    require false c k s = .ended (s.raiseFault c 0#32) := rfl

theorem requireReady_ready {s : State} (h : s.cstate = .ready) (k : State → Flow) :
    requireReady k s = k s := by simp [requireReady, require, h]

theorem requireReady_not {s : State} (h : s.cstate ≠ .ready) (k : State → Flow) :
    requireReady k s = .ended (s.raiseFault .notInit 0#32) := by simp [requireReady, require, raise, h]

theorem runCommand_halted {s : State} (h : s.cstate = .halted) (n : Nat) (f : State → Flow) :
    runCommand n f s = .fault (.halted s.cause) := by simp [runCommand, h]

theorem runCommand_next {s : State} (h : s.cstate ≠ .halted) (n : Nat) (f : State → Flow) :
    runCommand n f s = .next ((f s).finish n) := by simp [runCommand, h]

/-- Everything a command that answers a next state tells: it was not halted, and the state is what its
actions leave. -/
theorem runCommand_inv {s t : State} {n : Nat} {f : State → Flow} (h : runCommand n f s = .next t) :
    s.cstate ≠ .halted ∧ t = (f s).finish n := by
  unfold runCommand at h
  split at h
  · cases h
  · exact ⟨‹_›, by injection h with h; exact h.symm⟩

/-- The command a step runs, its actions as one flow and its length in words (00_scope.md R9). -/
def actionsOf (i : Instr) (s : State) : Flow :=
  match i with
  | .init => require (decide (s.cstate ≠ .ready)) .reinit (fun s =>
      (softwareReset (resetPulse (backlightBlink (pinsConfigure s)))).andThen fun s =>
      (registerScript s).andThen fun s =>
      (onBody (initialClear s)).andThen fun s =>
      .going { s with cstate := .ready }) s
  | .on => requireReady onBody s
  | .off => requireReady (fun s => sendCmd s.cfg.opcDispoff s) s
  | .bkl _ => requireReady .going s
  | .clear imm bgc => requireReady (fun s => immediateFlip imm (clearActive bgc s)) s
  | .setpxc x y col => requireReady (fun s =>
      require (inPixel s.cfg x y) .bounds (fun s => .going (latchFg col (setPixel x y col s))) s) s
  | .setpx x y => requireReady (fun s =>
      require (inPixel s.cfg x y) .bounds (fun s => .going (setPixel x y s.curFg s)) s) s
  | .clrpx x y => requireReady (fun s =>
      require (inPixel s.cfg x y) .bounds (fun s => .going (setPixel x y s.curBg s)) s) s
  | .frect imm x1 y1 x2 y2 => requireReady (fun s =>
      require (inRect s.cfg x1 y1 x2 y2) .bounds
        (fun s => immediateFlip imm (fillRect x1 y1 x2 y2 s)) s) s
  | .dchrc _ _ ch x y fg bg => requireReady (fun s =>
      require (inFont s.cfg ch) .glyphRange (fun s =>
        require (inGlyph s.cfg x y) .bounds
          (fun s => .going (latchColours fg bg (renderGlyph (glyphIndex ch) x y fg bg s))) s) s) s
  | .dchr _ _ ch x y => requireReady (fun s =>
      require (inFont s.cfg ch) .glyphRange (fun s =>
        require (inGlyph s.cfg x y) .bounds
          (fun s => .going (renderGlyph (glyphIndex ch) x y s.curFg s.curBg s)) s) s) s
  | .dimg imm sel => requireReady (fun s =>
      match logoOf s.cfg sel with
      | none => .going s
      | some img =>
        require (inImage s.cfg) .bounds (fun s => immediateFlip imm (blitLogo img s)) s) s
  | .setwin x0 y0 x1 y1 => requireReady (fun s =>
      require (inWindow s.cfg x0 y0 x1 y1) .bounds (windowSeq x0 y0 x1 y1) s) s
  | .flip => requireReady flipBody s

/-- Every command is its actions, run as a command of its length in words. -/
theorem exec_eq (i : Instr) (s : State) :
    exec i s = runCommand (1 + i.mnemonic.argWords) (actionsOf i) s := by
  cases i <;> rfl

end Sys2Proof.Machine
end

