-- ==== Sys2Proof/Laws/Bus.lean ====
section
/-! SUPPORT. What an action that talks to the outside does, said once: it emits a known list of events;
if the bus answers every write among them in full it goes on with exactly those events logged, and
otherwise it ends at the first write answered otherwise. Every transmitting action has its lemma, and
callers cite it instead of unfolding. -/

namespace Sys2Proof.Machine

/-! ### Levels and write lengths along a list of events -/

theorem levelAfter_append (p : Option Pin) (l : PinLevel) (es fs : List Event) :
    levelAfter p l (es ++ fs) = levelAfter p (levelAfter p l es) fs := by
  induction es generalizing l with
  | nil => rfl
  | cons e es ih =>
    cases e with
    | pin q lvl => cases lvl <;> exact ih _
    | _ => exact ih _

theorem levelAfter_pin (p : Option Pin) (l : PinLevel) (q : Pin) (lvl : Level) (es : List Event) :
    levelAfter p l (.pin q lvl :: es) = levelAfter p (if p = some q then .ofLevel lvl else l) es := by
  cases lvl <;> rfl

theorem levelAfter_none (l : PinLevel) (es : List Event) : levelAfter none l es = l := by
  induction es generalizing l with
  | nil => rfl
  | cons e es ih =>
    cases e with
    | pin q lvl => rw [levelAfter_pin]; exact ih _
    | _ => exact ih _

theorem writeLengths_append (es fs : List Event) :
    writeLengths (es ++ fs) = writeLengths es ++ writeLengths fs := by
  induction es with
  | nil => rfl
  | cons e es ih => cases e <;> simp [writeLengths, ih]

/-- Emitting a list of events appends it and sets the levels it drives. -/
theorem State.emitAll_eq (s : State) (es : List Event) :
    s.emitAll es =
      { s with
        ev := s.ev ++ es
        dcLvl := levelAfter s.cfg.dcPin s.dcLvl es
        rstLvl := levelAfter s.cfg.rstPin s.rstLvl es
        blLvl := levelAfter s.cfg.blPin s.blLvl es } := by
  induction es generalizing s with
  | nil => simp [levelAfter]
  | cons e es ih =>
    rw [State.emitAll_cons, ih]
    cases e with
    | pin q lvl => simp [State.emit, levelAfter_pin]
    | _ => simp [State.emit, levelAfter]

/-! ### `afterBus` -/

theorem State.afterBus_nil (s : State) : s.afterBus [] = s := by
  simp [State.afterBus, levelAfter, writeLengths]

theorem State.afterBus_append (s : State) (es fs : List Event) :
    s.afterBus (es ++ fs) = (s.afterBus es).afterBus fs := by
  simp [State.afterBus, levelAfter_append, writeLengths_append, Nat.add_assoc]

theorem State.afterBus_of_noWrite (s : State) (es : List Event) (h : writeLengths es = []) :
    s.afterBus es = s.emitAll es := by
  rw [State.emitAll_eq]; simp [State.afterBus, h]

@[simp] theorem State.afterBus_cfg (s : State) (es : List Event) : (s.afterBus es).cfg = s.cfg := rfl
@[simp] theorem State.afterBus_stream (s : State) (es : List Event) : (s.afterBus es).stream = s.stream := rfl
@[simp] theorem State.afterBus_epoch (s : State) (es : List Event) : (s.afterBus es).epoch = s.epoch := rfl
@[simp] theorem State.afterBus_fb (s : State) (es : List Event) : (s.afterBus es).fb = s.fb := rfl
@[simp] theorem State.afterBus_active (s : State) (es : List Event) : (s.afterBus es).active = s.active := rfl
@[simp] theorem State.afterBus_curFg (s : State) (es : List Event) : (s.afterBus es).curFg = s.curFg := rfl
@[simp] theorem State.afterBus_curBg (s : State) (es : List Event) : (s.afterBus es).curBg = s.curBg := rfl
@[simp] theorem State.afterBus_cstate (s : State) (es : List Event) : (s.afterBus es).cstate = s.cstate := rfl
@[simp] theorem State.afterBus_cause (s : State) (es : List Event) : (s.afterBus es).cause = s.cause := rfl
@[simp] theorem State.afterBus_fcp (s : State) (es : List Event) : (s.afterBus es).fcp = s.fcp := rfl
@[simp] theorem State.afterBus_finfo0 (s : State) (es : List Event) : (s.afterBus es).finfo0 = s.finfo0 := rfl
@[simp] theorem State.afterBus_finfo1 (s : State) (es : List Event) : (s.afterBus es).finfo1 = s.finfo1 := rfl
@[simp] theorem State.afterBus_cp (s : State) (es : List Event) : (s.afterBus es).cp = s.cp := rfl
@[simp] theorem State.afterBus_ev (s : State) (es : List Event) : (s.afterBus es).ev = s.ev ++ es := rfl
@[simp] theorem State.afterBus_dcLvl (s : State) (es : List Event) :
    (s.afterBus es).dcLvl = levelAfter s.cfg.dcPin s.dcLvl es := rfl
@[simp] theorem State.afterBus_rstLvl (s : State) (es : List Event) :
    (s.afterBus es).rstLvl = levelAfter s.cfg.rstPin s.rstLvl es := rfl
@[simp] theorem State.afterBus_blLvl (s : State) (es : List Event) :
    (s.afterBus es).blLvl = levelAfter s.cfg.blPin s.blLvl es := rfl
@[simp] theorem State.afterBus_answers (s : State) (es : List Event) :
    (s.afterBus es).answers = s.answers.drop (writeLengths es).length := rfl
@[simp] theorem State.afterBus_draws (s : State) (es : List Event) :
    (s.afterBus es).draws = s.draws + (writeLengths es).length := rfl
@[simp] theorem State.afterBus_headWord (s : State) (es : List Event) : (s.afterBus es).headWord = s.headWord := rfl
@[simp] theorem State.afterBus_cell (s : State) (es : List Event) (b : Bool) (y x : Nat) :
    (s.afterBus es).cell b y x = s.cell b y x := rfl

/-- The answers left after events are the answers further on. -/
theorem State.afterBus_answerAt (s : State) (es : List Event) (k : Nat) :
    (s.afterBus es).answerAt k = s.answerAt ((writeLengths es).length + k) := by
  simp only [State.answerAt, State.afterBus, List.getElem?_drop, Nat.add_assoc]

/-! ### Full answers -/

theorem answersInFull_nil (s : State) : s.answersInFull [] := by simp [State.answersInFull]

theorem answersInFull_append (s : State) (es fs : List Event) :
    s.answersInFull (writeLengths (es ++ fs)) ↔
      s.answersInFull (writeLengths es) ∧ (s.afterBus es).answersInFull (writeLengths fs) := by
  simp only [State.answersInFull, writeLengths_append, List.length_append, State.afterBus_answerAt]
  constructor
  · intro h
    refine ⟨fun k hk => ?_, fun k hk => ?_⟩
    · rw [h k (by omega), List.getD_append _ _ _ _ hk]
    · rw [h _ (by omega), List.getD_append_right _ _ _ _ (by omega), Nat.add_sub_cancel_left]
  · rintro ⟨h1, h2⟩ k hk
    by_cases hlt : k < (writeLengths es).length
    · rw [h1 k hlt, List.getD_append _ _ _ _ hlt]
    · have := h2 (k - (writeLengths es).length) (by omega)
      rw [Nat.add_sub_cancel' (by omega)] at this
      rw [this, List.getD_append_right _ _ _ _ (by omega)]

/-! ### Actions that emit a known list of events -/

/-- The fault action leaves the record of a fault at the head word. -/
theorem State.raiseFault_eq (s : State) (c : Cause) (aux : Word) :
    s.raiseFault c aux = s.faulted s.headWord c aux := rfl

/-- From `s`, the flow `f` emits the events `es`, or stops among them. -/
structure Emits (s : State) (f : Flow) (es : List Event) : Prop where
  full : s.answersInFull (writeLengths es) → f = .going (s.afterBus es)
  short : ¬ s.answersInFull (writeLengths es) → ∃ u, f = .ended u ∧ StopsIn s es u

theorem StopsIn.append_right {s u : State} {es : List Event} (fs : List Event) (h : StopsIn s es u) :
    StopsIn s (es ++ fs) u := by
  obtain ⟨pre, bytes, post, rfl, h1, h2, h3⟩ := h
  exact ⟨pre, bytes, post ++ fs, by simp, h1, h2, h3⟩

theorem StopsIn.append_left {s u : State} {es fs : List Event} (hfull : s.answersInFull (writeLengths es))
    (h : StopsIn (s.afterBus es) fs u) : StopsIn s (es ++ fs) u := by
  obtain ⟨pre, bytes, post, rfl, h1, h2, h3⟩ := h
  refine ⟨es ++ pre, bytes, post, by simp, (answersInFull_append s es pre).2 ⟨hfull, h1⟩, ?_, ?_⟩
  · rw [writeLengths_append, List.length_append, ← State.afterBus_answerAt]; exact h2
  · rw [h3, writeLengths_append, List.length_append, ← State.afterBus_answerAt, List.append_assoc,
      State.afterBus_append s es, State.afterBus_cfg, State.afterBus_headWord]

/-- Two actions in a row emit the two lists in a row. -/
theorem Emits.andThen {f : Flow} {k : State → Flow} {es fs : List Event} {s : State}
    (h1 : Emits s f es) (h2 : Emits (s.afterBus es) (k (s.afterBus es)) fs) :
    Emits s (f.andThen k) (es ++ fs) := by
  constructor
  · intro h
    obtain ⟨ha, hb⟩ := (answersInFull_append s es fs).1 h
    rw [h1.full ha, Flow.going_andThen, h2.full hb, State.afterBus_append]
  · intro h
    by_cases ha : s.answersInFull (writeLengths es)
    · have hb : ¬ (s.afterBus es).answersInFull (writeLengths fs) :=
        fun hb => h ((answersInFull_append s es fs).2 ⟨ha, hb⟩)
      obtain ⟨u, hu, hs⟩ := h2.short hb
      exact ⟨u, by rw [h1.full ha, Flow.going_andThen, hu], hs.append_left ha⟩
    · obtain ⟨u, hu, hs⟩ := h1.short ha
      exact ⟨u, by rw [hu, Flow.ended_andThen], hs.append_right fs⟩

theorem Emits.going (s : State) : Emits s (.going s) [] :=
  ⟨fun _ => by rw [State.afterBus_nil], fun h => absurd (answersInFull_nil s) h⟩

/-- Events without a write need no answer. -/
theorem Emits.ofEvents (s : State) (es : List Event) (h : writeLengths es = []) :
    Emits s (.going (s.emitAll es)) es :=
  ⟨fun _ => by rw [State.afterBus_of_noWrite _ _ h],
   fun hn => absurd (by rw [h]; exact answersInFull_nil s) hn⟩

theorem delay_emits (ms : Word) (s : State) : Emits s (delay ms s) [.delay ms] :=
  Emits.ofEvents s [.delay ms] rfl

theorem nextAnswer_eq (s : State) : s.nextAnswer = s.answerAt 0 := by
  obtain h | ⟨a, as, h⟩ : s.answers = [] ∨ ∃ a as, s.answers = a :: as := by
    cases s.answers <;> simp
  all_goals simp [State.nextAnswer, State.answerAt, h]

/-- The transaction primitive emits its events (44_transmit.md R190). -/
theorem tx_emits_txEvents (s : State) (dc : Level) (bytes : List Byte) :
    Emits s (tx dc bytes s) (txEvents s.cfg dc bytes) := by
  have hw : writeLengths (txEvents s.cfg dc bytes) = [bytes.length] := by
    unfold txEvents drivePin; cases s.cfg.dcPin <;> rfl
  have hpre : writeLengths (drivePin s.cfg.dcPin dc ++ [.clk s.cfg.clkHz, .mode s.cfg.cpol s.cfg.cpha]) = [] := by
    unfold drivePin; cases s.cfg.dcPin <;> rfl
  have hsent : (s.emitAll (txEvents s.cfg dc bytes)).takeAnswer = s.afterBus (txEvents s.cfg dc bytes) := by
    rw [State.emitAll_eq]; simp [State.takeAnswer, State.afterBus, hw]
  have hstop : ∀ a : BusAnswer, s.answerAt 0 = a → a ≠ .count bytes.length →
      StopsIn s (txEvents s.cfg dc bytes)
        ((s.afterBus (txEvents s.cfg dc bytes)).raiseFault .txError (auxOfAnswer a)) := by
    rintro a rfl hne
    refine ⟨drivePin s.cfg.dcPin dc ++ [.clk s.cfg.clkHz, .mode s.cfg.cpol s.cfg.cpha], bytes, [],
      by simp [txEvents], by rw [hpre]; exact answersInFull_nil s, by rw [hpre]; exact hne, ?_⟩
    rw [hpre]
    simp [txEvents, State.raiseFault_eq]
  have hfull : s.answersInFull (writeLengths (txEvents s.cfg dc bytes)) ↔
      s.answerAt 0 = .count bytes.length := by
    rw [hw]; constructor
    · intro h; simpa using h 0 (by simp)
    · intro h k hk; obtain rfl : k = 0 := by simpa using hk
      simpa using h
  constructor
  · intro h
    have h0 := hfull.1 h
    simp only [tx, nextAnswer_eq, h0, if_pos, hsent]
  · intro h
    have h0 : s.answerAt 0 ≠ .count bytes.length := fun h0 => h (hfull.2 h0)
    simp only [tx, nextAnswer_eq, hsent]
    cases ha : s.answerAt 0 with
    | fail => exact ⟨_, rfl, hstop .fail ha (by simp)⟩
    | count n =>
      have hne : n ≠ bytes.length := by rintro rfl; exact h0 ha
      simp only [if_neg hne]
      exact ⟨_, rfl, hstop (.count n) ha (by simpa using hne)⟩

/-- With a DC pin, those are the four events of R190. -/
theorem tx_emits {s : State} {p : Pin} (hp : s.cfg.dcPin = some p) (dc : Level) (bytes : List Byte) :
    Emits s (tx dc bytes s) (transaction s.cfg p dc bytes) := by
  have h := tx_emits_txEvents s dc bytes
  rwa [show txEvents s.cfg dc bytes = transaction s.cfg p dc bytes by
    simp [txEvents, transaction, drivePin, hp]] at h

theorem sendCmd_emits {s : State} {p : Pin} (hp : s.cfg.dcPin = some p) (c : Byte) :
    Emits s (sendCmd c s) (transaction s.cfg p .low [c]) := tx_emits hp .low [c]

theorem sendData_emits {s : State} {p : Pin} (hp : s.cfg.dcPin = some p) (bytes : List Byte) (h : bytes ≠ []) :
    Emits s (sendData bytes s) (transaction s.cfg p .high bytes) := by
  obtain ⟨b, bs, rfl⟩ := List.exists_cons_of_ne_nil h
  exact tx_emits hp .high (b :: bs)

theorem sendCmdData_emits {s : State} {p : Pin} (hp : s.cfg.dcPin = some p) (c : Byte) (bytes : List Byte)
    (h : bytes ≠ []) :
    Emits s (sendCmdData c bytes s) (transaction s.cfg p .low [c] ++ transaction s.cfg p .high bytes) :=
  (sendCmd_emits hp c).andThen (sendData_emits (s := s.afterBus _) hp bytes h)

/-- One action for each element of a list emits the elements' lists in a row. -/
theorem forEach_emits {α : Type} (xs : List α) (act : α → State → Flow) (evs : α → List Event) (s : State)
    (h : ∀ x ∈ xs, ∀ es, Emits (s.afterBus es) (act x (s.afterBus es)) (evs x)) :
    Emits s (Flow.forEach xs act s) (xs.flatMap evs) := by
  induction xs generalizing s with
  | nil => exact Emits.going s
  | cons x xs ih =>
    rw [List.flatMap_cons]
    refine Emits.andThen ?_ (ih (s.afterBus (evs x)) fun y hy es => ?_)
    · have := h x (by simp) []
      rwa [State.afterBus_nil] at this
    · rw [← State.afterBus_append]
      exact h y (by simp [hy]) _

/-! ### The window and the flip -/

theorem be16_field16 (n : Nat) : be16 (field16 n) = [hiByte n, loByte n] := by
  unfold be16 field16 hiByte loByte
  congr 1
  · apply BitVec.eq_of_toNat_eq; simp [Nat.shiftRight_eq_div_pow]; omega
  · congr 1
    apply BitVec.eq_of_toNat_eq; simp

theorem windowSeq_emits {s : State} {p : Pin} (hp : s.cfg.dcPin = some p) (x0 y0 x1 y1 : Nat) :
    Emits s (windowSeq x0 y0 x1 y1 s) (windowEvents s.cfg p x0 y0 x1 y1) := by
  unfold windowSeq windowEvents
  simp only [be16_field16, List.cons_append, List.nil_append]
  have h := (sendCmdData_emits hp s.cfg.opcCaset [hiByte x0, loByte x0, hiByte x1, loByte x1] (by simp)).andThen
    (k := fun s => (sendCmdData s.cfg.opcRaset [hiByte y0, loByte y0, hiByte y1, loByte y1] s).andThen
      fun s => sendCmd s.cfg.opcRamwr s)
    ((sendCmdData_emits (s := s.afterBus _) hp s.cfg.opcRaset [hiByte y0, loByte y0, hiByte y1, loByte y1]
      (by simp)).andThen (sendCmd_emits (s := (s.afterBus _).afterBus _) hp s.cfg.opcRamwr))
  simpa only [List.append_assoc, State.afterBus_cfg] using h

theorem rowBytes_eq (s : State) (b : Bool) (y : Nat) : s.rowBytes b y = rowData s b y := rfl

theorem rowData_length (s : State) (b : Bool) (y : Nat) : (rowData s b y).length = 2 * s.cfg.width := by
  unfold rowData
  induction s.cfg.width with
  | zero => rfl
  | succ n ih => rw [List.range_succ, List.flatMap_append, List.length_append, ih]; simp; omega

/-- The writes of a window, whatever its bounds (44_transmit.md R194). -/
theorem writeLengths_windowEvents (c : Config) (p : Pin) (x0 y0 x1 y1 : Nat) :
    writeLengths (windowEvents c p x0 y0 x1 y1) = [1, 4, 1, 4, 1] := rfl

/-- The writes of a flip: the window's, then one a row (44_transmit.md R198, R201). -/
theorem writeLengths_flipEvents (s : State) (p : Pin) :
    writeLengths (flipEvents s p) = [1, 4, 1, 4, 1] ++ List.replicate s.cfg.height (2 * s.cfg.width) := by
  have hrows : ∀ n, writeLengths ((List.range n).flatMap fun y =>
      transaction s.cfg p .high (rowData s s.active y)) = List.replicate n (2 * s.cfg.width) := by
    intro n
    induction n with
    | zero => rfl
    | succ n ih =>
      rw [List.range_succ, List.flatMap_append, writeLengths_append, ih, List.replicate_succ']
      simp [writeLengths, transaction, rowData_length]
  rw [flipEvents, writeLengths_append, writeLengths_windowEvents, hrows]

/-- FlipBody emits the flip's events, then toggles `ACTIVE` (44_transmit.md R198, R199). -/
theorem flipBody_spec {s : State} {p : Pin} (hp : s.cfg.dcPin = some p) (hw : 1 ≤ s.cfg.width) :
    (s.answersInFull (writeLengths (flipEvents s p)) →
      flipBody s = .going { s.afterBus (flipEvents s p) with active := !s.active }) ∧
    (¬ s.answersInFull (writeLengths (flipEvents s p)) →
      ∃ u, flipBody s = .ended u ∧ StopsIn s (flipEvents s p) u) := by
  have hrows : ∀ es, Emits (s.afterBus es) (Flow.forEach (List.range s.cfg.height)
      (fun y u => sendData (u.rowBytes s.active y) u) (s.afterBus es))
      ((List.range s.cfg.height).flatMap fun y => transaction s.cfg p .high (rowData s s.active y)) := by
    intro es
    refine forEach_emits _ _ _ _ fun y _ fs => ?_
    have hne : rowData s s.active y ≠ [] := by
      intro h; have := rowData_length s s.active y; rw [h] at this; simp at this; omega
    exact sendData_emits (s := (s.afterBus es).afterBus fs) hp (rowData s s.active y) hne
  have hall := (windowSeq_emits hp 0 0 (s.cfg.width - 1) (s.cfg.height - 1)).andThen (hrows _)
  have hflip : flipBody s = ((windowSeq 0 0 (s.cfg.width - 1) (s.cfg.height - 1) s).andThen
      (Flow.forEach (List.range s.cfg.height) (fun y u => sendData (u.rowBytes s.active y) u))).andThen
      (fun t => .going { t with active := !s.active }) := by
    unfold flipBody
    cases windowSeq 0 0 (s.cfg.width - 1) (s.cfg.height - 1) s <;> rfl
  rw [hflip]
  constructor
  · intro h; rw [hall.full h]; rfl
  · intro h
    obtain ⟨u, hu, hs⟩ := hall.short h
    exact ⟨u, by rw [hu]; rfl, hs⟩

/-! ### The sequencer's phases -/

theorem onBody_emits {s : State} {p : Pin} (hp : s.cfg.dcPin = some p) :
    Emits s (onBody s) (transaction s.cfg p .low [s.cfg.opcDispon] ++ [.delay s.cfg.tOn]) :=
  (sendCmd_emits hp _).andThen (delay_emits _ _)

theorem softwareReset_emits {s : State} {p : Pin} (hp : s.cfg.dcPin = some p) :
    Emits s (softwareReset s) (transaction s.cfg p .low [s.cfg.opcSwreset] ++ [.delay s.cfg.tSwreset]) :=
  (sendCmd_emits hp _).andThen (delay_emits _ _)

theorem scriptStep_emits {s : State} {p : Pin} (hp : s.cfg.dcPin = some p) (step : ScriptStep) :
    Emits s (scriptStep step s) (scriptStepEvents s.cfg p step) := by
  cases step with
  | wait ms => exact delay_emits ms s
  | cmd c data =>
    cases data with
    | nil =>
      have := (sendCmd_emits hp c).andThen (k := sendData []) (Emits.going _)
      rwa [List.append_nil] at this
    | cons d ds => exact sendCmdData_emits hp c (d :: ds) (by simp)

theorem registerScript_emits {s : State} {p : Pin} (hp : s.cfg.dcPin = some p) :
    Emits s (registerScript s) (s.cfg.initScript.flatMap (scriptStepEvents s.cfg p)) :=
  forEach_emits s.cfg.initScript scriptStep (scriptStepEvents s.cfg p) s
    fun step _ es => scriptStep_emits (s := s.afterBus es) hp step

/-- The three silent-bus phases emit the pin events (43_device.md R162, R163, R164). -/
theorem bringUpPins_eq {s : State} {p : Pin} (hp : s.cfg.dcPin = some p) :
    resetPulse (backlightBlink (pinsConfigure s)) = s.emitAll (bringUpPinEvents s.cfg p) := by
  simp only [resetPulse, backlightBlink, pinsConfigure, State.emitAll_cfg, ← State.emitAll_append]
  congr 1
  unfold bringUpPinEvents blinkEvents resetPulseEvents pinCfgOf
  rw [hp]
  cases s.cfg.rstPin <;> cases s.cfg.blPin <;> simp

theorem writeLengths_bringUpPins (c : Config) (p : Pin) : writeLengths (bringUpPinEvents c p) = [] := by
  have hblink : ∀ (b : Pin) (l : List (Level × Word)),
      writeLengths (l.flatMap fun step => [.pin b step.1, .delay step.2]) = [] := by
    intro b l
    induction l with
    | nil => rfl
    | cons a l ih => simpa [writeLengths] using ih
  unfold bringUpPinEvents
  cases c.rstPin <;> cases c.blPin <;> simp [writeLengths_append, writeLengths, hblink]

/-! ### Actions that send something, whatever it is -/

/-- Every `PIN` event among them drives the DC pin. -/
abbrev DcOnly (c : Config) (es : List Event) : Prop := ∀ p l, .pin p l ∈ es → c.dcPin = some p

theorem DcOnly.append {c : Config} {es fs : List Event} (h1 : DcOnly c es) (h2 : DcOnly c fs) :
    DcOnly c (es ++ fs) := by
  intro p l h
  rcases List.mem_append.1 h with h | h
  · exact h1 p l h
  · exact h2 p l h

/-- A pin that is not the DC pin keeps its level along DC events. -/
theorem levelAfter_of_dcOnly {c : Config} {es : List Event} (h : DcOnly c es) {q : Option Pin}
    (hq : q ≠ c.dcPin) (l : PinLevel) : levelAfter q l es = l := by
  induction es generalizing l with
  | nil => rfl
  | cons e es ih =>
    have ih' := fun l => ih (fun p l hm => h p l (by simp [hm])) l
    cases e with
    | pin p lvl =>
      rw [levelAfter_pin, if_neg, ih']
      rintro rfl
      exact hq (h p lvl (by simp)).symm
    | _ => exact ih' l

/-- From `s`, the flow emits some list of events that drives no pin but the DC pin, or stops among
them. -/
def Sends (s : State) (f : Flow) : Prop := ∃ es, DcOnly s.cfg es ∧ Emits s f es

theorem Sends.going (s : State) : Sends s (.going s) := ⟨[], by simp [DcOnly], Emits.going s⟩

theorem Sends.andThen {f : Flow} {k : State → Flow} {s : State} (h1 : Sends s f)
    (h2 : ∀ es, Sends (s.afterBus es) (k (s.afterBus es))) : Sends s (f.andThen k) := by
  obtain ⟨es, hd, he⟩ := h1
  obtain ⟨fs, hd', he'⟩ := h2 es
  exact ⟨es ++ fs, hd.append hd', he.andThen he'⟩

theorem tx_sends (s : State) (dc : Level) (bytes : List Byte) : Sends s (tx dc bytes s) := by
  refine ⟨_, ?_, tx_emits_txEvents s dc bytes⟩
  intro p l h
  unfold txEvents drivePin at h
  cases hd : s.cfg.dcPin with
  | none => simp [hd] at h
  | some q => simp [hd] at h; simp [h.1]

theorem delay_sends (s : State) (ms : Word) : Sends s (delay ms s) :=
  ⟨[.delay ms], by simp [DcOnly], delay_emits ms s⟩

theorem sendData_sends (s : State) (bytes : List Byte) : Sends s (sendData bytes s) := by
  cases bytes with
  | nil => exact Sends.going s
  | cons b bs => exact tx_sends s .high (b :: bs)

theorem sendCmdData_sends (s : State) (c : Byte) (bytes : List Byte) : Sends s (sendCmdData c bytes s) :=
  Sends.andThen (tx_sends s .low [c]) fun _ => sendData_sends _ _

theorem forEach_sends {α : Type} (xs : List α) (act : α → State → Flow) (s : State)
    (h : ∀ x es, Sends (s.afterBus es) (act x (s.afterBus es))) : Sends s (Flow.forEach xs act s) := by
  induction xs generalizing s with
  | nil => exact Sends.going s
  | cons x xs ih =>
    refine Sends.andThen ?_ fun es => ih (s.afterBus es) fun y fs => ?_
    · have := h x []
      rwa [State.afterBus_nil] at this
    · rw [← State.afterBus_append]
      exact h y _

theorem windowSeq_sends (s : State) (x0 y0 x1 y1 : Nat) : Sends s (windowSeq x0 y0 x1 y1 s) :=
  Sends.andThen (sendCmdData_sends _ _ _) fun _ =>
    Sends.andThen (sendCmdData_sends _ _ _) fun _ => tx_sends _ _ _

theorem onBody_sends (s : State) : Sends s (onBody s) :=
  Sends.andThen (tx_sends _ _ _) fun _ => delay_sends _ _

theorem softwareReset_sends (s : State) : Sends s (softwareReset s) :=
  Sends.andThen (tx_sends _ _ _) fun _ => delay_sends _ _

theorem registerScript_sends (s : State) : Sends s (registerScript s) :=
  forEach_sends _ _ _ fun step es => by
    cases step with
    | cmd c data => exact sendCmdData_sends _ c data
    | wait ms => exact delay_sends _ ms

/-- FlipBody sends, and then toggles `ACTIVE`. -/
theorem flipBody_sends (s : State) :
    ∃ f, Sends s f ∧ flipBody s = f.andThen fun t => .going { t with active := !s.active } := by
  refine ⟨(windowSeq 0 0 (s.cfg.width - 1) (s.cfg.height - 1) s).andThen
      (Flow.forEach (List.range s.cfg.height) (fun y u => sendData (u.rowBytes s.active y) u)), ?_, ?_⟩
  · exact Sends.andThen (windowSeq_sends _ _ _ _ _) fun _ => forEach_sends _ _ _ fun _ _ => sendData_sends _ _
  · unfold flipBody
    cases windowSeq 0 0 (s.cfg.width - 1) (s.cfg.height - 1) s <;> rfl

end Sys2Proof.Machine
end

