-- ==== Sys2Proof/Laws/Exec.lean ====
section
/-! SUPPORT. Everything a command can do, said once for all commands: a check fails and nothing else
happens, or the command draws, sends, and perhaps swaps the buffers; and INIT, which sends, clears, and
sends again. Invariants and frames cite these instead of unfolding the meanings. -/

namespace Sys2Proof.Machine

/-! ### What a fault action and an advance leave of the cells -/

@[simp] theorem State.raiseFault_cell (s : State) (c : Cause) (aux : Word) (b : Bool) (y x : Nat) :
    (s.raiseFault c aux).cell b y x = s.cell b y x := rfl

@[simp] theorem State.advance_cell (s : State) (n : Nat) (b : Bool) (y x : Nat) :
    (s.advance n).cell b y x = s.cell b y x := rfl

@[simp] theorem latchFg_cell (s : State) (c : Colour) (b : Bool) (y x : Nat) :
    (latchFg c s).cell b y x = s.cell b y x := rfl

@[simp] theorem latchColours_cell (s : State) (c d : Colour) (b : Bool) (y x : Nat) :
    (latchColours c d s).cell b y x = s.cell b y x := rfl

/-! ### Drawing -/

/-- What a command's drawing step and colour latch leave: only the framebuffer and the current colours
may differ, and only where the command's rule says. -/
structure Draws (i : Instr) (s d : State) : Prop where
  eq : d = { s with fb := d.fb, curFg := d.curFg, curBg := d.curBg }
  cells : ∀ b y x, x < s.cfg.width → y < s.cfg.height → (b ≠ s.active ∨ i.targets x y = false) →
    d.cell b y x = s.cell b y x
  wf : s.fb.wf → d.fb.wf
  window : (∀ c ∈ s.fb, c.1 < cellCount s.cfg) → ∀ c ∈ d.fb, c.1 < cellCount s.cfg
  latchOff : s.cfg.colorLatch = false → d.curFg = s.curFg ∧ d.curBg = s.curBg
  latchPixel : ∀ x y col, i = .setpxc x y col → s.cfg.colorLatch = true → d.curFg = col ∧ d.curBg = s.curBg
  latchGlyph : ∀ inv dw ch x y fg bg, i = .dchrc inv dw ch x y fg bg → s.cfg.colorLatch = true →
    d.curFg = fg ∧ d.curBg = bg
  latchOther : i.mnemonic ≠ .SETPXC → i.mnemonic ≠ .DCHRC → d.curFg = s.curFg ∧ d.curBg = s.curBg

theorem Draws.nothing (i : Instr) (s : State) (h1 : i.mnemonic ≠ .SETPXC) (h2 : i.mnemonic ≠ .DCHRC) :
    Draws i s s :=
  ⟨rfl, fun _ _ _ _ _ _ => rfl, id, id, fun _ => ⟨rfl, rfl⟩, by rintro x y col rfl; exact absurd rfl h1,
    by rintro inv dw ch x y fg bg rfl; exact absurd rfl h2, fun _ _ => ⟨rfl, rfl⟩⟩

/-- Painting a block that holds the command's target, without a latch. -/
theorem Draws.paint (i : Instr) (s : State) (x0 y0 w h : Nat) (color : Nat → Nat → Colour)
    (h1 : i.mnemonic ≠ .SETPXC) (h2 : i.mnemonic ≠ .DCHRC)
    (hw : x0 + w ≤ s.cfg.width) (hh : y0 + h ≤ s.cfg.height)
    (ht : ∀ x y, (x0 ≤ x ∧ x < x0 + w) ∧ (y0 ≤ y ∧ y < y0 + h) → i.targets x y = true) :
    Draws i s (s.paint s.active x0 y0 w h color) := by
  refine ⟨?_, ?_, s.paint_wf _ _ _ _ _ _, s.paint_indexes _ _ _ _ _ _ hw hh, ?_, ?_, ?_, ?_⟩
  · simpa using s.paint_eq s.active x0 y0 w h color
  · intro b y x hx hy hb
    rw [State.paint_cell _ _ _ _ _ _ _ hw hh _ _ _ hx hy, if_neg]
    rintro ⟨rfl, hin⟩
    rcases hb with hb | hb
    · exact hb rfl
    · rw [ht x y hin] at hb; cases hb
  · intro _; simp
  · rintro x y col rfl; exact absurd rfl h1
  · rintro inv dw ch x y fg bg rfl; exact absurd rfl h2
  · intro _ _; simp

theorem inPixel_iff (c : Config) (x y : Nat) : inPixel c x y = true ↔ x < c.width ∧ y < c.height := by
  simp [inPixel]

theorem inRect_iff (c : Config) (x1 y1 x2 y2 : Nat) :
    inRect c x1 y1 x2 y2 = true ↔ (x2 ≤ x1 ∨ y2 ≤ y1) ∨ (x2 ≤ c.width ∧ y2 ≤ c.height) := by
  simp [inRect, rectEmpty]

theorem inGlyph_iff (c : Config) (x y : Nat) :
    inGlyph c x y = true ↔ x + 6 ≤ c.width ∧ y + 8 ≤ c.height := by simp [inGlyph]

theorem inImage_iff (c : Config) : inImage c = true ↔ 128 ≤ c.width ∧ 32 ≤ c.height := by simp [inImage]

theorem inFont_iff (c : Config) (ch : Nat) :
    inFont c ch = true ↔ 0x20 ≤ ch ∧ ch < 0x20 + c.font.length := by
  simp only [inFont, decide_eq_true_eq]; omega

theorem inWindow_iff (c : Config) (x0 y0 x1 y1 : Nat) :
    inWindow c x0 y0 x1 y1 = true ↔ x0 ≤ x1 ∧ x1 < c.width ∧ y0 ≤ y1 ∧ y1 < c.height := by simp [inWindow]

theorem drawsOf_clearActive (imm : Bool) (bgc : Colour) (s : State) :
    Draws (.clear imm bgc) s (clearActive bgc s) :=
  Draws.paint _ s 0 0 _ _ _ (by simp [Instr.mnemonic]) (by simp [Instr.mnemonic]) (by simp) (by simp)
    (by simp [Instr.targets])

theorem drawsOf_setPixel (i : Instr) (s : State) (x y : Nat) (col : Colour)
    (h1 : i.mnemonic ≠ .SETPXC) (h2 : i.mnemonic ≠ .DCHRC) (hin : inPixel s.cfg x y = true)
    (ht : i.targets x y = true) : Draws i s (setPixel x y col s) := by
  obtain ⟨hx, hy⟩ := (inPixel_iff _ _ _).1 hin
  refine Draws.paint i s x y 1 1 _ h1 h2 (by omega) (by omega) ?_
  intro x' y' h
  obtain rfl : x' = x := by omega
  obtain rfl : y' = y := by omega
  exact ht

/-- A block of no columns changes no cell and lists no index. -/
theorem State.paint_noColumns (s : State) (b0 : Bool) (x0 y0 h : Nat) (color : Nat → Nat → Colour) :
    (∀ b y x, (s.paint b0 x0 y0 0 h color).cell b y x = s.cell b y x) ∧
    ∀ c ∈ (s.paint b0 x0 y0 0 h color).fb, c ∈ s.fb := by
  induction h with
  | zero => rw [State.paint_zero]; exact ⟨fun _ _ _ => rfl, fun _ h => h⟩
  | succ h ih =>
    rw [State.paint_succ]
    constructor
    · intro b y x
      rw [← ih.1 b y x]
      unfold State.cell State.cellAt
      simp only [State.writeRow_cfg, State.writeRow_epoch]
      rw [show ∀ (t : State) (y : Nat) (k : Nat → Colour),
        (t.writeRow b0 y x0 0 k).fb = t.fb.writeRun (cellIndex t.cfg b0 y x0) [] from fun _ _ _ => rfl,
        Memory.get?_writeRun, if_neg (by simp)]
    · intro c hc
      rcases Memory.mem_writeRun _ _ _ c hc with hc | hc
      · exact ih.2 c hc
      · simp at hc; omega

/-- The drawing step of FRECT; an empty rectangle paints nothing, whatever its coordinates. -/
theorem drawsOf_fillRect (imm : Bool) (x1 y1 x2 y2 : Nat) (s : State) (hin : inRect s.cfg x1 y1 x2 y2 = true) :
    Draws (.frect imm x1 y1 x2 y2) s (fillRect x1 y1 x2 y2 s) := by
  have h1 : (Instr.frect imm x1 y1 x2 y2).mnemonic ≠ .SETPXC := by simp [Instr.mnemonic]
  have h2 : (Instr.frect imm x1 y1 x2 y2).mnemonic ≠ .DCHRC := by simp [Instr.mnemonic]
  unfold fillRect
  by_cases hx : x2 ≤ x1
  · rw [Nat.sub_eq_zero_of_le hx]
    obtain ⟨hcells, hmem⟩ := s.paint_noColumns s.active x1 y1 (y2 - y1) fun _ _ => s.curFg
    exact ⟨by simpa using s.paint_eq s.active x1 y1 0 (y2 - y1) fun _ _ => s.curFg,
      fun b y x _ _ _ => hcells b y x, s.paint_wf _ _ _ _ _ _, fun h c hc => h c (hmem c hc),
      fun _ => by simp, fun _ _ _ h => (by cases h), fun _ _ _ _ _ _ _ h => (by cases h), fun _ _ => by simp⟩
  · by_cases hy : y2 ≤ y1
    · rw [Nat.sub_eq_zero_of_le hy, State.paint_zero]; exact Draws.nothing _ _ h1 h2
    · have := (inRect_iff _ _ _ _ _).1 hin
      exact Draws.paint _ s x1 y1 _ _ _ h1 h2 (by omega) (by omega) (by intro x y h; simp [Instr.targets]; omega)

theorem drawsOf_blitLogo (imm : Bool) (sel : Nat) (img : LogoBitmap) (s : State) (hsel : sel ≤ 1)
    (hin : inImage s.cfg = true) : Draws (.dimg imm sel) s (blitLogo img s) := by
  have := (inImage_iff _).1 hin
  exact Draws.paint _ s 0 0 _ _ _ (by simp [Instr.mnemonic]) (by simp [Instr.mnemonic]) (by simp only [logoW]; omega)
    (by simp only [logoH]; omega) (by intro x y h; simp only [logoW, logoH] at h; simp [Instr.targets]; omega)

theorem drawsOf_renderGlyph (i : Instr) (s : State) (k x y : Nat) (fg bg : Colour)
    (h1 : i.mnemonic ≠ .SETPXC) (h2 : i.mnemonic ≠ .DCHRC) (hin : inGlyph s.cfg x y = true)
    (ht : ∀ x' y', (x ≤ x' ∧ x' < x + 6) ∧ (y ≤ y' ∧ y' < y + 8) → i.targets x' y' = true) :
    Draws i s (renderGlyph k x y fg bg s) := by
  have := (inGlyph_iff _ _ _).1 hin
  exact Draws.paint i s x y _ _ _ h1 h2 (by simp only [glyphW]; omega) (by simp only [glyphH]; omega) ht

/-- A drawing step without a latch leaves only a framebuffer that differs. -/
theorem Draws.onlyFb {i : Instr} {s d : State} (h : Draws i s d) (h1 : i.mnemonic ≠ .SETPXC)
    (h2 : i.mnemonic ≠ .DCHRC) : d = { s with fb := d.fb } := by
  have := h.latchOther h1 h2
  exact h.eq.trans (by rw [this.1, this.2])

/-- A drawing step as SETPX's is SETPXC's once the foreground is latched. -/
theorem Draws.latchPixelOf {x y : Nat} {s d : State} (col : Colour) (h : Draws (.setpx x y) s d) :
    Draws (.setpxc x y col) s (latchFg col d) := by
  have he := h.onlyFb (by simp [Instr.mnemonic]) (by simp [Instr.mnemonic])
  obtain ⟨m, rfl⟩ : ∃ m, d = { s with fb := m } := ⟨_, he⟩
  refine ⟨rfl, h.cells, h.wf, h.window, fun hl => by simp [latchFg, hl], ?_, fun _ _ _ _ _ _ _ h => (by cases h),
    fun h => absurd rfl h⟩
  rintro x y col' he hl; cases he; simp [latchFg, hl]

/-- A drawing step as DCHR's is DCHRC's once both colours are latched. -/
theorem Draws.latchGlyphOf {inv dw : Bool} {ch x y : Nat} {s d : State} (fg bg : Colour)
    (h : Draws (.dchr inv dw ch x y) s d) :
    Draws (.dchrc inv dw ch x y fg bg) s (latchColours fg bg d) := by
  have he := h.onlyFb (by simp [Instr.mnemonic]) (by simp [Instr.mnemonic])
  obtain ⟨m, rfl⟩ : ∃ m, d = { s with fb := m } := ⟨_, he⟩
  refine ⟨rfl, h.cells, h.wf, h.window, fun hl => by simp [latchColours, hl], fun _ _ _ h => (by cases h), ?_,
    fun _ h => absurd rfl h⟩
  rintro inv' dw' ch' x' y' fg' bg' he hl; cases he; simp [latchColours, hl]

/-! ### Every command but INIT -/

/-- The causes a check raises. -/
def Cause.precise (c : Cause) : Prop := c = .notInit ∨ c = .reinit ∨ c = .bounds ∨ c = .glyphRange

/-- A command that passed its checks: it draws, sends, and then swaps the buffers if `swap`. -/
structure Runs (i : Instr) (s : State) (f : Flow) : Prop where
  ready : s.cstate = .ready
  out : ∃ (d : State) (es : List Event) (swap : Bool), Draws i s d ∧ DcOnly s.cfg es ∧
    (swap = true → i.flips = true ∧ ∀ imm sel, i = .dimg imm sel → sel = 0 ∨ sel = 1) ∧
    (i.rasterizer = true → i.flips = false → es = []) ∧
    (d.answersInFull (writeLengths es) →
      f = .going { d.afterBus es with active := if swap then !s.active else s.active }) ∧
    (¬ d.answersInFull (writeLengths es) → ∃ u, f = .ended u ∧ StopsIn d es u)

theorem Runs.ofSends {i : Instr} {s d : State} {f : Flow} (hr : s.cstate = .ready) (hd : Draws i s d)
    (hs : Sends d f) (hno : i.rasterizer = false) : Runs i s f := by
  obtain ⟨es, hdc, he⟩ := hs
  have hcfg : d.cfg = s.cfg := by rw [hd.eq]
  have hact : d.active = s.active := by rw [hd.eq]
  refine ⟨hr, d, es, false, hd, by rwa [hcfg] at hdc, by simp, by simp [hno], fun h => ?_, he.short⟩
  rw [he.full h]
  simp [← hact, State.afterBus]

theorem Runs.ofDraw {i : Instr} {s d : State} (hr : s.cstate = .ready) (hd : Draws i s d) :
    Runs i s (.going d) := by
  have hact : d.active = s.active := by rw [hd.eq]
  refine ⟨hr, d, [], false, hd, by simp [DcOnly], by simp, fun _ _ => rfl, fun _ => ?_,
    fun h => absurd (answersInFull_nil d) h⟩
  rw [State.afterBus_nil]
  simp [← hact]

theorem Runs.ofFlip {i : Instr} {s d : State} {imm : Bool} (hr : s.cstate = .ready) (hd : Draws i s d)
    (hi : imm = true → i.flips = true)
    (hdimg : imm = true → ∀ imm' sel, i = .dimg imm' sel → sel = 0 ∨ sel = 1) :
    Runs i s (immediateFlip imm d) := by
  cases imm with
  | false => exact Runs.ofDraw hr hd
  | true =>
    obtain ⟨f, ⟨es, hdc, he⟩, hf⟩ := flipBody_sends d
    have hcfg : d.cfg = s.cfg := by rw [hd.eq]
    have hact : d.active = s.active := by rw [hd.eq]
    refine ⟨hr, d, es, true, hd, by rwa [hcfg] at hdc, fun _ => ⟨hi rfl, hdimg rfl⟩,
      by simp [hi rfl], fun h => ?_, fun h => ?_⟩
    · show flipBody d = _
      rw [hf, he.full h, Flow.going_andThen, hact]; rfl
    · obtain ⟨u, hu, hs⟩ := he.short h
      exact ⟨u, by show flipBody d = _; rw [hf, hu]; rfl, hs⟩

theorem logoOf_some {c : Config} {sel : Nat} {img : LogoBitmap} (h : logoOf c sel = some img) :
    (sel = 0 ∧ img = c.logoA) ∨ (sel = 1 ∧ img = c.logoB) := by
  unfold logoOf at h
  split at h
  · exact .inl ⟨rfl, by injection h with h; exact h.symm⟩
  · exact .inr ⟨rfl, by injection h with h; exact h.symm⟩
  · cases h

/-- Everything a command other than INIT can do, where it is not halted. -/
theorem actionsOf_cases (i : Instr) (s : State) (hi : i ≠ .init) :
    (∃ c : Cause, c.precise ∧ actionsOf i s = .ended (s.raiseFault c 0#32)) ∨ Runs i s (actionsOf i s) := by
  by_cases hr : s.cstate = .ready
  swap
  · refine .inl ⟨.notInit, by simp [Cause.precise], ?_⟩
    cases i <;> first | exact absurd rfl hi | exact requireReady_not hr _
  have hbounds : ∀ k : State → Flow,
      (∃ c : Cause, c.precise ∧ require false .bounds k s = .ended (s.raiseFault c 0#32)) :=
    fun k => ⟨.bounds, by simp [Cause.precise], rfl⟩
  have hglyph : ∀ k : State → Flow,
      (∃ c : Cause, c.precise ∧ require false .glyphRange k s = .ended (s.raiseFault c 0#32)) :=
    fun k => ⟨.glyphRange, by simp [Cause.precise], rfl⟩
  cases i with
  | init => exact absurd rfl hi
  | on =>
    refine .inr ?_
    rw [actionsOf, requireReady_ready hr]
    exact Runs.ofSends hr (Draws.nothing _ _ (by simp [Instr.mnemonic]) (by simp [Instr.mnemonic]))
      (onBody_sends s) rfl
  | off =>
    refine .inr ?_
    rw [actionsOf, requireReady_ready hr]
    exact Runs.ofSends hr (Draws.nothing _ _ (by simp [Instr.mnemonic]) (by simp [Instr.mnemonic]))
      (tx_sends s _ _) rfl
  | bkl en =>
    refine .inr ?_
    rw [actionsOf, requireReady_ready hr]
    exact Runs.ofDraw hr (Draws.nothing _ _ (by simp [Instr.mnemonic]) (by simp [Instr.mnemonic]))
  | clear imm bgc =>
    refine .inr ?_
    rw [actionsOf, requireReady_ready hr]
    exact Runs.ofFlip hr (drawsOf_clearActive imm bgc s) (by simp [Instr.flips]) (by simp)
  | setpxc x y col =>
    rw [actionsOf, requireReady_ready hr]
    cases hin : inPixel s.cfg x y with
    | false => exact .inl (hbounds _)
    | true => exact .inr (Runs.ofDraw hr (Draws.latchPixelOf col (drawsOf_setPixel _ s x y _ (by simp [Instr.mnemonic])
        (by simp [Instr.mnemonic]) hin (by simp [Instr.targets]))))
  | setpx x y =>
    rw [actionsOf, requireReady_ready hr]
    cases hin : inPixel s.cfg x y with
    | false => exact .inl (hbounds _)
    | true => exact .inr (Runs.ofDraw hr (drawsOf_setPixel _ s x y _ (by simp [Instr.mnemonic])
        (by simp [Instr.mnemonic]) hin (by simp [Instr.targets])))
  | clrpx x y =>
    rw [actionsOf, requireReady_ready hr]
    cases hin : inPixel s.cfg x y with
    | false => exact .inl (hbounds _)
    | true => exact .inr (Runs.ofDraw hr (drawsOf_setPixel _ s x y _ (by simp [Instr.mnemonic])
        (by simp [Instr.mnemonic]) hin (by simp [Instr.targets])))
  | frect imm x1 y1 x2 y2 =>
    rw [actionsOf, requireReady_ready hr]
    cases hin : inRect s.cfg x1 y1 x2 y2 with
    | false => exact .inl (hbounds _)
    | true => exact .inr (Runs.ofFlip hr (drawsOf_fillRect imm x1 y1 x2 y2 s hin) (by simp [Instr.flips]) (by simp))
  | dchrc inv dw ch x y fg bg =>
    rw [actionsOf, requireReady_ready hr]
    cases hf : inFont s.cfg ch with
    | false => exact .inl (hglyph _)
    | true =>
      rw [require_true]
      cases hin : inGlyph s.cfg x y with
      | false => exact .inl (hbounds _)
      | true => exact .inr (Runs.ofDraw hr (Draws.latchGlyphOf (inv := inv) (dw := dw) (ch := ch) fg bg
          (drawsOf_renderGlyph _ s _ x y _ _ (by simp [Instr.mnemonic])
          (by simp [Instr.mnemonic]) hin (by intro x' y' h; simp [Instr.targets]; omega))))
  | dchr inv dw ch x y =>
    rw [actionsOf, requireReady_ready hr]
    cases hf : inFont s.cfg ch with
    | false => exact .inl (hglyph _)
    | true =>
      rw [require_true]
      cases hin : inGlyph s.cfg x y with
      | false => exact .inl (hbounds _)
      | true => exact .inr (Runs.ofDraw hr (drawsOf_renderGlyph _ s _ x y _ _ (by simp [Instr.mnemonic])
          (by simp [Instr.mnemonic]) hin (by intro x' y' h; simp [Instr.targets]; omega)))
  | dimg imm sel =>
    rw [actionsOf, requireReady_ready hr]
    cases hl : logoOf s.cfg sel with
    | none => exact .inr (Runs.ofDraw hr (Draws.nothing _ _ (by simp [Instr.mnemonic]) (by simp [Instr.mnemonic])))
    | some img =>
      cases hin : inImage s.cfg with
      | false => exact .inl (hbounds _)
      | true =>
        have hsel : sel = 0 ∨ sel = 1 := by rcases logoOf_some hl with h | h <;> simp [h.1]
        exact .inr (Runs.ofFlip hr (drawsOf_blitLogo imm sel img s (by omega) hin) (by simp [Instr.flips])
          (by rintro - imm' sel' he; cases he; exact hsel))
  | setwin x0 y0 x1 y1 =>
    rw [actionsOf, requireReady_ready hr]
    cases hin : inWindow s.cfg x0 y0 x1 y1 with
    | false => exact .inl (hbounds _)
    | true => exact .inr (Runs.ofSends hr (Draws.nothing _ _ (by simp [Instr.mnemonic]) (by simp [Instr.mnemonic]))
        (windowSeq_sends s _ _ _ _) rfl)
  | flip =>
    rw [actionsOf, requireReady_ready hr]
    exact .inr (Runs.ofFlip (imm := true) hr
      (Draws.nothing _ _ (by simp [Instr.mnemonic]) (by simp [Instr.mnemonic])) (by simp [Instr.flips]) (by simp))

/-! ### INIT -/

/-- The pin phases emit events without a write, whatever pins there are. -/
theorem bringUpPins_emits (s : State) :
    ∃ es, writeLengths es = [] ∧ resetPulse (backlightBlink (pinsConfigure s)) = s.emitAll es := by
  have hblink : writeLengths (blinkEvents s.cfg) = [] := by
    unfold blinkEvents
    cases s.cfg.blPin with
    | none => rfl
    | some b =>
      simp only
      induction s.cfg.blinkSeq with
      | nil => rfl
      | cons a l ih => simpa [writeLengths] using ih
  refine ⟨(pinCfgOf s.cfg.dcPin ++ pinCfgOf s.cfg.rstPin ++ pinCfgOf s.cfg.blPin) ++
    (blinkEvents s.cfg ++ resetPulseEvents s.cfg), ?_, ?_⟩
  · simp only [writeLengths_append, hblink]
    unfold pinCfgOf resetPulseEvents
    cases s.cfg.dcPin <;> cases s.cfg.rstPin <;> cases s.cfg.blPin <;> rfl
  · simp only [resetPulse, backlightBlink, pinsConfigure, State.emitAll_cfg, ← State.emitAll_append,
      List.append_assoc]

/-- Everything INIT can do before `READY`: send, clear the active buffer, send again. -/
theorem initActions_cases (s : State) (h : s.cstate ≠ .ready) :
    ∃ es fs : List Event, DcOnly s.cfg fs ∧
      (¬ s.answersInFull (writeLengths es) → ∃ u, actionsOf .init s = .ended u ∧ StopsIn s es u) ∧
      (s.answersInFull (writeLengths es) →
        ¬ (initialClear (s.afterBus es)).answersInFull (writeLengths fs) →
        ∃ u, actionsOf .init s = .ended u ∧ StopsIn (initialClear (s.afterBus es)) fs u) ∧
      (s.answersInFull (writeLengths es) →
        (initialClear (s.afterBus es)).answersInFull (writeLengths fs) →
        actionsOf .init s = .going { (initialClear (s.afterBus es)).afterBus fs with cstate := .ready }) := by
  obtain ⟨pins, hnw, hpins⟩ := bringUpPins_emits s
  obtain ⟨es1, -, h1⟩ := softwareReset_sends (s.emitAll pins)
  have hsend : ∃ es, Emits s ((softwareReset (s.emitAll pins)).andThen registerScript) es := by
    have h0 := Emits.ofEvents s pins hnw
    rw [← State.afterBus_of_noWrite _ _ hnw] at h1
    obtain ⟨es2, -, h2⟩ := registerScript_sends ((s.afterBus pins).afterBus es1)
    have := h0.andThen (k := fun t => (softwareReset t).andThen registerScript) (h1.andThen h2)
    exact ⟨_, this⟩
  obtain ⟨es, hes⟩ := hsend
  obtain ⟨fs, hfs, hf⟩ := onBody_sends (initialClear (s.afterBus es))
  have hcfg : (initialClear (s.afterBus es)).cfg = s.cfg := by simp [initialClear]
  have hact : actionsOf .init s = ((softwareReset (s.emitAll pins)).andThen registerScript).andThen
      (fun s => (onBody (initialClear s)).andThen fun s => .going { s with cstate := .ready }) := by
    rw [actionsOf, decide_eq_true h, require_true, hpins]
    cases softwareReset (s.emitAll pins) with
    | going t => rfl
    | ended t => rfl
  refine ⟨es, fs, by rwa [hcfg] at hfs, fun hn => ?_, fun ha hn => ?_, fun ha hb => ?_⟩
  · obtain ⟨u, hu, hs⟩ := hes.short hn
    exact ⟨u, by rw [hact, hu]; rfl, hs⟩
  · obtain ⟨u, hu, hs⟩ := hf.short hn
    exact ⟨u, by rw [hact, hes.full ha, Flow.going_andThen, hu]; rfl, hs⟩
  · rw [hact, hes.full ha, Flow.going_andThen, hf.full hb]; rfl

/-! ### Every command -/

theorem actionsOf_notInit {i : Instr} {s : State} (hi : i ≠ .init) (h : s.cstate ≠ .ready) :
    actionsOf i s = .ended (s.raiseFault .notInit 0#32) := by
  cases i <;> first | exact absurd rfl hi | exact requireReady_not h _

/-- A command that answers a next state was not halted, and the state is what its actions leave. -/
theorem exec_inv {i : Instr} {s t : State} (h : exec i s = .next t) :
    s.cstate ≠ .halted ∧ t = (actionsOf i s).finish (1 + i.mnemonic.argWords) := by
  rw [exec_eq] at h; exact runCommand_inv h

/-- A command answers a next state wherever the controller is not halted. -/
theorem exec_next {s : State} (h : s.cstate ≠ .halted) (i : Instr) :
    exec i s = .next ((actionsOf i s).finish (1 + i.mnemonic.argWords)) := by
  rw [exec_eq, runCommand_next h]

/-- The states from which a command's writes may be cut short: INIT's start, what a drawing step leaves,
or what INIT's clear leaves. -/
inductive BusStart (i : Instr) (s : State) : State → Prop
  | init (hi : i = .init) (hu : s.cstate = .uninit) : BusStart i s s
  | drawn (d : State) (hr : s.cstate = .ready) (hd : Draws i s d) : BusStart i s d
  | cleared (es : List Event) (hi : i = .init) (hu : s.cstate = .uninit)
      (ha : s.answersInFull (writeLengths es)) : BusStart i s (initialClear (s.afterBus es))

/-- Everything a command's next state can be. -/
inductive ExecAnswers (i : Instr) (s : State) : State → Prop
  /-- A check failed, and nothing else happened. -/
  | check (c : Cause) (hc : c.precise) : ExecAnswers i s (s.raiseFault c 0#32)
  /-- A write was not answered in full. -/
  | stopped (d u : State) (es : List Event) (hd : BusStart i s d) (hdc : i ≠ .init → DcOnly s.cfg es)
      (hquiet : i.rasterizer = true → i.flips = false → es = []) (hu : StopsIn d es u) : ExecAnswers i s u
  /-- The command drew, sent, and perhaps swapped the buffers. -/
  | completed (d : State) (es : List Event) (swap : Bool) (hr : s.cstate = .ready) (hd : Draws i s d)
      (hdc : DcOnly s.cfg es)
      (hswap : swap = true → i.flips = true ∧ ∀ imm sel, i = .dimg imm sel → sel = 0 ∨ sel = 1)
      (hquiet : i.rasterizer = true → i.flips = false → es = [])
      (ha : d.answersInFull (writeLengths es)) :
      ExecAnswers i s (({ d.afterBus es with active := if swap then !s.active else s.active } : State).advance
        (1 + i.mnemonic.argWords))
  /-- INIT brought the block up. -/
  | broughtUp (es fs : List Event) (hi : i = .init) (hu : s.cstate = .uninit) (hdc : DcOnly s.cfg fs)
      (ha : s.answersInFull (writeLengths es))
      (hb : (initialClear (s.afterBus es)).answersInFull (writeLengths fs)) :
      ExecAnswers i s (({ (initialClear (s.afterBus es)).afterBus fs with cstate := .ready } : State).advance 1)

/-- The one inversion lemma of `exec`. -/
theorem exec_cases {i : Instr} {s t : State} (h : exec i s = .next t) : ExecAnswers i s t := by
  obtain ⟨hs, rfl⟩ := exec_inv h
  by_cases hi : i = .init
  · subst hi
    by_cases hr : s.cstate = .ready
    · rw [actionsOf, decide_eq_false (by simp [hr]), require_false]
      exact .check .reinit (by simp [Cause.precise])
    · have hu : s.cstate = .uninit := by cases hc : s.cstate <;> simp_all
      obtain ⟨es, fs, hd, h1, h2, h3⟩ := initActions_cases s hr
      by_cases ha : s.answersInFull (writeLengths es)
      · by_cases hb : (initialClear (s.afterBus es)).answersInFull (writeLengths fs)
        · rw [h3 ha hb]; exact .broughtUp es fs rfl hu hd ha hb
        · obtain ⟨u, hu', hst⟩ := h2 ha hb
          rw [hu']; exact .stopped _ u fs (.cleared es rfl hu ha) (fun h => absurd rfl h) (by simp [Instr.rasterizer]) hst
      · obtain ⟨u, hu', hst⟩ := h1 ha
        rw [hu']; exact .stopped s u es (.init rfl hu) (fun h => absurd rfl h) (by simp [Instr.rasterizer]) hst
  · rcases actionsOf_cases i s hi with ⟨c, hc, he⟩ | hr
    · rw [he]; exact .check c hc
    · obtain ⟨d, es, swap, hd, hdc, hsw, hq, hf, hn⟩ := hr.out
      by_cases ha : d.answersInFull (writeLengths es)
      · rw [hf ha]; exact .completed d es swap hr.ready hd hdc hsw hq ha
      · obtain ⟨u, hu, hst⟩ := hn ha
        rw [hu]; exact .stopped d u es (.drawn d hr.ready hd) (fun _ => hdc) hq hst

/-- What a stop leaves of every field but the log, the levels and the answers. -/
theorem StopsIn.fields {s u : State} {es : List Event} (h : StopsIn s es u) :
    (u.cstate = .halted ∧ u.cause = .txError ∧ u.fcp = s.cp ∧ u.finfo0 = s.headWord ∧ u.cp = s.cp) ∧
    (u.cfg = s.cfg ∧ u.stream = s.stream ∧ u.epoch = s.epoch ∧ u.fb = s.fb ∧ u.active = s.active ∧
      u.curFg = s.curFg ∧ u.curBg = s.curBg) := by
  obtain ⟨pre, bytes, post, -, -, -, rfl⟩ := h
  simp [State.faulted]

/-- The first event lists of a stop and of the state it stops from. -/
theorem StopsIn.log {s u : State} {es : List Event} (h : StopsIn s es u) :
    ∃ pre post, es = pre ++ post ∧ u.ev = s.ev ++ pre ∧
      u.dcLvl = levelAfter s.cfg.dcPin s.dcLvl pre ∧ u.rstLvl = levelAfter s.cfg.rstPin s.rstLvl pre ∧
      u.blLvl = levelAfter s.cfg.blPin s.blLvl pre := by
  obtain ⟨pre, bytes, post, rfl, -, -, rfl⟩ := h
  exact ⟨pre ++ [.write s.cfg.cs bytes], post, by simp, rfl, rfl, rfl, rfl⟩

/-- What a state a command's writes start from shares with the command's first state. -/
theorem BusStart.fields {i : Instr} {s d : State} (h : BusStart i s d) :
    d.cfg = s.cfg ∧ d.stream = s.stream ∧ d.epoch = s.epoch ∧ d.active = s.active ∧ d.cp = s.cp ∧
      d.headWord = s.headWord ∧ ∃ es, s.answersInFull (writeLengths es) ∧
        (∀ k, d.answerAt k = s.answerAt ((writeLengths es).length + k)) ∧ d.ev = s.ev ++ es ∧
        d.dcLvl = levelAfter s.cfg.dcPin s.dcLvl es ∧ d.rstLvl = levelAfter s.cfg.rstPin s.rstLvl es ∧
        d.blLvl = levelAfter s.cfg.blPin s.blLvl es := by
  cases h with
  | init => exact ⟨rfl, rfl, rfl, rfl, rfl, rfl, [], answersInFull_nil s, by simp [writeLengths], by simp, rfl, rfl, rfl⟩
  | drawn _ hr hd =>
    rw [hd.eq]
    exact ⟨rfl, rfl, rfl, rfl, rfl, rfl, [], answersInFull_nil s,
      fun k => by simp [writeLengths, State.answerAt], by simp, rfl, rfl, rfl⟩
  | cleared es hi hu ha =>
    refine ⟨?_, ?_, ?_, ?_, ?_, ?_, es, ha, fun k => ?_, ?_, ?_, ?_, ?_⟩
    case refine_7 => rw [← State.afterBus_answerAt]; simp [initialClear, clearActive, State.answerAt]
    all_goals simp [initialClear, clearActive, State.headWord]

/-! ### A step -/

/-- The one inversion lemma of `step`: it ran the command at `CP`, or took the fault of an illegal head
word. Either way there was a head word there. -/
theorem step_cases {s t : State} (h : step s = .next t) :
    s.cstate ≠ .halted ∧ s.stream[s.cp.toNat]? = some s.headWord ∧
    ((∃ i rest, decode (s.stream.drop s.cp.toNat) = .command i rest ∧ exec i s = .next t) ∨
      (∃ why, decode (s.stream.drop s.cp.toNat) = .illegal why ∧ t = s.raiseFault .illegalCommand 0#32)) := by
  have hhead : decode (s.stream.drop s.cp.toNat) ≠ .noHeadWord →
      s.stream[s.cp.toNat]? = some s.headWord := by
    intro hd
    cases hl : s.stream[s.cp.toNat]? with
    | none =>
      rw [List.drop_eq_nil_of_le (List.getElem?_eq_none_iff.1 hl)] at hd
      exact absurd rfl hd
    | some w => simp [State.headWord, List.getD, hl]
  unfold step at h
  split at h
  · cases h
  · rename_i hs
    unfold State.wordsAtCp at h
    split at h
    · rename_i i rest hd
      exact ⟨hs, hhead (by simp [hd]), .inl ⟨i, rest, hd, h⟩⟩
    · rename_i why hd
      exact ⟨hs, hhead (by simp [hd]), .inr ⟨why, hd, (runCommand_inv h).2⟩⟩
    · cases h
    · cases h

end Sys2Proof.Machine
end

