-- ==== Sys2Proof/Laws/Draw.lean ====
section
/-! SUPPORT. Each drawing step said once: it changes only the framebuffer, and in it only its own cells,
which hold the colours its rule gives. -/

namespace Sys2Proof.Machine

theorem clearActive_eq (c : Colour) (s : State) : clearActive c s = { s with fb := (clearActive c s).fb } :=
  s.paint_eq s.active 0 0 s.cfg.width s.cfg.height fun _ _ => c

theorem clearActive_cell (c : Colour) (s : State) (b : Bool) (y x : Nat) (hx : x < s.cfg.width)
    (hy : y < s.cfg.height) :
    (clearActive c s).cell b y x = if b = s.active then c else s.cell b y x := by
  unfold clearActive
  rw [State.paint_cell s s.active 0 0 s.cfg.width s.cfg.height _ (by simp) (by simp) b y x hx hy]
  simp [hx, hy]

theorem setPixel_eq (x0 y0 : Nat) (c : Colour) (s : State) :
    setPixel x0 y0 c s = { s with fb := (setPixel x0 y0 c s).fb } := s.paint_eq s.active x0 y0 1 1 fun _ _ => c

theorem setPixel_cell (x0 y0 : Nat) (c : Colour) (s : State) (hin : inPixel s.cfg x0 y0 = true) (b : Bool)
    (y x : Nat) (hx : x < s.cfg.width) (hy : y < s.cfg.height) :
    (setPixel x0 y0 c s).cell b y x = if b = s.active ∧ y = y0 ∧ x = x0 then c else s.cell b y x := by
  obtain ⟨h1, h2⟩ := (inPixel_iff _ _ _).1 hin
  unfold setPixel
  rw [State.paint_cell s s.active x0 y0 1 1 _ (by omega) (by omega) b y x hx hy]
  congr 1
  apply propext
  constructor
  · rintro ⟨a, b, c⟩; exact ⟨a, by omega, by omega⟩
  · rintro ⟨a, b, c⟩; exact ⟨a, by omega, by omega⟩

theorem fillRect_eq (x1 y1 x2 y2 : Nat) (s : State) :
    fillRect x1 y1 x2 y2 s = { s with fb := (fillRect x1 y1 x2 y2 s).fb } :=
  s.paint_eq s.active x1 y1 (x2 - x1) (y2 - y1) fun _ _ => s.curFg

theorem fillRect_cell (x1 y1 x2 y2 : Nat) (s : State) (hin : inRect s.cfg x1 y1 x2 y2 = true) (b : Bool)
    (y x : Nat) (hx : x < s.cfg.width) (hy : y < s.cfg.height) :
    (fillRect x1 y1 x2 y2 s).cell b y x =
      if b = s.active ∧ x1 ≤ x ∧ x < x2 ∧ y1 ≤ y ∧ y < y2 then s.curFg else s.cell b y x := by
  have hin := (inRect_iff _ _ _ _ _).1 hin
  unfold fillRect
  by_cases h1 : x2 ≤ x1
  · rw [Nat.sub_eq_zero_of_le h1, (s.paint_noColumns _ _ _ _ _).1, if_neg (by omega)]
  · by_cases h2 : y2 ≤ y1
    · rw [Nat.sub_eq_zero_of_le h2, s.paint_zero, if_neg (by omega)]
    · rw [State.paint_cell s s.active x1 y1 (x2 - x1) (y2 - y1) _ (by omega) (by omega) b y x hx hy]
      congr 1
      apply propext
      constructor
      · rintro ⟨a, b, c⟩; exact ⟨a, by omega⟩
      · rintro ⟨a, b⟩; exact ⟨a, by omega, by omega⟩

theorem renderGlyph_eq (k x0 y0 : Nat) (fg bg : Colour) (s : State) :
    renderGlyph k x0 y0 fg bg s = { s with fb := (renderGlyph k x0 y0 fg bg s).fb } :=
  s.paint_eq s.active x0 y0 glyphW glyphH fun col row => inkColour (fontPixel s.cfg k col row) fg bg

theorem renderGlyph_cell (k x0 y0 : Nat) (fg bg : Colour) (s : State) (hin : inGlyph s.cfg x0 y0 = true)
    (b : Bool) (y x : Nat) (hx : x < s.cfg.width) (hy : y < s.cfg.height) :
    (renderGlyph k x0 y0 fg bg s).cell b y x =
      if b = s.active ∧ x0 ≤ x ∧ x < x0 + 6 ∧ y0 ≤ y ∧ y < y0 + 8 then
        inkColour (fontPixel s.cfg k (x - x0) (y - y0)) fg bg
      else s.cell b y x := by
  obtain ⟨h1, h2⟩ := (inGlyph_iff _ _ _).1 hin
  unfold renderGlyph
  rw [State.paint_cell s s.active x0 y0 glyphW glyphH _ h1 h2 b y x hx hy]
  congr 1
  apply propext
  constructor
  · rintro ⟨a, ⟨b, c⟩, d, e⟩; exact ⟨a, b, c, d, e⟩
  · rintro ⟨a, b, c, d, e⟩; exact ⟨a, ⟨b, c⟩, d, e⟩

theorem fontPixel_eq {c : Config} {k : Nat} {g : Glyph} (h : c.font[k]? = some g) (col row : Nat) :
    fontPixel c k col row = (g.toList.getD col 0#8).getLsbD row := by simp only [fontPixel, h]

theorem blitLogo_eq (img : LogoBitmap) (s : State) :
    blitLogo img s = { s with fb := (blitLogo img s).fb } :=
  s.paint_eq s.active 0 0 logoW logoH fun x y => inkColour (logoPixel img x y) s.curFg s.curBg

theorem blitLogo_cell (img : LogoBitmap) (s : State) (hin : inImage s.cfg = true) (b : Bool)
    (y x : Nat) (hx : x < s.cfg.width) (hy : y < s.cfg.height) :
    (blitLogo img s).cell b y x =
      if b = s.active ∧ x < 128 ∧ y < 32 then inkColour (logoPixel img x y) s.curFg s.curBg
      else s.cell b y x := by
  obtain ⟨h1, h2⟩ := (inImage_iff _).1 hin
  unfold blitLogo
  rw [State.paint_cell s s.active 0 0 logoW logoH _ (by rw [Nat.zero_add]; exact h1)
    (by rw [Nat.zero_add]; exact h2) b y x hx hy, Nat.sub_zero, Nat.sub_zero]
  congr 1
  apply propext
  constructor
  · rintro ⟨a, ⟨-, c⟩, -, e⟩; exact ⟨a, by rw [Nat.zero_add] at c; exact c, by rw [Nat.zero_add] at e; exact e⟩
  · rintro ⟨a, c, e⟩
    exact ⟨a, ⟨Nat.zero_le _, by rw [Nat.zero_add]; exact c⟩, Nat.zero_le _, by rw [Nat.zero_add]; exact e⟩

end Sys2Proof.Machine
end

