-- ==== Sys2Proof/Laws/Agree.lean ====
section
/-! SUPPORT. Two runs side by side, on states that differ only in the framebuffer and agree on one of its
buffers: every action keeps them so, as long as it draws on and reads from that buffer (20_memory.md R51). -/

namespace Sys2Proof.Machine

/-- Two states configured as `c`, alike but for the framebuffer, whose buffers `b` hold the same cells. -/
structure Agree (c : Config) (b : Bool) (s s' : State) : Prop where
  config : s.cfg = c
  rest : s' = { s with fb := s'.fb }
  cells : ∀ y x, x < s.cfg.width → y < s.cfg.height → s'.cell b y x = s.cell b y x

/-- Two flows that stand at the same place, on states that agree. -/
inductive FlowAgree (c : Config) (b : Bool) : Flow → Flow → Prop
  | going {s s' : State} (h : Agree c b s s') : FlowAgree c b (.going s) (.going s')
  | ended {s s' : State} (h : Agree c b s s') : FlowAgree c b (.ended s) (.ended s')

/-- An update that neither reads nor writes the framebuffer keeps the agreement. -/
theorem Agree.update {c : Config} {b : Bool} {s s' : State} (h : Agree c b s s') (f : State → State)
    (hf : ∀ (t : State) (m : Memory), f { t with fb := m } = { f t with fb := m })
    (hfb : ∀ t, (f t).fb = t.fb) (hcfg : ∀ t, (f t).cfg = t.cfg) (hepoch : ∀ t, (f t).epoch = t.epoch) :
    Agree c b (f s) (f s') := by
  refine ⟨by rw [hcfg, h.config], ?_, fun y x hx hy => ?_⟩
  · rw [hfb]
    have := hf s s'.fb
    rwa [← h.rest] at this
  · rw [hcfg] at hx hy
    have := h.cells y x hx hy
    unfold State.cell State.cellAt at this ⊢
    rw [hfb, hfb, hcfg, hcfg, hepoch, hepoch]
    exact this

theorem FlowAgree.andThen {c : Config} {b : Bool} {f f' : Flow} {k k' : State → Flow} (h : FlowAgree c b f f')
    (hk : ∀ s s', Agree c b s s' → FlowAgree c b (k s) (k' s')) : FlowAgree c b (f.andThen k) (f'.andThen k') := by
  cases h with
  | going h => exact hk _ _ h
  | ended h => exact .ended h

theorem FlowAgree.forEach {α : Type} {c : Config} {b : Bool} (xs : List α) {act act' : α → State → Flow} {s s' : State}
    (h : Agree c b s s') (hk : ∀ x ∈ xs, ∀ s s', Agree c b s s' → FlowAgree c b (act x s) (act' x s')) :
    FlowAgree c b (Flow.forEach xs act s) (Flow.forEach xs act' s') := by
  induction xs generalizing s s' with
  | nil => exact .going h
  | cons x xs ih =>
    exact (hk x (by simp) s s' h).andThen fun t t' ht => ih ht fun y hy => hk y (by simp [hy])

theorem Agree.cfg {c : Config} {b : Bool} {s s' : State} (h : Agree c b s s') : s'.cfg = s.cfg := by rw [h.rest]

theorem Agree.raiseFault {c : Config} {b : Bool} {s s' : State} (h : Agree c b s s') (cause : Cause) (aux : Word) :
    Agree c b (s.raiseFault cause aux) (s'.raiseFault cause aux) :=
  h.update (·.raiseFault cause aux) (fun _ _ => rfl) (fun _ => rfl) (fun _ => rfl) fun _ => rfl

theorem Agree.emitAll {c : Config} {b : Bool} {s s' : State} (h : Agree c b s s') (es : List Event) :
    Agree c b (s.emitAll es) (s'.emitAll es) :=
  h.update (·.emitAll es) (fun t m => by rw [State.emitAll_eq, State.emitAll_eq])
    (fun _ => State.emitAll_fb _ _) (fun _ => State.emitAll_cfg _ _) fun _ => State.emitAll_epoch _ _

theorem Agree.require {c : Config} {b : Bool} {s s' : State} (h : Agree c b s s') (ok : Bool) (cause : Cause)
    {k k' : State → Flow} (hk : ok = true → FlowAgree c b (k s) (k' s')) :
    FlowAgree c b (require ok cause k s) (require ok cause k' s') := by
  cases ok with
  | false => exact .ended (h.raiseFault cause 0#32)
  | true => exact hk rfl

theorem tx_agree {c : Config} {b : Bool} {s s' : State} (h : Agree c b s s') (dc : Level) (bytes : List Byte) :
    FlowAgree c b (tx dc bytes s) (tx dc bytes s') := by
  have hsent : Agree c b (s.emitAll (txEvents s.cfg dc bytes)).takeAnswer
      (s'.emitAll (txEvents s'.cfg dc bytes)).takeAnswer := by
    rw [h.cfg]
    exact (h.emitAll _).update State.takeAnswer (fun _ _ => rfl) (fun _ => rfl) (fun _ => rfl) fun _ => rfl
  have hans : s'.nextAnswer = s.nextAnswer := by rw [h.rest]; rfl
  unfold tx
  rw [hans]
  cases s.nextAnswer with
  | fail => exact .ended (hsent.raiseFault _ _)
  | count n =>
    by_cases hn : n = bytes.length
    · simp only [hn, if_pos]; exact .going hsent
    · simp only [hn, if_false]; exact .ended (hsent.raiseFault _ _)

theorem sendData_agree {c : Config} {b : Bool} {s s' : State} (h : Agree c b s s') (bytes : List Byte) :
    FlowAgree c b (sendData bytes s) (sendData bytes s') := by
  cases bytes with
  | nil => exact .going h
  | cons d ds => exact tx_agree h _ _

theorem sendCmdData_agree {c : Config} {b : Bool} {s s' : State} (h : Agree c b s s') (op : Byte) (data : List Byte) :
    FlowAgree c b (sendCmdData op data s) (sendCmdData op data s') :=
  (tx_agree h _ _).andThen fun _ _ ht => sendData_agree ht data

theorem delay_agree {c : Config} {b : Bool} {s s' : State} (h : Agree c b s s') (ms : Word) :
    FlowAgree c b (delay ms s) (delay ms s') := .going (h.emitAll [.delay ms])

theorem windowSeq_agree {c : Config} {b : Bool} {s s' : State} (h : Agree c b s s') (x0 y0 x1 y1 : Nat) :
    FlowAgree c b (windowSeq x0 y0 x1 y1 s) (windowSeq x0 y0 x1 y1 s') := by
  unfold windowSeq
  rw [h.cfg]
  refine (sendCmdData_agree h _ _).andThen fun t t' ht => ?_
  rw [ht.cfg]
  refine (sendCmdData_agree ht _ _).andThen fun u u' hu => ?_
  rw [hu.cfg]
  exact tx_agree hu _ _

/-- The rows a flip sends are those of the buffer agreed on. -/
theorem rowBytes_agree {c : Config} {b : Bool} {s s' : State} (h : Agree c b s s') {y : Nat} (hy : y < s.cfg.height) :
    s'.rowBytes b y = s.rowBytes b y := by
  unfold State.rowBytes
  rw [h.cfg]
  refine List.flatMap_congr fun x hx => ?_
  rw [h.cells y x (List.mem_range.1 hx) hy]

theorem flipBody_agree {c : Config} {b : Bool} {s s' : State} (h : Agree c b s s') (hb : s.active = b) :
    FlowAgree c b (flipBody s) (flipBody s') := by
  have hb' : s'.active = b := by rw [h.rest]; exact hb
  unfold flipBody
  rw [h.cfg, hb, hb']
  refine (windowSeq_agree h _ _ _ _).andThen fun t t' ht => ?_
  refine FlowAgree.andThen (FlowAgree.forEach (s := t) _ ht fun y hy u u' hu => ?_) fun u u' hu => ?_
  · rw [rowBytes_agree hu (by rw [hu.config, ← h.config]; exact List.mem_range.1 hy)]
    exact sendData_agree hu _
  · exact .going (hu.update (fun t => { t with active := !b }) (fun _ _ => rfl) (fun _ => rfl) (fun _ => rfl)
      fun _ => rfl)

theorem Agree.paintRest {c : Config} {b : Bool} {s s' : State} (h : Agree c b s s') (x y w n : Nat)
    (color : Nat → Nat → Colour) :
    s'.paint b x y w n color = { s.paint b x y w n color with fb := (s'.paint b x y w n color).fb } := by
  obtain ⟨m, rfl⟩ : ∃ m, s' = { s with fb := m } := ⟨_, h.rest⟩
  rw [State.paint_eq s]
  exact State.paint_eq _ b x y w n color

/-- Drawing the same block on the buffer agreed on keeps the agreement. -/
theorem Agree.paint {c : Config} {b : Bool} {s s' : State} (h : Agree c b s s') (x y w n : Nat)
    (color : Nat → Nat → Colour) (hw : x + w ≤ s.cfg.width) (hh : y + n ≤ s.cfg.height) :
    Agree c b (s.paint b x y w n color) (s'.paint b x y w n color) := by
  have hcfg := h.cfg
  refine ⟨by rw [State.paint_cfg, h.config], h.paintRest .., fun y' x' hx hy => ?_⟩
  · simp only [State.paint_cfg] at hx hy
    rw [State.paint_cell _ _ _ _ _ _ _ hw hh _ _ _ hx hy,
      State.paint_cell _ _ _ _ _ _ _ (by rw [hcfg]; exact hw) (by rw [hcfg]; exact hh) _ _ _
        (by rw [hcfg]; exact hx) (by rw [hcfg]; exact hy), h.cells y' x' hx hy]

/-- A block of no columns or no rows keeps it wherever it stands. -/
theorem Agree.paintNothing {c : Config} {b : Bool} {s s' : State} (h : Agree c b s s') (x y w n : Nat)
    (color : Nat → Nat → Colour) (he : w = 0 ∨ n = 0) :
    Agree c b (s.paint b x y w n color) (s'.paint b x y w n color) := by
  rcases he with rfl | rfl
  · refine ⟨by rw [State.paint_cfg, h.config], h.paintRest .., fun y' x' hx hy => ?_⟩
    · rw [(s.paint_noColumns _ _ _ _ _).1, (s'.paint_noColumns _ _ _ _ _).1]
      exact h.cells y' x' (by simpa using hx) (by simpa using hy)
  · rw [State.paint_zero, State.paint_zero]; exact h

end Sys2Proof.Machine
end

