-- ==== Sys2Proof/Laws/Encoding.lean ====
section
/-! SUPPORT. Fields of words laid side by side: what the decoder reads from a word the encoder built, and
that a word is its fields (30_encoding.md R71, R72). -/

namespace Sys2Proof

/-- The bits of an argument word. -/
theorem getLsbD_argWordOf (hi lo : Colour) (k : Nat) :
    (argWordOf hi lo).getLsbD k = if k < 16 then lo.getLsbD k else hi.getLsbD (k - 16) :=
  BitVec.getLsbD_append ..

@[simp] theorem argHi_argWordOf (hi lo : Colour) : argHi (argWordOf hi lo) = hi := by
  refine BitVec.eq_of_getLsbD_eq fun k hk => ?_
  simp [argHi, getLsbD_argWordOf, hk, -BitVec.getLsbD_eq_getElem]

@[simp] theorem argLo_argWordOf (hi lo : Colour) : argLo (argWordOf hi lo) = lo := by
  refine BitVec.eq_of_getLsbD_eq fun k hk => ?_
  simp [argLo, getLsbD_argWordOf, hk, -BitVec.getLsbD_eq_getElem]

/-- An argument word is its two fields; no bit of it is left over. -/
theorem argWordOf_fields (a : Word) : argWordOf (argHi a) (argLo a) = a := by
  refine BitVec.eq_of_getLsbD_eq fun k hk => ?_
  rw [getLsbD_argWordOf]
  unfold argHi argLo
  rw [BitVec.getLsbD_extractLsb', BitVec.getLsbD_extractLsb']
  split
  · simp [*]
  · rw [show 16 + (k - 16) = k by omega, decide_eq_true (show k - 16 < 16 by omega), Bool.true_and]

@[simp] theorem field16_toNat (c : Colour) : field16 c.toNat = c := by simp [field16]

theorem toNat_field16 {n : Nat} (h : n < 65536) : (field16 n).toNat = n := by simp [field16]; omega

/-- The bits of a head word. -/
theorem getLsbD_headWordOf (op : Byte) (i inv dw : Bool) (imm : Colour) (k : Nat) :
    (headWordOf op i inv dw imm).getLsbD k =
      if k < 16 then imm.getLsbD k else if k < 21 then false else if k < 22 then (dw && decide (k = 21))
      else if k < 23 then (inv && decide (k = 22)) else if k < 24 then (i && decide (k = 23))
      else op.getLsbD (k - 24) := by
  have h : (headWordOf op i inv dw imm).getLsbD k =
      BitVec.getLsbD (w := 8 + 1 + 1 + 1 + 5 + 16)
        (op ++ BitVec.ofBool i ++ BitVec.ofBool inv ++ BitVec.ofBool dw ++ 0#5 ++ imm) k := rfl
  rw [h]
  simp only [BitVec.getLsbD_append, BitVec.getLsbD_ofBool, BitVec.getLsbD_zero]
  repeat' split
  all_goals first
    | rfl
    | omega
    | (congr 1; omega)
    | (rw [decide_eq_true (by omega), decide_eq_true (by omega), Bool.true_and, Bool.and_true])

@[simp] theorem headOp_headWordOf (op : Byte) (i inv dw : Bool) (imm : Colour) :
    headOp (headWordOf op i inv dw imm) = op := by
  refine BitVec.eq_of_getLsbD_eq fun k hk => ?_
  unfold headOp
  rw [BitVec.getLsbD_extractLsb', getLsbD_headWordOf, decide_eq_true hk, Bool.true_and]
  simp only [show ¬ 24 + k < 16 by omega, show ¬ 24 + k < 21 by omega, show ¬ 24 + k < 22 by omega,
    show ¬ 24 + k < 23 by omega, show ¬ 24 + k < 24 by omega, if_false, Nat.add_sub_cancel_left]

@[simp] theorem headI_headWordOf (op : Byte) (i inv dw : Bool) (imm : Colour) :
    headI (headWordOf op i inv dw imm) = i := by unfold headI; rw [getLsbD_headWordOf]; simp

@[simp] theorem headInv_headWordOf (op : Byte) (i inv dw : Bool) (imm : Colour) :
    headInv (headWordOf op i inv dw imm) = inv := by unfold headInv; rw [getLsbD_headWordOf]; simp

@[simp] theorem headDw_headWordOf (op : Byte) (i inv dw : Bool) (imm : Colour) :
    headDw (headWordOf op i inv dw imm) = dw := by unfold headDw; rw [getLsbD_headWordOf]; simp

@[simp] theorem headImm_headWordOf (op : Byte) (i inv dw : Bool) (imm : Colour) :
    headImm (headWordOf op i inv dw imm) = imm := by
  refine BitVec.eq_of_getLsbD_eq fun k hk => ?_
  unfold headImm
  rw [BitVec.getLsbD_extractLsb', getLsbD_headWordOf, decide_eq_true hk, Bool.true_and, Nat.zero_add,
    if_pos hk]

/-- The character code is the low byte of `IMM16` (R76). -/
theorem headCh_eq (h : Word) : headCh h = ((headImm h).extractLsb' 0 8).toNat := by
  unfold headCh headImm
  congr 1
  ext k hk
  simp

/-- The enable bit is bit 0 of `IMM16` (R76). -/
theorem headEn_eq (h : Word) : headEn h = (headImm h).getLsbD 0 := by simp [headEn, headImm]

end Sys2Proof
end

