-- ==== Sys2Proof/Laws/Panel.lean ====
section
/-! SUPPORT. What the panel observer's count of a window's pixels is (44_transmit.md R205). -/

namespace Sys2Proof.Machine

/-- Where the bounds are in order, the count is the product of the two inclusive extents. -/
theorem Panel.windowCount_of_ordered {p : Panel} (hc : p.colStart ≤ p.colEnd) (hr : p.rowStart ≤ p.rowEnd) :
    p.windowCount = (p.colEnd - p.colStart + 1) * (p.rowEnd - p.rowStart + 1) := by
  have h : ((p.colEnd : Int) - p.colStart + 1) * ((p.rowEnd : Int) - p.rowStart + 1) =
      ((p.colEnd - p.colStart + 1) * (p.rowEnd - p.rowStart + 1) : Nat) := by
    push_cast [hc, hr]
    ring
  rw [Panel.windowCount, h, Int.toNat_natCast]

/-- A window whose columns alone are reversed has no pixel (log entry 17). -/
theorem Panel.windowCount_of_reversed_columns {p : Panel} (hc : p.colEnd < p.colStart)
    (hr : p.rowStart ≤ p.rowEnd) : p.windowCount = 0 :=
  Int.toNat_of_nonpos (mul_nonpos_of_nonpos_of_nonneg (by omega) (by omega))

/-- A window whose rows alone are reversed has no pixel (log entry 17). -/
theorem Panel.windowCount_of_reversed_rows {p : Panel} (hc : p.colStart ≤ p.colEnd)
    (hr : p.rowEnd < p.rowStart) : p.windowCount = 0 :=
  Int.toNat_of_nonpos (mul_nonpos_of_nonneg_of_nonpos (by omega) (by omega))

end Sys2Proof.Machine
end

