-- ==== Sys2Proof/Laws/PerInstr.lean ====
section
/-! SUPPORT. Facts about every command as syntax, one lemma per constructor. -/

namespace Sys2Proof.Laws

open Sys2Proof

/-! ### The number of words (30_encoding.md R70, R74) -/

namespace EncodeLength

/-- A command is encoded in one head word and its row's argument words. -/
def Statement (i : Instr) : Prop := (encode i).length = 1 + i.mnemonic.argWords

theorem init : Statement .init := rfl
theorem on : Statement .on := rfl
theorem off : Statement .off := rfl
theorem bkl (en : Bool) : Statement (.bkl en) := rfl
theorem clear (imm : Bool) (bgc : Colour) : Statement (.clear imm bgc) := rfl
theorem setpxc (x y : Nat) (col : Colour) : Statement (.setpxc x y col) := rfl
theorem setpx (x y : Nat) : Statement (.setpx x y) := rfl
theorem clrpx (x y : Nat) : Statement (.clrpx x y) := rfl
theorem frect (imm : Bool) (x1 y1 x2 y2 : Nat) : Statement (.frect imm x1 y1 x2 y2) := rfl
theorem dchrc (inv dw : Bool) (ch x y : Nat) (fg bg : Colour) : Statement (.dchrc inv dw ch x y fg bg) := rfl
theorem dchr (inv dw : Bool) (ch x y : Nat) : Statement (.dchr inv dw ch x y) := rfl
theorem dimg (imm : Bool) (sel : Nat) : Statement (.dimg imm sel) := rfl
theorem setwin (x0 y0 x1 y1 : Nat) : Statement (.setwin x0 y0 x1 y1) := rfl
theorem flip : Statement .flip := rfl

end EncodeLength

/-! ### The head word of each command (30_encoding.md R71, R74) -/

namespace HeadOpcode

/-- A command's head word carries its row's opcode, and that opcode selects the row. -/
def Statement (i : Instr) : Prop :=
  headOp (encodeHead i) = i.mnemonic.op ∧ opcodeOf (headOp (encodeHead i)) = some i.mnemonic

/-- Whatever the other fields of a head word built from a row's opcode. -/
theorem of_headWordOf (m : Mnemonic) (i inv dw : Bool) (imm : Colour) :
    headOp (headWordOf m.op i inv dw imm) = m.op ∧
      opcodeOf (headOp (headWordOf m.op i inv dw imm)) = some m := by
  rw [headOp_headWordOf]
  exact ⟨rfl, by cases m <;> rfl⟩

theorem init : Statement .init := of_headWordOf .INIT _ _ _ _
theorem on : Statement .on := of_headWordOf .ON _ _ _ _
theorem off : Statement .off := of_headWordOf .OFF _ _ _ _
theorem bkl (en : Bool) : Statement (.bkl en) := of_headWordOf .BKL _ _ _ _
theorem clear (imm : Bool) (bgc : Colour) : Statement (.clear imm bgc) := of_headWordOf .CLEAR _ _ _ _
theorem setpxc (x y : Nat) (col : Colour) : Statement (.setpxc x y col) := of_headWordOf .SETPXC _ _ _ _
theorem setpx (x y : Nat) : Statement (.setpx x y) := of_headWordOf .SETPX _ _ _ _
theorem clrpx (x y : Nat) : Statement (.clrpx x y) := of_headWordOf .CLRPX _ _ _ _
theorem frect (imm : Bool) (x1 y1 x2 y2 : Nat) : Statement (.frect imm x1 y1 x2 y2) :=
  of_headWordOf .FRECT _ _ _ _
theorem dchrc (inv dw : Bool) (ch x y : Nat) (fg bg : Colour) : Statement (.dchrc inv dw ch x y fg bg) :=
  of_headWordOf .DCHRC _ _ _ _
theorem dchr (inv dw : Bool) (ch x y : Nat) : Statement (.dchr inv dw ch x y) := of_headWordOf .DCHR _ _ _ _
theorem dimg (imm : Bool) (sel : Nat) : Statement (.dimg imm sel) := of_headWordOf .DIMG _ _ _ _
theorem setwin (x0 y0 x1 y1 : Nat) : Statement (.setwin x0 y0 x1 y1) := of_headWordOf .SETWIN _ _ _ _
theorem flip : Statement .flip := of_headWordOf .FLIP _ _ _ _

end HeadOpcode

end Sys2Proof.Laws
end

