-- ==== Sys2Proof/Tests/Slice0.lean ====
section
/-! SUPPORT. Tests. Words and expected results are read off spec/ (30_encoding.md R70 to R77 and
95_test_vectors.md, whose fixture FX-A is `fxA`); none comes from the model. Each `test_witness_` theorem
shows a state and operands that meet the hypotheses of the statement it names. -/

namespace Sys2Proof.Tests

open Sys2Proof Sys2Proof.Machine

/-! ### Well-formedness: each check refuses an ill-formed term -/

theorem test_wf_setpxc_x : (Instr.setpxc 65536 0 0#16).wellFormed = false := by decide
theorem test_wf_setpxc_y : (Instr.setpxc 0 65536 0#16).wellFormed = false := by decide
theorem test_wf_setpx : (Instr.setpx 65536 0).wellFormed = false ∧ (Instr.setpx 0 65536).wellFormed = false := by
  decide
theorem test_wf_clrpx : (Instr.clrpx 65536 0).wellFormed = false ∧ (Instr.clrpx 0 65536).wellFormed = false := by
  decide
theorem test_wf_frect :
    (Instr.frect true 65536 0 0 0).wellFormed = false ∧ (Instr.frect true 0 65536 0 0).wellFormed = false ∧
    (Instr.frect true 0 0 65536 0).wellFormed = false ∧ (Instr.frect true 0 0 0 65536).wellFormed = false := by
  decide
theorem test_wf_dchrc :
    (Instr.dchrc false false 256 0 0 0#16 0#16).wellFormed = false ∧
    (Instr.dchrc false false 0 65536 0 0#16 0#16).wellFormed = false ∧
    (Instr.dchrc false false 0 0 65536 0#16 0#16).wellFormed = false := by decide
theorem test_wf_dchr :
    (Instr.dchr false false 256 0 0).wellFormed = false ∧ (Instr.dchr false false 0 65536 0).wellFormed = false ∧
    (Instr.dchr false false 0 0 65536).wellFormed = false := by decide
theorem test_wf_dimg : (Instr.dimg false 65536).wellFormed = false := by decide
theorem test_wf_setwin :
    (Instr.setwin 65536 0 0 0).wellFormed = false ∧ (Instr.setwin 0 65536 0 0).wellFormed = false ∧
    (Instr.setwin 0 0 65536 0).wellFormed = false ∧ (Instr.setwin 0 0 0 65536).wellFormed = false := by decide

/-! ### Decoding: a word of every command, written out as OP, I, INV, DW, reserved, IMM16 and HI, LO -/

theorem test_decode_init : decode [0b00000001_0_0_0_00000_0000000000000000#32] = .command .init [] := by decide
theorem test_decode_on : decode [0b00000010_0_0_0_00000_0000000000000000#32] = .command .on [] := by decide
theorem test_decode_off : decode [0b00000011_0_0_0_00000_0000000000000000#32] = .command .off [] := by decide
theorem test_decode_bkl : decode [0b00000100_0_0_0_00000_0000000000000001#32] = .command (.bkl true) [] := by
  decide
theorem test_decode_clear :
    decode [0b00010000_1_0_0_00000_1010101111001101#32] = .command (.clear true 0xABCD#16) [] := by decide
theorem test_decode_setpxc :
    decode [0b00010001_0_0_0_00000_1010101111001101#32, 0b0000000000000011_0000000000000100#32] =
      .command (.setpxc 3 4 0xABCD#16) [] := by decide
theorem test_decode_setpx :
    decode [0b00010010_0_0_0_00000_0000000000000000#32, 0b0000000000001001_0000000000001000#32] =
      .command (.setpx 9 8) [] := by decide
theorem test_decode_clrpx :
    decode [0b00010011_0_0_0_00000_0000000000000000#32, 0b1111111111111111_0000000000000010#32] =
      .command (.clrpx 65535 2) [] := by decide
theorem test_decode_frect :
    decode [0b00010100_1_0_0_00000_0000000000000000#32, 0b0000000000000001_0000000000000010#32,
      0b0000000000000011_0000000000000100#32] = .command (.frect true 1 2 3 4) [] := by decide
theorem test_decode_dchrc :
    decode [0b00010101_0_1_0_00000_0000000001011010#32, 0b0000000000000111_0000000000000001#32,
      0b0001000100010001_0010001000100010#32] =
      .command (.dchrc true false 0x5A 7 1 0x1111#16 0x2222#16) [] := by decide
theorem test_decode_dchr :
    decode [0b00010110_0_0_1_00000_0000000001000001#32, 0b0000000000000100_0000000000000010#32] =
      .command (.dchr false true 0x41 4 2) [] := by decide
theorem test_decode_dimg :
    decode [0b00010111_1_0_0_00000_0000000000000001#32] = .command (.dimg true 1) [] := by decide
theorem test_decode_setwin :
    decode [0b00100000_0_0_0_00000_0000000000000000#32, 0b0000000000000010_0000000000000011#32,
      0b0000000000000101_0000000000000100#32] = .command (.setwin 2 3 5 4) [] := by decide
theorem test_decode_flip : decode [0b00100001_0_0_0_00000_0000000000000000#32, 7#32] = .command .flip [7#32] := by
  decide

/-- V17 to V23: illegal head words, with the reason. -/
theorem test_decode_illegal :
    decode [0x12800000#32] = .illegal .fixedBits ∧ decode [0x15000141#32] = .illegal .fixedBits ∧
    decode [0x10010000#32] = .illegal .fixedBits ∧ decode [0x00000000#32] = .illegal .unassignedOpcode ∧
    decode [0x22000000#32] = .illegal .unassignedOpcode ∧ decode [0x18000000#32] = .illegal .unassignedOpcode ∧
    decode [0xFF000000#32] = .illegal .unassignedOpcode ∧ decode [0x04000002#32] = .illegal .fixedBits ∧
    decode [0x11A000F8#32] = .illegal .fixedBits ∧ decode [0x21000001#32] = .illegal .fixedBits := by decide

/-- A table row's number holds the first word in its low 32 bits. -/
theorem test_decodeTableWord : decodeTableWord 64 0x00030004_1100ABCD = some (.setpxc 3 4 0xABCD#16) := by decide

/-! ### Fixtures -/

/-- The font of the fixtures: 'A', 'B', and blanks. -/
def fontAB : List Glyph :=
  (List.range 96).map fun i =>
    if i = 0x21 then #v[0x7C#8, 0x12#8, 0x11#8, 0x12#8, 0x7C#8, 0x00#8, 0x00#8, 0x00#8]
    else if i = 0x22 then #v[0x7F#8, 0x49#8, 0x49#8, 0x49#8, 0x36#8, 0x00#8, 0x00#8, 0x00#8]
    else Vector.replicate 8 0x00#8

/-- FX-A. -/
def fxA : Config :=
  { Config.standard with
    width := 10, height := 10, dcPin := some 24#8, defFg := 0xFFFF#16, defBg := 0x0000#16, font := fontAB
    opcSwreset := 0x01#8, opcCaset := 0x2A#8, opcRaset := 0x2B#8, opcRamwr := 0x2C#8
    opcDispon := 0x29#8, opcDispoff := 0x28#8, initScript := [.cmd 0x3A#8 [0x55#8]], tSwreset := 150#32 }

/-- FX-D's pins. -/
def fxD : Config := { fxA with dcPin := some 25#8, rstPin := some 27#8, blPin := some 18#8 }

/-- The geometry of V45. -/
def fx2 : Config := { fxA with width := 2, height := 2 }

/-- FX-C's geometry. -/
def fxC : Config := { fxA with width := 128, height := 32 }

/-- A block of `c` that waits for INIT, its stream and its bus answers given. -/
def fresh (c : Config) (stream : List Word) (answers : List BusAnswer) : State :=
  { State.resetOf c with stream := stream, answers := answers }

/-- A block of `c` in `READY`, nothing sent yet. -/
def ready (c : Config) (stream : List Word) (answers : List BusAnswer) : State :=
  { fresh c stream answers with cstate := .ready }

/-- The answers of a flip of `fx2`. -/
def flip2 : List BusAnswer := [.count 1, .count 4, .count 1, .count 4, .count 1, .count 4, .count 4]

/-- The answers of INIT on FX-A (V40). -/
def initA : List BusAnswer := [.count 1, .count 1, .count 1, .count 1]

/-- The next state of an outcome, if it is one, satisfies `p`. -/
def nextIs (o : Host.Outcome State Fault Refusal) (p : State → Bool) : Bool :=
  match o with
  | .next t => p t
  | .fault _ => false
  | .refused _ => false

theorem exists_next {o : Host.Outcome State Fault Refusal} {P : State → Prop} [DecidablePred P]
    (h : nextIs o (fun t => decide (P t)) = true) : ∃ t, o = .next t ∧ P t := by
  unfold nextIs at h
  split at h
  · exact ⟨_, rfl, of_decide_eq_true h⟩
  · cases h
  · cases h

/-! ### One step of each command -/

/-- V40. -/
theorem test_init_events :
    nextIs (step (fresh fxA [0x01000000#32] initA)) (fun t =>
      t.ev == ([.pinCfg 24#8] ++ transaction fxA 24#8 .low [0x01#8] ++ [.delay 150#32] ++
        transaction fxA 24#8 .low [0x3A#8] ++ transaction fxA 24#8 .high [0x55#8] ++
        transaction fxA 24#8 .low [0x29#8] ++ [.delay 100#32]) &&
      t.cstate == .ready && t.cp == 1#32 && t.dcLvl == .low && t.cell false 9 9 == 0x0000#16) = true := by
  decide +kernel

/-- V42. -/
theorem test_init_again :
    nextIs (step (ready fxA [0x01000000#32] [])) (fun t =>
      t.cause == .reinit && t.finfo0 == 0x01000000#32 && t.cstate == .halted && t.ev == []) = true := by
  decide +kernel

/-- X9. -/
theorem test_on :
    nextIs (step (ready fxA [0x02000000#32] [.count 1])) (fun t =>
      t.ev == transaction fxA 24#8 .low [0x29#8] ++ [.delay 100#32]) = true := by decide +kernel

/-- V44. -/
theorem test_on_short :
    nextIs (step (ready fxA [0x02000000#32] [.count 0])) (fun t =>
      t.cause == .txError && t.finfo1 == 0#32 && t.ev == transaction fxA 24#8 .low [0x29#8]) = true := by
  decide +kernel

/-- X9 and V50. -/
theorem test_off :
    nextIs (step (ready fxA [0x03000000#32] [.count 1])) (fun t =>
      t.ev == transaction fxA 24#8 .low [0x28#8]) = true ∧
    nextIs (step (ready fxA [0x03000000#32] [.fail])) (fun t => t.finfo1 == 0xFFFFFFFF#32) = true := by
  decide +kernel

/-- V43. -/
theorem test_bkl :
    nextIs (step (ready fxA [0x04000001#32] [])) (fun t => t.cp == 1#32 && t.ev == []) = true ∧
    nextIs (step (fresh fxA [0x04000001#32] [])) (fun t => t.cause == .notInit) = true := by decide +kernel

/-- X2, at the edges of the active buffer. -/
theorem test_clear :
    nextIs (step (ready fxA [0x10001234#32] [])) (fun t =>
      t.memRead 0 == 0x1234#16 && t.memRead 99 == 0x1234#16 && (t.fb.get? 100).isNone) = true := by
  decide +kernel

/-- X3. -/
theorem test_setpxc :
    nextIs (step (ready fxA [0x1100ABCD#32, 0x00030004#32] [])) (fun t =>
      t.memRead 43 == 0xABCD#16 && t.fb.length == 1 && t.curFg == 0xFFFF#16) = true := by decide +kernel

/-- V27: no wrap to a smaller coordinate. -/
theorem test_setpxc_bounds :
    nextIs (step (ready fxA [0x11001234#32, 0xFFFF0000#32] [])) (fun t => t.cause == .bounds && t.fb == []) = true := by
  decide +kernel

/-- V24 and V26. -/
theorem test_setpx :
    nextIs (step (ready fxA [0x12000000#32, 0x00090009#32] [])) (fun t => t.cell false 9 9 == 0xFFFF#16) = true ∧
    nextIs (step (ready fxA [0x12000000#32, 0x0000000A#32] [])) (fun t => t.cause == .bounds) = true := by
  decide +kernel

/-- V28. -/
theorem test_clrpx :
    nextIs (step { ready fxA [0x13000000#32, 0x00000000#32] [] with fb := [(0, 0xFFFF#16)] }) (fun t =>
      t.cell false 0 0 == 0x0000#16) = true := by decide +kernel

/-- X1: exactly four cells. -/
theorem test_frect :
    nextIs (step (ready fxA [0x14000000#32, 0x00020002#32, 0x00040004#32] [])) (fun t =>
      t.fb == [(22, 0xFFFF#16), (23, 0xFFFF#16), (32, 0xFFFF#16), (33, 0xFFFF#16)]) = true := by decide +kernel

/-- V31 and V30. -/
theorem test_frect_edges :
    nextIs (step (ready fxA [0x14000000#32, 0x00050005#32, 0x00050014#32] [])) (fun t =>
      t.cstate == .ready && t.fb == []) = true ∧
    nextIs (step (ready fxA [0x14000000#32, 0x00000000#32, 0x000B0001#32] [])) (fun t => t.cause == .bounds) = true := by
  decide +kernel

/-- X6: rows 0 and 4 of 'A', at column 4. -/
theorem test_dchrc :
    nextIs (step (ready fxA [0x15000041#32, 0x00040002#32, 0x12345678#32] [])) (fun t =>
      [4, 5, 6, 7, 8, 9].map (t.cell false 2) ==
        [0x5678#16, 0x5678#16, 0x1234#16, 0x5678#16, 0x5678#16, 0x5678#16] &&
      [4, 5, 6, 7, 8, 9].map (t.cell false 6) ==
        [0x1234#16, 0x1234#16, 0x1234#16, 0x1234#16, 0x1234#16, 0x5678#16]) = true := by decide +kernel

/-- V37: the font is checked before the bounds. -/
theorem test_dchr_order :
    nextIs (step (ready fxA [0x1600000A#32, 0x00050005#32] [])) (fun t => t.cause == .glyphRange) = true := by
  decide +kernel

/-- V34, row 1 of 'A' in the current colours. -/
theorem test_dchr :
    nextIs (step (ready fxA [0x16000041#32, 0x00040002#32] [])) (fun t =>
      [4, 5, 6, 7, 8, 9].map (t.cell false 3) ==
        [0x0000#16, 0xFFFF#16, 0x0000#16, 0xFFFF#16, 0x0000#16, 0x0000#16]) = true := by decide +kernel

/-- X7 and V39a. -/
theorem test_dimg :
    step (ready fxA [0x1780FFFF#32] []) = .next { ready fxA [0x1780FFFF#32] [] with cp := 1#32 } ∧
    nextIs (step (ready fxA [0x17000000#32] [])) (fun t => t.cause == .bounds) = true := ⟨rfl, by decide +kernel⟩

/-- The first image of the fixtures: the diagonal. -/
def diagonal : LogoBitmap := Vector.ofFn fun y => 1#128 <<< y.val

/-- A known image on FX-C answers a next state. -/
theorem dimg_next :
    exec (.dimg false 0) (ready { fxC with logoA := diagonal } [] []) =
      .next ((blitLogo diagonal (ready { fxC with logoA := diagonal } [] [])).advance 1) := by
  rw [exec_next (by decide), actionsOf, requireReady_ready rfl]; rfl

/-- V39b: on the diagonal, beside it, and at the far corner of the block. -/
theorem test_dimg_diagonal :
    ∃ t, exec (.dimg false 0) (ready { fxC with logoA := diagonal } [] []) = .next t ∧
      t.cell false 31 31 = 0xFFFF#16 ∧ t.cell false 31 30 = 0x0000#16 ∧ t.cell false 0 127 = 0x0000#16 := by
  refine ⟨_, dimg_next, ?_, ?_, ?_⟩ <;>
    rw [State.advance_cell, blitLogo_cell _ _ (by decide) _ _ _ (by decide) (by decide)] <;> decide +kernel

/-- V47: a one-pixel window, and its bytes. -/
theorem test_setwin :
    nextIs (step (ready fxA [0x20000000#32, 0x00030003#32, 0x00030003#32]
      [.count 1, .count 4, .count 1, .count 4, .count 1])) (fun t =>
      t.ev == transaction fxA 24#8 .low [0x2A#8] ++ transaction fxA 24#8 .high [0#8, 3#8, 0#8, 3#8] ++
        transaction fxA 24#8 .low [0x2B#8] ++ transaction fxA 24#8 .high [0#8, 3#8, 0#8, 3#8] ++
        transaction fxA 24#8 .low [0x2C#8]) = true := by decide +kernel

/-- X5. -/
theorem test_setwin_bounds :
    nextIs (step (ready fxA [0x20000000#32, 0x00050000#32, 0x00040009#32] [])) (fun t =>
      t.cause == .bounds && t.ev == []) = true := by decide +kernel

/-- The frame of V45. -/
def frame2 : Memory := [(0, 0x00F8#16), (1, 0x0000#16), (2, 0x1F00#16), (3, 0xFFFF#16)]

/-- V45: the row transactions and the swap. -/
theorem test_flip :
    nextIs (step { ready fx2 [0x21000000#32] flip2 with fb := frame2 }) (fun t =>
      t.active && t.ev.length == 28 &&
      t.ev.drop 20 == transaction fx2 24#8 .high [0xF8#8, 0x00#8, 0x00#8, 0x00#8] ++
        transaction fx2 24#8 .high [0x00#8, 0x1F#8, 0xFF#8, 0xFF#8]) = true := by decide +kernel

/-- V48's rule on the small frame: a short row leaves `ACTIVE` and ends the log with its write. -/
theorem test_flip_short :
    nextIs (step { ready fx2 [0x21000000#32] [.count 1, .count 4, .count 1, .count 4, .count 1, .count 3] with
      fb := frame2 }) (fun t => t.cause == .txError && t.finfo1 == 3#32 && !t.active && t.ev.length == 24) = true := by
  decide +kernel

/-! ### Registers, reset, colours, calls, assembler, panel -/

/-- X12. -/
theorem test_config_fault : (State.resetOf { fxA with dcPin := none }).readRegister 0x02 = 0x00000702#32 := by decide

/-- V52 and V53. -/
theorem test_registers :
    (State.resetOf fxD).readRegister 0x08 = 0x00121B19#32 ∧ (State.resetOf fxD).readRegister 0x07 = 0xFFFF0000#32 ∧
    (State.resetOf fxD).readRegister 0x0A = 0x00E4E1C0#32 ∧ (State.resetOf fxD).readRegister 0x0B = 0#32 ∧
    ({ State.resetOf fxD with cstate := .halted, cause := .bounds, active := true } : State).readRegister 0x02 =
      0x00000412#32 := by decide

/-- V1, V4, V6 and V9. -/
theorem test_makeColor :
    makeColor 31 0 0 = some 0x00F8#16 ∧ makeColor 31 31 31 = some 0xDFFF#16 ∧ makeColor 16 8 4 = some 0x0482#16 ∧
    makeColor 32 0 0 = none := by decide

/-- X6. -/
theorem test_drawText :
    (ApiCall.drawTextColor 0 0 [0x41#8, 0x42#8] 0xFFFF#16 0x0000#16).words =
      some [0x15000041#32, 0x00000000#32, 0xFFFF0000#32, 0x15000042#32, 0x00060000#32, 0xFFFF0000#32] := by decide

/-- V13 and V9, as assembler lines. -/
theorem test_assembler :
    ({ mnemonic := .DCHR, suffixes := [.INV],
       operands := [.character 'A', .number ['0'], .number ['0']] } : AsmLine).assemble fxA =
      some [0x16400041#32, 0x00000000#32] ∧
    ({ mnemonic := .CLEAR, suffixes := [], operands := [.rgb 32 0 0] } : AsmLine).assemble fxA = none := by decide

/-- V45: the observer's picture. -/
theorem test_panel :
    let p := (Panel.afterEvents fx2 ⟨0, 0, 0, 0, 0, 0, .idle, []⟩ .unset
      (flipEvents { ready fx2 [] [] with fb := frame2 } 24#8))
    p.pixel? 0 0 = some 0xF800#16 ∧ p.pixel? 1 0 = some 0x001F#16 ∧ p.pixel? 1 1 = some 0xFFFF#16 := by
  decide +kernel

/-- R205's count: an ordinary window, and one with reversed columns, which has none (log entry 17). -/
theorem test_windowCount :
    (⟨1, 3, 2, 2, 0, 0, .idle, []⟩ : Panel).windowCount = 3 ∧
    (⟨3, 1, 2, 2, 0, 0, .idle, []⟩ : Panel).windowCount = 0 := by decide

/-! ### Witnesses: states and operands that meet the hypotheses of the statements -/

theorem test_witness_DecodeReadsBackEncode :
    (Instr.dchrc true true 255 65535 65535 0xFFFF#16 0xFFFF#16).wellFormed = true ∧
    (Instr.dimg true 65535).wellFormed = true := by decide

theorem test_witness_EncodeRebuildsDecodedWords :
    decode [0x11ABCDEF#32 &&& 0xFF00FFFF#32, 0xFFFFFFFF#32, 0x01000000#32] =
      .command (.setpxc 65535 65535 0xCDEF#16) [0x01000000#32] := by decide

/-- A row with too few and with enough argument words, and a word of no row. -/
theorem test_witness_HeadWordsSelectTheirRows :
    (∃ row ∈ headRows, 0x14800000#32 &&& row.mask = row.pattern ∧ [7#32].length < row.argWords) ∧
    (∃ row ∈ headRows, 0x14800000#32 &&& row.mask = row.pattern ∧ row.argWords ≤ [7#32, 7#32].length) ∧
    (∀ row ∈ headRows, 0x14C00000#32 &&& row.mask ≠ row.pattern) := by decide

theorem test_witness_StepRunsDecodedCommand :
    (ready fxA [0x04000001#32, 0x21000000#32] []).cstate ≠ .halted ∧
    decode ((ready fxA [0x04000001#32, 0x21000000#32] []).stream.drop
      (ready fxA [0x04000001#32, 0x21000000#32] []).cp.toNat) = .command (.bkl true) [0x21000000#32] := by decide

theorem test_witness_StepWaitsForMissingWords :
    (ready fxA [] []).cstate ≠ .halted ∧ (ready fxA [] []).stream.drop (ready fxA [] []).cp.toNat = [] ∧
    decode ((ready fxA [0x20000000#32, 7#32] []).stream.drop (ready fxA [0x20000000#32, 7#32] []).cp.toNat) =
      .missingArguments .SETWIN := by decide

theorem test_witness_IllegalHeadWordHalts :
    (ready fxA [0x12800000#32] []).cstate ≠ .halted ∧
    (ready fxA [0x12800000#32] []).stream.drop (ready fxA [0x12800000#32] []).cp.toNat = [0x12800000#32] ∧
    decode [0x12800000#32] = .illegal .fixedBits := by decide

/-- A halted block with a DC pin, and one without. -/
theorem test_witness_HaltedControllerHasNoStep :
    ((ready fxA [] []).faulted 0#32 .bounds 0#32).cstate = .halted ∧
    ((ready fxA [] []).faulted 0#32 .bounds 0#32).cfg.dcPin ≠ none ∧
    (State.resetOf { fxA with dcPin := none }).cstate = .halted := by decide

/-- A step that halts on a check, one that halts on the bus, and one that does not halt. -/
theorem test_witness_FaultRecordNamesTheCommand :
    (∃ t, step (ready fxA [0x12000000#32, 0x0000000A#32] []) = .next t ∧ t.cstate = .halted ∧ t.cause ≠ .txError) ∧
    (∃ t, step (ready fxA [0x02000000#32] [.fail]) = .next t ∧ t.cstate = .halted ∧ t.cause = .txError) ∧
    (∃ t, step (ready fxA [0x04000000#32] []) = .next t ∧ t.cstate ≠ .halted) :=
  ⟨⟨_, rfl, rfl, by decide⟩, ⟨_, rfl, rfl, rfl⟩, ⟨_, rfl, by decide⟩⟩

theorem test_witness_CompletedRunWaits :
    ({ ready fxA [0x04000000#32] [] with cp := 1#32 } : State).runComplete := by decide

theorem test_witness_StateChecksComeFirst :
    (fresh fxA [] []).cstate = .uninit ∧ Instr.flip ≠ .init ∧ (ready fxA [] []).cstate = .ready ∧
    (State.resetOf { fxA with dcPin := none }).cstate = .halted := by decide

/-- Each clause one past its limit. -/
theorem test_witness_CoordinatesOutOfRangeFault :
    (ready fxA [] []).cstate = .ready ∧
    (fxA.width ≤ 10 ∨ fxA.height ≤ 0) ∧ (fxA.width ≤ 0 ∨ fxA.height ≤ 10) ∧
    (10 < 11 ∧ 0 < 1 ∧ (fxA.width < 11 ∨ fxA.height < 1)) ∧ (0 < 1 ∧ 10 < 11 ∧ (fxA.width < 1 ∨ fxA.height < 11)) ∧
    (0x20 ≤ 0x7F ∧ 0x7F < 0x20 + fxA.font.length ∧ (fxA.width < 5 + 6 ∨ fxA.height < 0 + 8)) ∧
    (fxA.width < 0 + 6 ∨ fxA.height < 3 + 8) ∧
    (fxA.width < 128 ∨ fxA.height < 32) ∧
    (4 < 5 ∨ fxA.width ≤ 4 ∨ 9 < 0 ∨ fxA.height ≤ 9) ∧ (9 < 0 ∨ fxA.width ≤ 9 ∨ 10 < 0 ∨ fxA.height ≤ 10) := by
  decide

theorem test_witness_CharactersOutsideFontFault :
    (ready fxA [] []).cstate = .ready ∧ (0x1F < 0x20 ∨ 0x20 + fxA.font.length ≤ 0x1F) ∧
    (0x80 < 0x20 ∨ 0x20 + fxA.font.length ≤ 0x80) := by decide

theorem test_witness_PreciseFaultsChangeNothingElse :
    ∃ t, exec (.setpx 10 0) (ready fxA [] []) = .next t ∧ t.cstate = .halted ∧ t.cause ≠ .txError :=
  ⟨_, rfl, rfl, by decide⟩

/-- A failing write, and a short one. -/
theorem test_witness_TransmissionErrorStopsAtTheWrite :
    (∃ t, exec .on (ready fxA [] [.fail]) = .next t ∧ t.cstate = .halted ∧ t.cause = .txError ∧
      (ready fxA [] [.fail]).answerAt 0 = .fail) ∧
    (∃ t, exec .on (ready fxA [] [.count 4294967295]) = .next t ∧ t.cstate = .halted ∧ t.cause = .txError ∧
      (ready fxA [] [.count 4294967295]).answerAt 0 = .count 4294967295) :=
  ⟨⟨_, rfl, rfl, rfl, rfl⟩, ⟨_, rfl, rfl, rfl, rfl⟩⟩

theorem fxA_valid : fxA.Valid := by decide

/-- A legal state in `READY`, cells written in both buffers. -/
theorem ready_inv (stream : List Word) (answers : List BusAnswer) :
    ({ ready fxA stream answers with fb := [(0, 1#16), (199, 2#16)] } : State).Inv where
  cfg := fxA_valid
  memory := by simp [Memory.wf]
  inWindow := by show ∀ c ∈ [(0, 1#16), (199, 2#16)], c.1 < cellCount fxA; decide
  cause := ⟨fun _ h => (by cases h), fun _ => rfl⟩
  faultRegs := fun _ => ⟨rfl, rfl, rfl⟩
  dcPin := fun h => by cases h
  rstPin := fun _ => rfl
  blPin := fun _ => rfl
  uninit := fun h => by cases h
  colours := fun _ => ⟨rfl, rfl⟩

theorem test_witness_EveryStepKeepsLegalStates :
    ({ ready fxA [0x04000000#32] [] with fb := [(0, 1#16), (199, 2#16)] } : State).Inv ∧
    ∃ t, step { ready fxA [0x04000000#32] [] with fb := [(0, 1#16), (199, 2#16)] } = .next t :=
  ⟨ready_inv _ _, _, rfl⟩

theorem test_witness_ResetIsLegal : fxA.Valid ∧ ({ fxA with dcPin := none } : Config).Valid := by decide

theorem test_witness_HostMovesKeepLegalStates :
    ({ ready fxA [] [] with fb := [(0, 1#16), (199, 2#16)] } : State).Inv := ready_inv [] []

theorem test_witness_LevelRegistersMirrorTheLog :
    (ready fxA [0x02000000#32] [.count 1]).LevelsMirrorLog ∧
    ∃ t, step (ready fxA [0x02000000#32] [.count 1]) = .next t := ⟨⟨rfl, rfl, rfl⟩, _, rfl⟩

theorem test_witness_EventLogOnlyGrows :
    ∃ t, step (ready fxA [0x02000000#32] [.count 1]) = .next t ∧ t.ev ≠ [] :=
  exists_next (by decide +kernel)

theorem test_witness_ConfigurationAndStreamStayFixed :
    ∃ t, step (ready fxA [0x12000000#32, 0x00090009#32] []) = .next t := ⟨_, rfl⟩

theorem test_witness_CommandPointerAdvancesByLength :
    (∃ t, step (ready fxA [0x12000000#32, 0x00090009#32] []) = .next t ∧ t.cstate ≠ .halted) ∧
    (∃ t, step (ready fxA [0x12000000#32, 0x000A0009#32] []) = .next t ∧ t.cstate = .halted) :=
  ⟨exists_next (by decide +kernel), ⟨_, rfl, rfl⟩⟩

/-- INIT from `UNINIT`, a command that stays in `READY`, and one that halts. -/
theorem test_witness_LifecycleHasNoOtherMoves :
    (∃ t, exec .init (fresh fxA [] initA) = .next t ∧ t.cstate = .ready) ∧
    (∃ t, exec (.bkl true) (ready fxA [] []) = .next t ∧ t.cstate = .ready) ∧
    (∃ t, exec .flip (fresh fxA [] []) = .next t ∧ t.cstate = .halted) :=
  ⟨exists_next (by decide +kernel), ⟨_, rfl, rfl⟩, ⟨_, rfl, rfl⟩⟩

theorem test_witness_OnlyFlipsChangeActive :
    ∃ t, exec .flip (ready fx2 [] flip2) = .next t ∧ t.active ≠ (ready fx2 [] flip2).active :=
  exists_next (by decide +kernel)

/-- The other buffer, and a cell just outside the rectangle. -/
theorem test_witness_CellsOutsideTheTargetAreKept :
    (∃ t, exec (.frect false 2 2 4 4) (ready fxA [] []) = .next t) ∧ 9 < fxA.width ∧ 9 < fxA.height ∧
    (true ≠ (ready fxA [] []).active ∨ (Instr.frect false 2 2 4 4).targets 9 9 = false) ∧
    (false ≠ (ready fxA [] []).active ∨ (Instr.frect false 2 2 4 4).targets 4 3 = false) :=
  ⟨⟨_, rfl⟩, by decide, by decide, by decide, by decide⟩

/-- Without a fault, with pins of their own, and with no event. -/
theorem test_witness_RegistersOutsideTheEffectAreKept :
    (∃ t, exec .on (ready fxD [] [.count 1]) = .next t ∧ t.cstate ≠ .halted) ∧ Instr.on ≠ .init ∧
    fxD.rstPin ≠ fxD.dcPin ∧ fxD.blPin ≠ fxD.dcPin ∧
    (∃ t, exec (.setpx 0 0) (ready fxD [] []) = .next t ∧ t.ev = (ready fxD [] []).ev) :=
  ⟨exists_next (by decide +kernel), by decide, by decide, by decide, exists_next (by decide +kernel)⟩

/-- A framebuffer that differs in the other buffer only. -/
theorem test_witness_InactiveBufferIsNeverRead :
    (∀ y x, x < fx2.width → y < fx2.height →
      ({ ready fx2 [] flip2 with fb := [(4, 0x1234#16)] } : State).cell (ready fx2 [] flip2).active y x =
        (ready fx2 [] flip2).cell (ready fx2 [] flip2).active y x) ∧
    ∃ t, exec .flip (ready fx2 [] flip2) = .next t := by
  refine ⟨fun y x hx hy => ?_, _, rfl⟩
  have hx : x < 2 := hx
  have hy : y < 2 := hy
  have hne : (4 : Nat) ≠ cellIndex fx2 false y x := by
    show 4 ≠ (0 * 2 + y) * 2 + x
    omega
  show State.cellAt _ _ = State.cellAt _ _
  unfold State.cellAt
  show (match (if 4 = cellIndex fx2 false y x then some 0x1234#16 else none) with | some v => v | none => _) = _
  rw [if_neg hne]
  rfl

theorem test_witness_RasterizerWorksInMemoryOnly :
    (Instr.setpx 9 9).rasterizer = true ∧ (∃ t, exec (.setpx 9 9) (ready fxA [] []) = .next t) ∧
    (Instr.setpx 9 9).flips = false := ⟨rfl, ⟨_, rfl⟩, rfl⟩

/-- The latch off, a fault, and the latch on for SETPXC, DCHRC and another command. -/
theorem test_witness_ColoursAreLatchedOnlyWhenConfigured :
    ((∃ t, exec (.setpxc 9 9 1#16) (ready fxA [] []) = .next t) ∧ fxA.colorLatch = false) ∧
    (∃ t, exec (.setpxc 10 9 1#16) (ready fxA [] []) = .next t ∧ t.cstate = .halted) ∧
    ((∃ t, exec (.setpxc 9 9 1#16) (ready { fxA with colorLatch := true } [] []) = .next t ∧ t.cstate ≠ .halted) ∧
      (∃ t, exec (.dchrc false false 0x41 4 2 1#16 2#16) (ready { fxA with colorLatch := true } [] []) = .next t ∧
        t.cstate ≠ .halted) ∧
      (∃ t, exec (.bkl true) (ready { fxA with colorLatch := true } [] []) = .next t ∧ t.cstate ≠ .halted)) ∧
    (Instr.bkl true).mnemonic ≠ .SETPXC ∧ (Instr.bkl true).mnemonic ≠ .DCHRC :=
  ⟨⟨⟨_, rfl⟩, rfl⟩, ⟨_, rfl, rfl⟩,
    ⟨exists_next (by decide +kernel), exists_next (by decide +kernel), exists_next (by decide +kernel)⟩,
    by decide, by decide⟩

theorem test_witness_BacklightCommandChangesOnlyThePointer : (ready fxA [] []).cstate = .ready := rfl

theorem test_witness_DisplayOnAndOffSendOneCommand :
    (ready fxA [] [.count 1]).cstate = .ready ∧ fxA.dcPin = some 24#8 ∧
    (ready fxA [] [.count 1]).answersInFull [1] ∧
    ¬ (ready fxA [] [.count 0]).answersInFull [1] ∧ ¬ (ready fxA [] [.count 2]).answersInFull [1] ∧
    ¬ (ready fxA [] [.fail]).answersInFull [1] := by decide

theorem test_witness_InitBringsTheBlockUp :
    (fresh fxA [] initA).cstate = .uninit ∧ fxA.dcPin = some 24#8 ∧
    (fresh fxA [] initA).answersInFull (writeLengths (initEvents fxA 24#8)) := by decide

/-- A write before the display-on command failing, and that command failing. -/
theorem test_witness_FailedInitClearsOnlyAtTheEnd :
    ∃ before, initEvents fxA 24#8 = before ++ transaction fxA 24#8 .low [fxA.opcDispon] ++ [.delay fxA.tOn] ∧
      ((fresh fxA [] [.fail]).cstate = .uninit ∧ (∃ t, exec .init (fresh fxA [] [.fail]) = .next t) ∧
        ¬ (fresh fxA [] [.fail]).answersInFull (writeLengths before)) ∧
      ((fresh fxA [] [.count 1, .count 1, .count 1, .fail]).cstate = .uninit ∧
        (∃ t, exec .init (fresh fxA [] [.count 1, .count 1, .count 1, .fail]) = .next t) ∧
        (fresh fxA [] [.count 1, .count 1, .count 1, .fail]).answersInFull (writeLengths before) ∧
        (fresh fxA [] [.count 1, .count 1, .count 1, .fail]).answerAt (writeLengths before).length ≠ .count 1) :=
  ⟨bringUpPinEvents fxA 24#8 ++ transaction fxA 24#8 .low [fxA.opcSwreset] ++ [.delay fxA.tSwreset] ++
      fxA.initScript.flatMap (scriptStepEvents fxA 24#8),
    rfl, ⟨rfl, ⟨_, rfl⟩, by decide⟩, ⟨rfl, ⟨_, rfl⟩, by decide, by decide⟩⟩

theorem test_witness_ClearFillsTheActiveBuffer :
    (ready fxA [] []).cstate = .ready ∧ 9 < fxA.width ∧ 9 < fxA.height := by decide

theorem test_witness_PixelCommandsWriteOneCell :
    (ready fxA [] []).cstate = .ready ∧ 9 < fxA.width ∧ 9 < fxA.height := by decide

/-- Empty by either side, whatever the other coordinates, and the whole display. -/
theorem test_witness_FilledRectangleIsHalfOpen :
    (ready fxA [] []).cstate = .ready ∧ ((5 ≤ 5 ∨ 20 ≤ 5) ∨ (5 ≤ fxA.width ∧ 20 ≤ fxA.height)) ∧
    ((65535 ≤ 0 ∨ 5 ≤ 5) ∨ (65535 ≤ fxA.width ∧ 5 ≤ fxA.height)) ∧
    ((10 ≤ 0 ∨ 10 ≤ 0) ∨ (10 ≤ fxA.width ∧ 10 ≤ fxA.height)) := by decide

theorem test_witness_GlyphCommandsRenderOneCell :
    (ready fxA [] []).cstate = .ready ∧ 0x20 ≤ 0x7F ∧ fxA.font[0x7F - 0x20]? = some (Vector.replicate 8 0x00#8) ∧
    4 + 6 ≤ fxA.width ∧ 2 + 8 ≤ fxA.height := ⟨rfl, by decide, rfl, by decide, by decide⟩

theorem test_witness_ImageCommandWritesTheBlock :
    (ready fxC [] []).cstate = .ready ∧ (1 = 0 ∨ 1 = 1) ∧ 128 ≤ fxC.width ∧ 32 ≤ fxC.height := by decide

theorem test_witness_UnknownImageIsANoOp : (ready fxA [] []).cstate = .ready ∧ 2 ≤ 2 ∧ 2 ≤ 65535 := by decide

theorem test_witness_ImmediateFlagEndsInAFlip :
    (ready fxA [] []).cstate = .ready ∧
    (∃ t, exec (.clear false 1#16) (ready fxA [] []) = .next t ∧ t.cstate = .ready) ∧
    (∃ t, exec (.frect false 0 0 10 10) (ready fxA [] []) = .next t ∧ t.cstate = .ready) ∧
    (∃ t, exec (.dimg false 0) (ready { fxC with logoA := diagonal } [] []) = .next t ∧ t.cstate = .ready) :=
  ⟨rfl, exists_next (by decide +kernel), exists_next (by decide +kernel),
    ⟨_, dimg_next, by rw [blitLogo_eq]; rfl⟩⟩

theorem test_witness_SetWindowSendsFiveTransactions :
    (ready fxA [] [.count 1, .count 4, .count 1, .count 4, .count 1]).cstate = .ready ∧ fxA.dcPin = some 24#8 ∧
    0 ≤ 9 ∧ 9 < fxA.width ∧ 9 ≤ 9 ∧ 9 < fxA.height ∧
    (ready fxA [] [.count 1, .count 4, .count 1, .count 4, .count 1]).answersInFull [1, 4, 1, 4, 1] ∧
    ¬ (ready fxA [] [.count 1, .count 4, .count 1, .count 4, .fail]).answersInFull [1, 4, 1, 4, 1] := by decide

theorem test_witness_FlipSendsTheFrameAndSwaps :
    (ready fx2 [] flip2).cstate = .ready ∧ fx2.dcPin = some 24#8 ∧ 1 ≤ fx2.width ∧
    (ready fx2 [] flip2).answersInFull ([1, 4, 1, 4, 1] ++ List.replicate fx2.height (2 * fx2.width)) ∧
    ¬ (ready fx2 [] (flip2.dropLast ++ [.count 3])).answersInFull
      ([1, 4, 1, 4, 1] ++ List.replicate fx2.height (2 * fx2.width)) := by decide

/-- A whole frame, and one cut short, for FLIP and for an immediate command. -/
theorem test_witness_ActiveChangesOnlyAfterTheWholeFrame :
    (ready fx2 [] flip2).cstate = .ready ∧ fx2.dcPin = some 24#8 ∧ 1 ≤ fx2.width ∧
    Instr.flip.flips = true ∧ (Instr.clear true 0#16).flips = true ∧
    (∀ imm sel, Instr.clear true 0#16 = .dimg imm sel → sel = 0 ∨ sel = 1) ∧
    (∃ t, exec .flip (ready fx2 [] flip2) = .next t ∧ (t.cstate = .halted → t.cause = .txError)) ∧
    (∃ t, exec (.clear true 0#16) (ready fx2 [] flip2) = .next t ∧ (t.cstate = .halted → t.cause = .txError)) ∧
    (∃ t, exec .flip (ready fx2 [] [.fail]) = .next t ∧ (t.cstate = .halted → t.cause = .txError)) :=
  ⟨rfl, rfl, by decide, rfl, rfl, (fun _ _ h => by cases h), exists_next (by decide +kernel),
    exists_next (by decide +kernel), exists_next (by decide +kernel)⟩

theorem test_witness_FlipLaws :
    fx2.dcPin = some 24#8 ∧
    ∃ t, exec .flip (ready fx2 [] (flip2 ++ flip2)) = .next t ∧ t.cstate ≠ .halted ∧
      ∃ u, exec .flip t = .next u ∧ u.cstate ≠ .halted :=
  ⟨rfl, ⟨_, rfl, by decide +kernel, _, rfl, by decide +kernel⟩⟩

theorem test_witness_FlipSize :
    fx2.dcPin = some 24#8 ∧ 1 ≤ fx2.width ∧ ∃ t, exec .flip (ready fx2 [] flip2) = .next t ∧ t.cstate ≠ .halted :=
  ⟨rfl, by decide, exists_next (by decide +kernel)⟩

theorem test_witness_PanelShowsTheFrameAfterFlip :
    fx2.Valid ∧ fx2.WindowOpcodesDistinct ∧ fx2.dcPin = some 24#8 ∧
    (∃ t, exec .flip (ready fx2 [] flip2) = .next t ∧ t.cstate ≠ .halted) ∧ 1 < fx2.width ∧ 1 < fx2.height :=
  ⟨by decide, by decide, rfl, exists_next (by decide +kernel), by decide, by decide⟩

theorem test_witness_ResetRestoresTheRecord :
    ({ ready fxA [] [] with cfg := { fxA with dcPin := none } } : State).cfg.dcPin = none ∧
    (ready fxA [] []).cfg.dcPin ≠ none := by decide

theorem test_witness_RegisterWindowReadsItsFields : (ready fxA [] []).cfg.Valid ∧ 0x0A < 0x0B := by decide

theorem test_witness_GettersReadTheWindow :
    (ready { fxA with width := 65535, height := 65535 } [] []).cfg.Valid := by decide

/-- The last cell of the window, and the first address beyond it (V54). -/
theorem test_witness_ReadbackReturnsTheCell :
    9 < fxA.width ∧ 9 < fxA.height ∧ ((if true then 1 else 0) * fxA.height + 9) * fxA.width + 9 = 199 ∧
    2 * fxA.width * fxA.height ≤ 200 := by decide

theorem test_witness_MakeColorPacksTheChannels :
    (31 ≤ 31 ∧ 31 ≤ 31 ∧ 31 ≤ 31) ∧ (31 < 32 ∨ 31 < 0 ∨ 31 < 0) ∧ makeColor 31 0 31 = some 0x1FF8#16 := by decide

/-- Each text call at the last column its last character fits, and one past it. -/
theorem test_witness_TextCallsExpandToGlyphs :
    (∀ i < [0x41#8, 0x42#8].length, 65529 + 6 * i < 65536 ∧ 65535 < 65536) ∧
    (∃ i < [0x41#8, 0x42#8].length, 65536 ≤ 65530 + 6 * i ∨ 65536 ≤ 65535) ∧
    (∀ i < [0x41#8, 0x42#8].length, 10921 * 6 + 6 * i < 65536 ∧ 8191 * 8 < 65536) ∧
    (∃ i < [0x41#8, 0x42#8].length, 65536 ≤ 10921 * 6 + 6 * (i + 1) ∨ 65536 ≤ 8192 * 8) := by decide

theorem test_witness_AssembledLinesDecode :
    ({ mnemonic := .BKL, suffixes := [], operands := [.number ['0', 'x', '1']] } : AsmLine).assemble fxA =
      some [0x04000001#32] := by decide

end Sys2Proof.Tests
end

/-! The statements about a step as a whole and about the legal states (00_scope.md, 10_state.md): what a
step leaves of the parameters, and that reset and every step keep to the legal states. -/

namespace Sys2Proof.Machine

/-! ### Running the command at `CP` -/

/-- Where the controller is not halted, a step is the command that the stream holds at `CP`. -/
theorem step_of_command {s : State} {i : Instr} {rest : List Word} (hs : s.cstate ≠ .halted)
    (hd : decode (s.stream.drop s.cp.toNat) = .command i rest) : step s = exec i s := by
  simp only [step, if_neg hs, State.wordsAtCp, hd]

/-- Settles O5: `step`'s equation for a decoded command. -/
theorem stepRunsDecodedCommand : Obligations.StepRunsDecodedCommand := by
  unfold Obligations.StepRunsDecodedCommand
  intro s i rest hs hd
  exact step_of_command hs hd

/-! ### The parameters of a step (10_state.md R32) -/

/-- `t` has the configuration, the command stream and the reset draws of `s`. -/
structure SameParameters (s t : State) : Prop where
  cfg : t.cfg = s.cfg
  stream : t.stream = s.stream
  epoch : t.epoch = s.epoch

theorem SameParameters.trans {s t u : State} (h : SameParameters s t) (h' : SameParameters t u) :
    SameParameters s u :=
  ⟨h'.cfg.trans h.cfg, h'.stream.trans h.stream, h'.epoch.trans h.epoch⟩

theorem State.raiseFault_sameParameters (s : State) (c : Cause) (aux : Word) :
    SameParameters s (s.raiseFault c aux) := ⟨rfl, rfl, rfl⟩

theorem Draws.sameParameters {i : Instr} {s d : State} (h : Draws i s d) : SameParameters s d := by
  rw [h.eq]; exact ⟨rfl, rfl, rfl⟩

theorem BusStart.sameParameters {i : Instr} {s d : State} (h : BusStart i s d) : SameParameters s d := by
  obtain ⟨hcfg, hstream, hepoch, -⟩ := h.fields
  exact ⟨hcfg, hstream, hepoch⟩

theorem StopsIn.sameParameters {s u : State} {es : List Event} (h : StopsIn s es u) : SameParameters s u := by
  obtain ⟨-, hcfg, hstream, hepoch, -⟩ := h.fields
  exact ⟨hcfg, hstream, hepoch⟩

/-- No command writes the parameters. -/
theorem ExecAnswers.sameParameters {i : Instr} {s t : State} (h : ExecAnswers i s t) : SameParameters s t := by
  cases h with
  | check c hc => exact s.raiseFault_sameParameters c 0#32
  | stopped d u es hd hdc hquiet hu => exact hd.sameParameters.trans hu.sameParameters
  | completed d es swap hr hd hdc hswap hquiet ha =>
    exact hd.sameParameters.trans ⟨rfl, rfl, rfl⟩
  | broughtUp es fs hi hu hdc ha hb =>
    exact (BusStart.cleared es hi hu ha).sameParameters.trans ⟨rfl, rfl, rfl⟩

/-- No step writes the parameters. -/
theorem step_sameParameters {s t : State} (h : step s = .next t) : SameParameters s t := by
  obtain ⟨-, -, ⟨i, rest, -, hexec⟩ | ⟨why, -, rfl⟩⟩ := step_cases h
  · exact (exec_cases hexec).sameParameters
  · exact s.raiseFault_sameParameters .illegalCommand 0#32

/-- Settles O21, from the cases of a step. That no cell is redrawn is told by the model's own reset counter
(log entry 15). -/
theorem configurationAndStreamStayFixed : Obligations.ConfigurationAndStreamStayFixed := by
  unfold Obligations.ConfigurationAndStreamStayFixed
  intro s t h
  obtain ⟨hcfg, hstream, hepoch⟩ := step_sameParameters h
  exact ⟨hcfg, hstream, hepoch⟩

/-! ### Legal states between two actions

In the middle of a command a state need not be legal: INIT logs events while `CSTATE` is still `UNINIT`.
What does hold at every point of a command is the part of `State.Inv` that speaks neither of `CSTATE` nor
of the fault registers; the rest is restored where the command ends, in `READY` or in `HALTED`. -/

/-- The part of `State.Inv` that holds between any two actions of a command. -/
structure State.InvMidway (s : State) : Prop where
  cfg : s.cfg.Valid
  memory : s.fb.wf
  inWindow : ∀ c ∈ s.fb, c.1 < cellCount s.cfg
  rstPin : s.cfg.rstPin = none → s.rstLvl = .unset
  blPin : s.cfg.blPin = none → s.blLvl = .unset
  colours : s.cfg.colorLatch = false → s.curFg = s.cfg.defFg ∧ s.curBg = s.cfg.defBg

theorem State.Inv.midway {s : State} (h : s.Inv) : s.InvMidway :=
  ⟨h.cfg, h.memory, h.inWindow, h.rstPin, h.blPin, h.colours⟩

/-- A command that ends in a fault ends in a legal state. -/
theorem State.InvMidway.inv_of_halted {s : State} (h : s.InvMidway) (hs : s.cstate = .halted)
    (hc : s.cause ≠ .noFault) : s.Inv where
  cfg := h.cfg
  memory := h.memory
  inWindow := h.inWindow
  cause := ⟨fun h => absurd h hc, fun h => absurd hs h⟩
  faultRegs := fun h => absurd hs h
  dcPin := fun _ => hs
  rstPin := h.rstPin
  blPin := h.blPin
  uninit := fun h => by rw [hs] at h; cases h
  colours := h.colours

/-- A command that ends in `READY`, with the fault registers clear and a DC pin, ends in a legal state. -/
theorem State.InvMidway.inv_of_ready {s : State} (h : s.InvMidway) (hs : s.cstate = .ready)
    (hc : s.cause = .noFault) (hregs : s.fcp = 0#32 ∧ s.finfo0 = 0#32 ∧ s.finfo1 = 0#32)
    (hdc : s.cfg.dcPin ≠ none) : s.Inv where
  cfg := h.cfg
  memory := h.memory
  inWindow := h.inWindow
  cause := ⟨fun _ => by simp [hs], fun _ => hc⟩
  faultRegs := fun _ => hregs
  dcPin := fun h => absurd h hdc
  rstPin := h.rstPin
  blPin := h.blPin
  uninit := fun h => by rw [hs] at h; cases h
  colours := h.colours

/-- Events keep the levels of absent pins: none of them names such a pin (10_state.md R29). -/
theorem State.InvMidway.afterBus {s : State} (h : s.InvMidway) (es : List Event) :
    (s.afterBus es).InvMidway where
  cfg := h.cfg
  memory := h.memory
  inWindow := h.inWindow
  rstPin := fun hp => by
    have hp : s.cfg.rstPin = none := hp
    rw [State.afterBus_rstLvl, hp, levelAfter_none]; exact h.rstPin hp
  blPin := fun hp => by
    have hp : s.cfg.blPin = none := hp
    rw [State.afterBus_blLvl, hp, levelAfter_none]; exact h.blPin hp
  colours := h.colours

theorem State.InvMidway.faulted {s : State} (h : s.InvMidway) (w : Word) (c : Cause) (aux : Word) :
    (s.faulted w c aux).InvMidway :=
  ⟨h.cfg, h.memory, h.inWindow, h.rstPin, h.blPin, h.colours⟩

/-- The buffer swap, `CSTATE` and `CP` are no part of it. -/
theorem State.InvMidway.withControl {s : State} (h : s.InvMidway) (active : Bool) (cstate : CState) (cp : Word) :
    ({ s with active := active, cstate := cstate, cp := cp } : State).InvMidway :=
  ⟨h.cfg, h.memory, h.inWindow, h.rstPin, h.blPin, h.colours⟩

/-- A drawing step keeps to the framebuffer, and latches colours only where the latch is on. -/
theorem State.InvMidway.draws {i : Instr} {s d : State} (h : s.InvMidway) (hd : Draws i s d) :
    d.InvMidway := by
  obtain ⟨fb, fg, bg, rfl⟩ : ∃ fb fg bg, d = { s with fb := fb, curFg := fg, curBg := bg } :=
    ⟨_, _, _, hd.eq⟩
  refine ⟨h.cfg, hd.wf h.memory, hd.window h.inWindow, h.rstPin, h.blPin, fun hl => ?_⟩
  obtain ⟨hfg, hbg⟩ := hd.latchOff hl
  obtain ⟨hfg', hbg'⟩ := h.colours hl
  exact ⟨hfg.trans hfg', hbg.trans hbg'⟩

/-- INIT's clear is CLEAR's drawing step (43_device.md R167). -/
theorem State.InvMidway.initialClear {s : State} (h : s.InvMidway) : (initialClear s).InvMidway :=
  h.draws (drawsOf_clearActive false s.curBg s)

theorem State.InvMidway.busStart {i : Instr} {s d : State} (h : s.InvMidway) (hd : BusStart i s d) :
    d.InvMidway := by
  cases hd with
  | init => exact h
  | drawn _ hr hd => exact h.draws hd
  | cleared es hi hu ha => exact (h.afterBus es).initialClear

theorem State.InvMidway.stopsIn {s u : State} {es : List Event} (h : s.InvMidway) (hu : StopsIn s es u) :
    u.InvMidway := by
  obtain ⟨pre, bytes, post, -, -, -, rfl⟩ := hu
  exact (h.afterBus _).faulted _ _ _

/-! ### Legal states along a run -/

/-- A fault leaves a legal state legal (60_exceptions.md R226). -/
theorem State.Inv.raiseFault {s : State} (h : s.Inv) {c : Cause} (hc : c ≠ .noFault) (aux : Word) :
    (s.raiseFault c aux).Inv :=
  (h.midway.faulted s.headWord c aux).inv_of_halted rfl hc

theorem Cause.precise.ne_noFault {c : Cause} (h : c.precise) : c ≠ .noFault := by
  rintro rfl
  simp [Cause.precise] at h

/-- A legal state that is not halted has a DC pin and clear fault registers. -/
theorem State.Inv.running {s : State} (h : s.Inv) (hs : s.cstate ≠ .halted) :
    s.cfg.dcPin ≠ none ∧ s.cause = .noFault ∧ s.fcp = 0#32 ∧ s.finfo0 = 0#32 ∧ s.finfo1 = 0#32 :=
  ⟨fun hp => hs (h.dcPin hp), h.cause.2 hs, h.faultRegs hs⟩

/-- Every command keeps the legal states legal. -/
theorem ExecAnswers.inv {i : Instr} {s t : State} (hs : s.Inv) (h : ExecAnswers i s t) : t.Inv := by
  cases h with
  | check c hc => exact hs.raiseFault hc.ne_noFault 0#32
  | stopped d u es hd hdc hquiet hu =>
    obtain ⟨⟨hhalted, hcause, -⟩, -⟩ := hu.fields
    exact ((hs.midway.busStart hd).stopsIn hu).inv_of_halted hhalted (by simp [hcause])
  | completed d es swap hr hd hdc hswap hquiet ha =>
    obtain ⟨hpin, hcause, hregs⟩ := hs.running (by simp [hr])
    have hmid := (hs.midway.draws hd).afterBus es
    obtain ⟨fb, fg, bg, rfl⟩ : ∃ fb fg bg, d = { s with fb := fb, curFg := fg, curBg := bg } :=
      ⟨_, _, _, hd.eq⟩
    exact (hmid.withControl _ _ _).inv_of_ready hr hcause hregs hpin
  | broughtUp es fs hi hu hdc ha hb =>
    obtain ⟨hpin, hcause, hregs⟩ := hs.running (by simp [hu])
    have hmid := (hs.midway.busStart (.cleared es hi hu ha)).afterBus fs
    refine (hmid.withControl _ _ _).inv_of_ready rfl ?_ ?_ ?_
    · simpa [initialClear] using hcause
    · simpa [initialClear] using hregs
    · simpa [initialClear] using hpin

/-- Settles O16: a step ends in `READY`, where it has touched no fault register, or in `HALTED`, with a
cause; up to there every action keeps `State.InvMidway`. The canonical form of memory is the model's
(log entries 3 and 4). -/
theorem everyStepKeepsLegalStates : Obligations.EveryStepKeepsLegalStates := by
  unfold Obligations.EveryStepKeepsLegalStates
  intro s t hs h
  obtain ⟨-, -, ⟨i, rest, -, hexec⟩ | ⟨why, -, rfl⟩⟩ := step_cases h
  · exact (exec_cases hexec).inv hs
  · exact hs.raiseFault (by simp) 0#32

/-! ### The state after reset -/

/-- After a reset the record is legal; without a DC pin it is halted with `CONFIG`
(10_state.md R47, 60_exceptions.md R225). -/
theorem State.afterReset_inv {c : Config} (hc : c.Valid) (answers : List BusAnswer) (draws epoch : Nat) :
    (State.afterReset c answers draws epoch).Inv where
  cfg := hc
  memory := Memory.wf_nil
  inWindow := fun _ h => absurd h List.not_mem_nil
  cause := by
    by_cases hp : c.dcPin = none <;> simp [State.afterReset, hp]
  faultRegs := fun _ => ⟨rfl, rfl, rfl⟩
  dcPin := fun hp => if_pos hp
  rstPin := fun _ => rfl
  blPin := fun _ => rfl
  uninit := fun _ => ⟨rfl, rfl, rfl⟩
  colours := fun _ => ⟨rfl, rfl⟩

/-- A number below 255 is not the pin number `0xFF`. -/
theorem ofNat_fin255_ne_noPin (n : Fin 255) : BitVec.ofNat 8 n.val ≠ 0xFF#8 := by
  intro h
  have : n.val % 256 = 255 := congrArg BitVec.toNat h
  omega

/-- The configuration of `State.reset` is legal, whatever its OPEN parameters are. -/
theorem standardConfig_valid : Config.standard.Valid := by
  refine ⟨by decide, by decide, by decide, by decide, fun h => ?_, by simp [Config.standard],
    by simp [Config.standard], by simp [Config.standard]⟩
  exact ofNat_fin255_ne_noPin _ (Option.some.inj h)

/-- Settles O17: both states are `State.afterReset` of a legal configuration. -/
theorem resetIsLegal : Obligations.ResetIsLegal := by
  unfold Obligations.ResetIsLegal
  exact ⟨State.afterReset_inv standardConfig_valid [] 0 0, fun c hc => State.afterReset_inv hc [] 0 0⟩

end Sys2Proof.Machine

/-! The statements about the registers: what a command does to the log and the levels, how it ends, and what
the host reads in the register window (10_state.md). -/

namespace Sys2Proof.Machine

/-! ### What a command does to the log, the levels and the answers (10_state.md R29, R30) -/

/-- On its way from `s` to `t` the block emitted `es`: the log, the three levels and the answers of `t` are
those of `s.afterBus es`. -/
structure BusEffect (s : State) (es : List Event) (t : State) : Prop where
  cfg : t.cfg = s.cfg
  ev : t.ev = s.ev ++ es
  dcLvl : t.dcLvl = levelAfter s.cfg.dcPin s.dcLvl es
  rstLvl : t.rstLvl = levelAfter s.cfg.rstPin s.rstLvl es
  blLvl : t.blLvl = levelAfter s.cfg.blPin s.blLvl es
  answers : t.answers = s.answers.drop (writeLengths es).length
  draws : t.draws = s.draws + (writeLengths es).length

theorem State.afterBus_busEffect (s : State) (es : List Event) : BusEffect s es (s.afterBus es) :=
  ⟨rfl, rfl, rfl, rfl, rfl, rfl, rfl⟩

theorem BusEffect.trans {s t u : State} {es fs : List Event} (h : BusEffect s es t) (h' : BusEffect t fs u) :
    BusEffect s (es ++ fs) u where
  cfg := h'.cfg.trans h.cfg
  ev := by rw [h'.ev, h.ev, List.append_assoc]
  dcLvl := by rw [h'.dcLvl, h.cfg, h.dcLvl, levelAfter_append]
  rstLvl := by rw [h'.rstLvl, h.cfg, h.rstLvl, levelAfter_append]
  blLvl := by rw [h'.blLvl, h.cfg, h.blLvl, levelAfter_append]
  answers := by rw [h'.answers, h.answers, List.drop_drop, writeLengths_append, List.length_append]
  draws := by rw [h'.draws, h.draws, writeLengths_append, List.length_append, Nat.add_assoc]

/-- Without a new entry in the log nothing was emitted. -/
theorem BusEffect.events_eq_nil {s t : State} {es : List Event} (h : BusEffect s es t) (hev : t.ev = s.ev) :
    es = [] :=
  List.self_eq_append_right.1 (hev.symm.trans h.ev)

/-- The fault action emits nothing (60_exceptions.md R226). -/
theorem State.raiseFault_busEffect (s : State) (c : Cause) (aux : Word) : BusEffect s [] (s.raiseFault c aux) :=
  ⟨rfl, (List.append_nil _).symm, rfl, rfl, rfl, rfl, rfl⟩

/-- A drawing step emits nothing (42_rasterizer.md R136). -/
theorem Draws.busEffect {i : Instr} {s d : State} (h : Draws i s d) : BusEffect s [] d := by
  rw [h.eq]; exact ⟨rfl, (List.append_nil _).symm, rfl, rfl, rfl, rfl, rfl⟩

theorem initialClear_busEffect (s : State) : BusEffect s [] (initialClear s) :=
  (drawsOf_clearActive false s.curBg s).busEffect

/-- Only INIT emits anything before the writes a command may be cut short in. -/
theorem BusStart.busEffect {i : Instr} {s d : State} (h : BusStart i s d) :
    ∃ es, (i ≠ .init → es = []) ∧ BusEffect s es d := by
  cases h with
  | init hi hu => exact ⟨[], fun _ => rfl, by simpa [State.afterBus_nil] using s.afterBus_busEffect []⟩
  | drawn _ hr hd => exact ⟨[], fun _ => rfl, hd.busEffect⟩
  | cleared es hi hu ha =>
    exact ⟨es ++ [], fun hne => absurd hi hne, (s.afterBus_busEffect es).trans (initialClear_busEffect _)⟩

/-- A stop emits a first part of the events it stops among. -/
theorem StopsIn.busEffect {s u : State} {es : List Event} (h : StopsIn s es u) :
    ∃ pre, pre <+: es ∧ BusEffect s pre u := by
  obtain ⟨pre, bytes, post, rfl, -, -, rfl⟩ := h
  exact ⟨pre ++ [.write s.cfg.cs bytes], ⟨post, by simp⟩, rfl, rfl, rfl, rfl, rfl, rfl, rfl⟩

theorem DcOnly.mono {c : Config} {es fs : List Event} (h : DcOnly c es) (hsub : fs ⊆ es) : DcOnly c fs :=
  fun p l hmem => h p l (hsub hmem)

/-- Every command emits a list of events, and every command but INIT drives no pin but the DC pin. -/
theorem ExecAnswers.busEffect {i : Instr} {s t : State} (h : ExecAnswers i s t) :
    ∃ es, (i ≠ .init → DcOnly s.cfg es) ∧ BusEffect s es t := by
  cases h with
  | check c hc => exact ⟨[], fun _ => by simp [DcOnly], s.raiseFault_busEffect c 0#32⟩
  | stopped d u es hd hdc hquiet hu =>
    obtain ⟨es₀, hnil, heff₀⟩ := hd.busEffect
    obtain ⟨pre, hpre, heff⟩ := hu.busEffect
    refine ⟨es₀ ++ pre, fun hi => ?_, heff₀.trans heff⟩
    rw [hnil hi]
    exact (hdc hi).mono hpre.subset
  | completed d es swap hr hd hdc hswap hquiet ha =>
    exact ⟨es, fun _ => hdc, hd.busEffect.trans ⟨rfl, rfl, rfl, rfl, rfl, rfl, rfl⟩⟩
  | broughtUp es fs hi hu hdc ha hb =>
    exact ⟨es ++ [] ++ fs, fun hne => absurd hi hne,
      ((s.afterBus_busEffect es).trans (initialClear_busEffect _)).trans ⟨rfl, rfl, rfl, rfl, rfl, rfl, rfl⟩⟩

/-- Every step emits a list of events. -/
theorem step_busEffect {s t : State} (h : step s = .next t) : ∃ es, BusEffect s es t := by
  obtain ⟨-, -, ⟨i, rest, -, hexec⟩ | ⟨why, -, rfl⟩⟩ := step_cases h
  · obtain ⟨es, -, heff⟩ := (exec_cases hexec).busEffect
    exact ⟨es, heff⟩
  · exact ⟨[], s.raiseFault_busEffect .illegalCommand 0#32⟩

/-- Emitting events keeps the levels the last ones driven. -/
theorem State.LevelsMirrorLog.busEffect {s t : State} {es : List Event} (hs : s.LevelsMirrorLog)
    (h : BusEffect s es t) : t.LevelsMirrorLog where
  dc := by rw [h.dcLvl, h.cfg, h.ev, levelAfter_append, ← hs.dc]
  rst := by rw [h.rstLvl, h.cfg, h.ev, levelAfter_append, ← hs.rst]
  bl := by rw [h.blLvl, h.cfg, h.ev, levelAfter_append, ← hs.bl]

/-- Settles O19: after reset the log is empty, and a step sets each level to the last one driven among the
events it appends. Pins that share a number share their events (log entry 14). -/
theorem levelRegistersMirrorTheLog : Obligations.LevelRegistersMirrorTheLog := by
  unfold Obligations.LevelRegistersMirrorTheLog
  refine ⟨fun c => ⟨rfl, rfl, rfl⟩, fun s t hs h => ?_⟩
  obtain ⟨es, heff⟩ := step_busEffect h
  exact hs.busEffect heff

/-- Settles O20, from the events a step emits. -/
theorem eventLogOnlyGrows : Obligations.EventLogOnlyGrows := by
  unfold Obligations.EventLogOnlyGrows
  intro s t h
  obtain ⟨es, heff⟩ := step_busEffect h
  exact ⟨es, heff.ev⟩

/-! ### How a command ends (10_state.md R25 to R28) -/

/-- `t` is `s` with a fault recorded at its head word; the log, the levels and the cells may differ
(60_exceptions.md R226). -/
structure Halts (s t : State) : Prop where
  cstate : t.cstate = .halted
  fcp : t.fcp = s.cp
  cp : t.cp = s.cp
  finfo0 : t.finfo0 = s.headWord
  ne_noFault : t.cause ≠ .noFault
  ne_config : t.cause ≠ .config
  finfo1 : t.cause ≠ .txError → t.finfo1 = 0#32
  active : t.active = s.active

/-- `t` is what the command `i`, run in `s`, leaves without a fault, as far as `CSTATE`, `CP`, the fault
registers and `ACTIVE` go. -/
structure Completes (i : Instr) (s t : State) : Prop where
  cstate : t.cstate = .ready
  start : s.cstate = .ready ∨ (i = .init ∧ s.cstate = .uninit)
  cp : t.cp = s.cp + BitVec.ofNat 32 (1 + i.mnemonic.argWords)
  faultRegs : t.cause = s.cause ∧ t.fcp = s.fcp ∧ t.finfo0 = s.finfo0 ∧ t.finfo1 = s.finfo1
  active : t.active ≠ s.active →
    i.flips = true ∧ s.cstate = .ready ∧ ∀ imm sel, i = .dimg imm sel → sel = 0 ∨ sel = 1

theorem State.raiseFault_halts (s : State) {c : Cause} (hn : c ≠ .noFault) (hc : c ≠ .config) :
    Halts s (s.raiseFault c 0#32) :=
  ⟨rfl, rfl, rfl, rfl, hn, hc, fun _ => rfl, rfl⟩

theorem Cause.precise.ne_config {c : Cause} (h : c.precise) : c ≠ .config := by
  rintro rfl
  simp [Cause.precise] at h

/-- A write that is not answered in full halts the command at its head word, wherever its writes start. -/
theorem BusStart.halts {i : Instr} {s d u : State} {es : List Event} (hd : BusStart i s d)
    (hu : StopsIn d es u) : Halts s u := by
  obtain ⟨-, -, -, hactive₀, hcp₀, hhead₀, -⟩ := hd.fields
  obtain ⟨⟨hhalted, hcause, hfcp, hfinfo0, hcp⟩, -, -, -, -, hactive, -⟩ := hu.fields
  exact ⟨hhalted, hfcp.trans hcp₀, hcp.trans hcp₀, hfinfo0.trans hhead₀, by simp [hcause], by simp [hcause],
    fun h => absurd hcause h, hactive.trans hactive₀⟩

/-- A command halts or completes. -/
theorem ExecAnswers.halts_or_completes {i : Instr} {s t : State} (h : ExecAnswers i s t) :
    Halts s t ∨ Completes i s t := by
  cases h with
  | check c hc => exact .inl (s.raiseFault_halts hc.ne_noFault hc.ne_config)
  | stopped d u es hd hdc hquiet hu => exact .inl (hd.halts hu)
  | completed d es swap hr hd hdc hswap hquiet ha =>
    obtain ⟨fb, fg, bg, rfl⟩ : ∃ fb fg bg, d = { s with fb := fb, curFg := fg, curBg := bg } :=
      ⟨_, _, _, hd.eq⟩
    refine .inr ⟨hr, .inl hr, rfl, ⟨rfl, rfl, rfl, rfl⟩, fun hne => ?_⟩
    cases swap with
    | false => exact absurd rfl hne
    | true => exact ⟨(hswap rfl).1, hr, (hswap rfl).2⟩
  | broughtUp es fs hi hu hdc ha hb =>
    subst hi
    have hclear : initialClear (s.afterBus es) = { s.afterBus es with fb := (initialClear (s.afterBus es)).fb } :=
      clearActive_eq _ _
    rw [hclear]
    exact .inr ⟨rfl, .inr ⟨rfl, hu⟩, rfl, ⟨rfl, rfl, rfl, rfl⟩, fun hne => absurd rfl hne⟩

/-- A step halts, or completes the command at `CP`; in both cases `s.headWord` stands there. -/
theorem step_halts_or_completes {s t : State} (h : step s = .next t) :
    s.stream[s.cp.toNat]? = some s.headWord ∧
    (Halts s t ∨ ∃ i rest, decode (s.stream.drop s.cp.toNat) = .command i rest ∧ Completes i s t) := by
  obtain ⟨-, hhead, ⟨i, rest, hdec, hexec⟩ | ⟨why, -, rfl⟩⟩ := step_cases h
  · exact ⟨hhead, (exec_cases hexec).halts_or_completes.imp_right fun hcomp => ⟨i, rest, hdec, hcomp⟩⟩
  · exact ⟨hhead, .inl (s.raiseFault_halts (by simp) (by simp))⟩

theorem Completes.not_halted {i : Instr} {s t : State} (h : Completes i s t) : t.cstate ≠ .halted := by
  simp [h.cstate]

/-- Settles O9, from the two ends of a step. -/
theorem faultRecordNamesTheCommand : Obligations.FaultRecordNamesTheCommand := by
  unfold Obligations.FaultRecordNamesTheCommand
  intro s t h
  obtain ⟨hhead, hhalt | ⟨i, rest, -, hcomp⟩⟩ := step_halts_or_completes h
  · exact ⟨fun _ => ⟨hhalt.fcp, hhalt.cp, hhalt.finfo0 ▸ hhead, hhalt.ne_noFault, hhalt.ne_config, hhalt.finfo1⟩,
      fun hne => absurd hhalt.cstate hne⟩
  · exact ⟨fun he => absurd he hcomp.not_halted, fun _ => hcomp.faultRegs⟩

/-- Settles O22, from the two ends of a step. -/
theorem commandPointerAdvancesByLength : Obligations.CommandPointerAdvancesByLength := by
  unfold Obligations.CommandPointerAdvancesByLength
  intro s t h
  obtain ⟨-, hhalt | ⟨i, rest, hdec, hcomp⟩⟩ := step_halts_or_completes h
  · exact ⟨fun hne => absurd hhalt.cstate hne, fun _ => hhalt.cp⟩
  · exact ⟨fun _ => ⟨i, rest, hdec, hcomp.cp⟩, fun he => absurd he hcomp.not_halted⟩

/-- Settles O23, from the two ends of a command. -/
theorem lifecycleHasNoOtherMoves : Obligations.LifecycleHasNoOtherMoves := by
  unfold Obligations.LifecycleHasNoOtherMoves
  intro i s t h
  obtain hhalt | hcomp := (exec_cases h).halts_or_completes
  · exact .inl hhalt.cstate
  · obtain hready | ⟨hi, huninit⟩ := hcomp.start
    · exact .inr (.inl ⟨hready, hcomp.cstate⟩)
    · exact .inr (.inr ⟨hi, huninit, hcomp.cstate⟩)

/-- Settles O24: a command that halts keeps `ACTIVE`, and one that completes changes it by a flip alone. -/
theorem onlyFlipsChangeActive : Obligations.OnlyFlipsChangeActive := by
  unfold Obligations.OnlyFlipsChangeActive
  intro i s t h hne
  obtain hhalt | hcomp := (exec_cases h).halts_or_completes
  · exact absurd hhalt.active hne
  · obtain ⟨hflips, hready, hdimg⟩ := hcomp.active hne
    exact ⟨hflips, hready, hcomp.cstate, hdimg⟩

/-- Settles O26, from the parameters, the end and the events of a command. That no cell is redrawn and no
answer taken is told by the model's own counters (log entries 5 and 15). -/
theorem registersOutsideTheEffectAreKept : Obligations.RegistersOutsideTheEffectAreKept := by
  unfold Obligations.RegistersOutsideTheEffectAreKept
  intro i s t h
  have hexec := exec_cases h
  obtain ⟨hcfg, hstream, hepoch⟩ := hexec.sameParameters
  obtain ⟨es, hdc, heff⟩ := hexec.busEffect
  refine ⟨⟨hcfg, hstream, hepoch⟩, fun hne => ?_, fun hi hp => ?_, fun hi hp => ?_, fun hev => ?_⟩
  · obtain hhalt | hcomp := hexec.halts_or_completes
    · exact absurd hhalt.cstate hne
    · exact hcomp.faultRegs
  · rw [heff.rstLvl, levelAfter_of_dcOnly (hdc hi) hp]
  · rw [heff.blLvl, levelAfter_of_dcOnly (hdc hi) hp]
  · obtain rfl := heff.events_eq_nil hev
    exact ⟨heff.answers, heff.draws, heff.dcLvl, heff.rstLvl, heff.blLvl⟩

/-! ### The register window (10_state.md R34 to R46) -/

/-- A field above `n` bits of others counts in units of `2 ^ n`. -/
theorem toNat_append_eq_add {m n : Nat} (x : BitVec m) (y : BitVec n) :
    (x ++ y).toNat = x.toNat * 2 ^ n + y.toNat := by
  rw [BitVec.toNat_append, ← Nat.shiftLeft_add_eq_or_of_lt y.isLt, Nat.shiftLeft_eq]

theorem pinCode_eq_getD (p : Option Pin) : pinCode p = p.getD 0xFF#8 := by cases p <;> rfl

theorem State.regId_eq (s : State) : s.regId = s.cfg.typeCode.setWidth 32 := by
  apply BitVec.eq_of_toNat_eq
  simp only [State.regId, toNat_append_eq_add, BitVec.toNat_ofNat, BitVec.toNat_setWidth]
  omega

theorem State.regGeom_toNat {s : State} (h : s.cfg.Valid) :
    s.regGeom.toNat = s.cfg.width * 65536 + s.cfg.height := by
  obtain ⟨-, hw, -, hh, -⟩ := h
  simp only [State.regGeom, toNat_append_eq_add, BitVec.toNat_ofNat]
  omega

theorem State.regStatus_toNat (s : State) :
    s.regStatus.toNat = s.cstate.code.toNat + 16 * s.active.toNat + 256 * s.cause.code.toNat := by
  simp only [State.regStatus, toNat_append_eq_add, BitVec.toNat_ofNat, BitVec.toNat_ofBool]
  omega

theorem State.regColors_toNat (s : State) : s.regColors.toNat = s.curFg.toNat * 65536 + s.curBg.toNat :=
  toNat_append_eq_add _ _

theorem State.regPins_toNat (s : State) :
    s.regPins.toNat = (s.cfg.blPin.getD 0xFF#8).toNat * 65536 + (s.cfg.rstPin.getD 0xFF#8).toNat * 256 +
      (s.cfg.dcPin.getD 0xFF#8).toNat := by
  simp only [State.regPins, toNat_append_eq_add, BitVec.toNat_ofNat, pinCode_eq_getD]
  omega

theorem State.regBuscfg_toNat (s : State) :
    s.regBuscfg.toNat = s.cfg.cs.toNat * 256 + 2 * s.cfg.cpol.toNat + s.cfg.cpha.toNat := by
  simp only [State.regBuscfg, toNat_append_eq_add, BitVec.toNat_ofNat, BitVec.toNat_ofBool]
  omega

/-- Past the last register the window reads 0 (10_state.md R46). -/
theorem State.readRegister_of_gt {o : Nat} (h : 0x0A < o) (s : State) : s.readRegister o = 0#32 := by
  obtain ⟨k, rfl⟩ : ∃ k, o = k + 11 := ⟨o - 11, by omega⟩
  rfl

/-- Settles O49, register by register; an offset selects its register by definition. -/
theorem registerWindowReadsItsFields : Obligations.RegisterWindowReadsItsFields := by
  unfold Obligations.RegisterWindowReadsItsFields
  intro s
  refine ⟨s.regId_eq, State.regGeom_toNat, s.regStatus_toNat.trans ?_, rfl, rfl, rfl, rfl, s.regColors_toNat,
    s.regPins_toNat, s.regBuscfg_toNat.trans ?_, rfl, fun o ho => s.readRegister_of_gt ho, fun _ => rfl, rfl⟩
  · congr 1
    · congr 1
      · cases s.cstate <;> rfl
      · cases s.active <;> rfl
    · cases s.cause <;> rfl
  · congr 1
    · cases s.cfg.cpol <;> rfl
    · cases s.cfg.cpha <;> rfl

end Sys2Proof.Machine

/-! The statements about the framebuffer memory (20_memory.md): what a command leaves of the cells, that it
does not read the buffer that is not active, what the pixel commands write, and what the host reads back. -/

namespace Sys2Proof.Machine

/-! ### The cells a command keeps (20_memory.md R51, R67) -/

/-- From `s` to `t` no cell has changed but cells of the active buffer in the target of `i`. -/
def KeepsOtherCells (i : Instr) (s t : State) : Prop :=
  ∀ b y x, x < s.cfg.width → y < s.cfg.height → (b ≠ s.active ∨ i.targets x y = false) →
    t.cell b y x = s.cell b y x

/-- A stop writes no cell. -/
theorem StopsIn.cell {s u : State} {es : List Event} (h : StopsIn s es u) (b : Bool) (y x : Nat) :
    u.cell b y x = s.cell b y x := by
  obtain ⟨pre, bytes, post, -, -, -, rfl⟩ := h
  rfl

/-- INIT's clear is CLEAR's drawing step (43_device.md R167), and both have the whole active buffer as their
target. -/
theorem initialClear_keepsOtherCells (s : State) : KeepsOtherCells .init s (initialClear s) :=
  (drawsOf_clearActive false s.curBg s).cells

/-- Up to the writes that may cut a command short, it has written cells of its target alone. -/
theorem BusStart.keepsOtherCells {i : Instr} {s d : State} (h : BusStart i s d) : KeepsOtherCells i s d := by
  cases h with
  | init hi hu => exact fun _ _ _ _ _ _ => rfl
  | drawn _ hr hd => exact hd.cells
  | cleared es hi hu ha => subst hi; exact initialClear_keepsOtherCells (s.afterBus es)

/-- Every command, faulting or not, writes cells of its target alone. -/
theorem ExecAnswers.keepsOtherCells {i : Instr} {s t : State} (h : ExecAnswers i s t) :
    KeepsOtherCells i s t := by
  cases h with
  | check c hc => exact fun _ _ _ _ _ _ => rfl
  | stopped d u es hd hdc hquiet hu =>
    exact fun b y x hx hy hb => (hu.cell b y x).trans (hd.keepsOtherCells b y x hx hy hb)
  | completed d es swap hr hd hdc hswap hquiet ha => exact hd.cells
  | broughtUp es fs hi hu hdc ha hb => exact (BusStart.cleared es hi hu ha).keepsOtherCells

/-- Settles O25, from the cases of a command. -/
theorem cellsOutsideTheTargetAreKept : Obligations.CellsOutsideTheTargetAreKept := by
  unfold Obligations.CellsOutsideTheTargetAreKept
  intro i s t b y x h
  exact (exec_cases h).keepsOtherCells b y x

/-! ### Two runs that differ in the buffer that is not active (20_memory.md R51)

The actions of a command run side by side on states that agree on the buffer `b` that is active where the
command begins. A drawing step draws on the buffer that is active where it stands, so each lemma about one
asks that this is `b`. -/

theorem Agree.active {c : Config} {b : Bool} {s s' : State} (h : Agree c b s s') : s'.active = s.active := by
  rw [h.rest]

theorem Agree.cstate {c : Config} {b : Bool} {s s' : State} (h : Agree c b s s') : s'.cstate = s.cstate := by
  rw [h.rest]

theorem Agree.curFg {c : Config} {b : Bool} {s s' : State} (h : Agree c b s s') : s'.curFg = s.curFg := by
  rw [h.rest]

theorem Agree.curBg {c : Config} {b : Bool} {s s' : State} (h : Agree c b s s') : s'.curBg = s.curBg := by
  rw [h.rest]

theorem clearActive_agree {c : Config} {b : Bool} {s s' : State} (h : Agree c b s s') (hb : s.active = b)
    (col : Colour) : Agree c b (clearActive col s) (clearActive col s') := by
  unfold clearActive
  rw [h.active, h.cfg, hb]
  exact h.paint _ _ _ _ _ (by simp) (by simp)

theorem setPixel_agree {c : Config} {b : Bool} {s s' : State} (h : Agree c b s s') (hb : s.active = b)
    {x y : Nat} (hin : inPixel s.cfg x y = true) (col : Colour) :
    Agree c b (setPixel x y col s) (setPixel x y col s') := by
  obtain ⟨hx, hy⟩ := (inPixel_iff _ _ _).1 hin
  unfold setPixel
  rw [h.active, hb]
  exact h.paint _ _ _ _ _ (by omega) (by omega)

theorem fillRect_agree {c : Config} {b : Bool} {s s' : State} (h : Agree c b s s') (hb : s.active = b)
    {x1 y1 x2 y2 : Nat} (hin : inRect s.cfg x1 y1 x2 y2 = true) :
    Agree c b (fillRect x1 y1 x2 y2 s) (fillRect x1 y1 x2 y2 s') := by
  unfold fillRect
  rw [h.active, h.curFg, hb]
  by_cases he : x2 - x1 = 0 ∨ y2 - y1 = 0
  · exact h.paintNothing _ _ _ _ _ he
  · have := (inRect_iff _ _ _ _ _).1 hin
    exact h.paint _ _ _ _ _ (by omega) (by omega)

theorem renderGlyph_agree {c : Config} {b : Bool} {s s' : State} (h : Agree c b s s') (hb : s.active = b)
    {x y : Nat} (hin : inGlyph s.cfg x y = true) (i : Nat) (fg bg : Colour) :
    Agree c b (renderGlyph i x y fg bg s) (renderGlyph i x y fg bg s') := by
  obtain ⟨hx, hy⟩ := (inGlyph_iff _ _ _).1 hin
  unfold renderGlyph
  rw [h.active, h.cfg, hb]
  exact h.paint _ _ _ _ _ hx hy

theorem blitLogo_agree {c : Config} {b : Bool} {s s' : State} (h : Agree c b s s') (hb : s.active = b)
    (hin : inImage s.cfg = true) (img : LogoBitmap) : Agree c b (blitLogo img s) (blitLogo img s') := by
  obtain ⟨hw, hh⟩ := (inImage_iff _).1 hin
  unfold blitLogo
  rw [h.active, h.curFg, h.curBg, hb]
  exact h.paint _ _ _ _ _ (by simpa using hw) (by simpa using hh)

theorem latchFg_agree {c : Config} {b : Bool} {s s' : State} (h : Agree c b s s') (fg : Colour) :
    Agree c b (latchFg fg s) (latchFg fg s') :=
  h.update (latchFg fg) (fun _ _ => rfl) (fun _ => rfl) (fun _ => rfl) fun _ => rfl

theorem latchColours_agree {c : Config} {b : Bool} {s s' : State} (h : Agree c b s s') (fg bg : Colour) :
    Agree c b (latchColours fg bg s) (latchColours fg bg s') :=
  h.update (latchColours fg bg) (fun _ _ => rfl) (fun _ => rfl) (fun _ => rfl) fun _ => rfl

theorem immediateFlip_agree {c : Config} {b : Bool} {s s' : State} (h : Agree c b s s') (hb : s.active = b)
    (imm : Bool) : FlowAgree c b (immediateFlip imm s) (immediateFlip imm s') := by
  cases imm with
  | false => exact .going h
  | true => exact flipBody_agree h hb

/-- The state check of a command reads `CSTATE` alone. -/
theorem Agree.requireReady {c : Config} {b : Bool} {s s' : State} (h : Agree c b s s') {k : State → Flow}
    (hk : FlowAgree c b (k s) (k s')) : FlowAgree c b (requireReady k s) (requireReady k s') := by
  unfold Machine.requireReady
  rw [h.cstate]
  exact h.require _ _ fun _ => hk

/-- A check on the configuration comes out alike on both states. -/
theorem Agree.requireCfg {c : Config} {b : Bool} {s s' : State} (h : Agree c b s s') (ok : Config → Bool)
    (cause : Cause) {k : State → Flow} (hk : ok s.cfg = true → FlowAgree c b (k s) (k s')) :
    FlowAgree c b (Machine.require (ok s.cfg) cause k s) (Machine.require (ok s'.cfg) cause k s') := by
  rw [h.cfg]
  exact h.require _ cause hk

/-! ### INIT side by side -/

theorem bringUpPins_agree {c : Config} {b : Bool} {s s' : State} (h : Agree c b s s') :
    Agree c b (resetPulse (backlightBlink (pinsConfigure s)))
      (resetPulse (backlightBlink (pinsConfigure s'))) := by
  simp only [resetPulse, backlightBlink, pinsConfigure, State.emitAll_cfg, h.cfg]
  exact ((h.emitAll _).emitAll _).emitAll _

theorem softwareReset_agree {c : Config} {b : Bool} {s s' : State} (h : Agree c b s s') :
    FlowAgree c b (softwareReset s) (softwareReset s') := by
  unfold softwareReset
  rw [h.cfg]
  exact (tx_agree h _ _).andThen fun _ _ ht => delay_agree ht _

theorem scriptStep_agree {c : Config} {b : Bool} {s s' : State} (h : Agree c b s s') (step : ScriptStep) :
    FlowAgree c b (scriptStep step s) (scriptStep step s') := by
  cases step with
  | cmd op data => exact sendCmdData_agree h op data
  | wait ms => exact delay_agree h ms

theorem registerScript_agree {c : Config} {b : Bool} {s s' : State} (h : Agree c b s s') :
    FlowAgree c b (registerScript s) (registerScript s') := by
  unfold registerScript
  rw [h.cfg]
  exact FlowAgree.forEach _ h fun step _ _ _ ht => scriptStep_agree ht step

theorem onBody_agree {c : Config} {b : Bool} {s s' : State} (h : Agree c b s s') :
    FlowAgree c b (onBody s) (onBody s') := by
  unfold onBody
  rw [h.cfg]
  exact (tx_agree h _ _).andThen fun _ _ ht => delay_agree ht _

theorem initialClear_agree {c : Config} {b : Bool} {s s' : State} (h : Agree c b s s') (hb : s.active = b) :
    Agree c b (initialClear s) (initialClear s') := by
  unfold initialClear
  rw [h.curBg]
  exact clearActive_agree h hb s.curBg

/-- Chaining, where what follows asks more of the state the first action goes on with. -/
theorem FlowAgree.andThen_of_going {c : Config} {b : Bool} {f f' : Flow} {k k' : State → Flow}
    (h : FlowAgree c b f f')
    (hk : ∀ s s', f = .going s → Agree c b s s' → FlowAgree c b (k s) (k' s')) :
    FlowAgree c b (f.andThen k) (f'.andThen k') := by
  cases h with
  | going h => exact hk _ _ rfl h
  | ended h => exact .ended h

/-- Sending does not swap the buffers. -/
theorem Sends.active_eq {s t : State} {f : Flow} (h : Sends s f) (ht : f = .going t) : t.active = s.active := by
  subst ht
  obtain ⟨es, -, he⟩ := h
  by_cases ha : s.answersInFull (writeLengths es)
  · rw [Flow.going.inj (he.full ha), State.afterBus_active]
  · obtain ⟨u, hu, -⟩ := he.short ha
    cases hu

theorem bringUpPins_active (s : State) : (resetPulse (backlightBlink (pinsConfigure s))).active = s.active := by
  simp [resetPulse, backlightBlink, pinsConfigure]

/-- INIT clears the buffer that is active where it begins: what it sends before does not swap the buffers. -/
theorem initActions_agree {c : Config} {b : Bool} {s s' : State} (h : Agree c b s s') (hb : s.active = b) :
    FlowAgree c b (actionsOf .init s) (actionsOf .init s') := by
  unfold actionsOf
  rw [h.cstate]
  refine h.require _ _ fun _ => (softwareReset_agree (bringUpPins_agree h)).andThen_of_going fun t t' hgo ht => ?_
  have htb : t.active = b := by rw [(softwareReset_sends _).active_eq hgo, bringUpPins_active, hb]
  refine (registerScript_agree ht).andThen_of_going fun u u' hgo hu => ?_
  have hub : u.active = b := by rw [(registerScript_sends t).active_eq hgo, htb]
  refine (onBody_agree (initialClear_agree hu hub)).andThen fun v v' hv => ?_
  exact .going (hv.update (fun s => { s with cstate := .ready }) (fun _ _ => rfl) (fun _ => rfl)
    (fun _ => rfl) fun _ => rfl)

/-! ### Every command side by side -/

/-- The actions of a command keep the agreement on the buffer that is active where it begins. -/
theorem actionsOf_agree (i : Instr) {c : Config} {b : Bool} {s s' : State} (h : Agree c b s s')
    (hb : s.active = b) : FlowAgree c b (actionsOf i s) (actionsOf i s') := by
  cases i with
  | init => exact initActions_agree h hb
  | on => exact h.requireReady (onBody_agree h)
  | off => exact h.requireReady (by rw [h.cfg]; exact tx_agree h _ _)
  | bkl en => exact h.requireReady (.going h)
  | clear imm bgc =>
    exact h.requireReady (immediateFlip_agree (clearActive_agree h hb bgc) (by simpa using hb) imm)
  | setpxc x y col =>
    exact h.requireReady <| h.requireCfg (inPixel · x y) _ fun hin =>
      .going (latchFg_agree (setPixel_agree h hb hin col) col)
  | setpx x y =>
    refine h.requireReady <| h.requireCfg (inPixel · x y) _ fun hin => ?_
    rw [h.curFg]
    exact .going (setPixel_agree h hb hin _)
  | clrpx x y =>
    refine h.requireReady <| h.requireCfg (inPixel · x y) _ fun hin => ?_
    rw [h.curBg]
    exact .going (setPixel_agree h hb hin _)
  | frect imm x1 y1 x2 y2 =>
    exact h.requireReady <| h.requireCfg (inRect · x1 y1 x2 y2) _ fun hin =>
      immediateFlip_agree (fillRect_agree h hb hin) (by simpa using hb) imm
  | dchrc inv dw ch x y fg bg =>
    exact h.requireReady <| h.requireCfg (inFont · ch) _ fun _ => h.requireCfg (inGlyph · x y) _ fun hin =>
      .going (latchColours_agree (renderGlyph_agree h hb hin _ fg bg) fg bg)
  | dchr inv dw ch x y =>
    refine h.requireReady <| h.requireCfg (inFont · ch) _ fun _ => h.requireCfg (inGlyph · x y) _ fun hin => ?_
    rw [h.curFg, h.curBg]
    exact .going (renderGlyph_agree h hb hin _ _ _)
  | dimg imm sel =>
    refine h.requireReady ?_
    rw [h.cfg]
    cases logoOf s.cfg sel with
    | none => exact .going h
    | some img =>
      exact h.require _ _ fun hin =>
        immediateFlip_agree (blitLogo_agree h hb hin img) (by simpa using hb) imm
  | setwin x0 y0 x1 y1 =>
    exact h.requireReady <| h.requireCfg (inWindow · x0 y0 x1 y1) _ fun _ => windowSeq_agree h x0 y0 x1 y1
  | flip => exact h.requireReady (flipBody_agree h hb)

theorem FlowAgree.finish {c : Config} {b : Bool} {f f' : Flow} (h : FlowAgree c b f f') (n : Nat) :
    Agree c b (f.finish n) (f'.finish n) := by
  cases h with
  | going h => exact h.update (·.advance n) (fun _ _ => rfl) (fun _ => rfl) (fun _ => rfl) fun _ => rfl
  | ended h => exact h

/-- A command answers states that agree with states that agree. -/
theorem exec_agree {i : Instr} {c : Config} {s s' t : State} (h : Agree c s.active s s')
    (ht : exec i s = .next t) : ∃ t', exec i s' = .next t' ∧ Agree c s.active t t' := by
  obtain ⟨hs, rfl⟩ := exec_inv ht
  exact ⟨_, exec_next (by rwa [h.cstate]) i, (actionsOf_agree i h rfl).finish _⟩

/-- Settles O27, from the two runs side by side. -/
theorem inactiveBufferIsNeverRead : Obligations.InactiveBufferIsNeverRead := by
  unfold Obligations.InactiveBufferIsNeverRead
  intro i s m t hm ht
  have hstart : Agree s.cfg s.active s { s with fb := m } := ⟨rfl, rfl, hm⟩
  obtain ⟨t', ht', hcfg, hrest, hcells⟩ := exec_agree hstart ht
  obtain ⟨m', rfl⟩ : ∃ m', t' = { t with fb := m' } := ⟨_, hrest⟩
  exact ⟨m', ht', fun y x hx hy => hcells y x (by rwa [hcfg]) (by rwa [hcfg])⟩

/-! ### The pixel commands (42_rasterizer.md R124 to R126) -/

/-- In `READY`, at coordinates inside, both checks of a pixel command pass and its drawing step `k` runs. -/
theorem exec_of_inPixel {i : Instr} {s : State} {x y : Nat} {k : State → Flow} (hr : s.cstate = .ready)
    (hin : inPixel s.cfg x y = true)
    (hi : actionsOf i s = requireReady (fun s => require (inPixel s.cfg x y) .bounds k s) s) :
    exec i s = .next ((k s).finish (1 + i.mnemonic.argWords)) := by
  rw [exec_next (by simp [hr]), hi, requireReady_ready hr, hin, require_true]

/-- Settles O35: all three draw with `setPixel`, which writes one cell (20_memory.md R67). -/
theorem pixelCommandsWriteOneCell : Obligations.PixelCommandsWriteOneCell := by
  unfold Obligations.PixelCommandsWriteOneCell
  intro s x0 y0 col hr hx hy
  have hin : inPixel s.cfg x0 y0 = true := (inPixel_iff _ _ _).2 ⟨hx, hy⟩
  refine ⟨⟨_, exec_of_inPixel hr hin rfl, ?_, setPixel_cell x0 y0 col s hin⟩,
    ⟨_, exec_of_inPixel hr hin rfl, ?_, setPixel_cell x0 y0 s.curFg s hin⟩,
    ⟨_, exec_of_inPixel hr hin rfl, ?_, setPixel_cell x0 y0 s.curBg s hin⟩⟩
  all_goals rw [setPixel_eq]; rfl

/-! ### The readback window (20_memory.md R53, R55) -/

/-- The linear index of a cell splits into its buffer and, inside the buffer, its row and column. -/
theorem cellIndex_split {c : Config} {y x : Nat} (hx : x < c.width) (hy : y < c.height) (b : Bool) :
    cellIndex c b y x / (c.width * c.height) = bufferIndex b ∧
    cellIndex c b y x % (c.width * c.height) / c.width = y ∧
    cellIndex c b y x % (c.width * c.height) % c.width = x := by
  have hlt : c.width * y + x < c.width * c.height := by
    calc c.width * y + x < c.width * (y + 1) := by rw [Nat.mul_add_one]; omega
      _ ≤ c.width * c.height := Nat.mul_le_mul_left _ hy
  have hindex : cellIndex c b y x = c.width * c.height * bufferIndex b + (c.width * y + x) := by
    unfold cellIndex; ring
  have hmod : cellIndex c b y x % (c.width * c.height) = c.width * y + x := by
    rw [hindex, Nat.mul_add_mod, Nat.mod_eq_of_lt hlt]
  refine ⟨?_, ?_, ?_⟩
  · rw [hindex, Nat.mul_add_div (by omega), Nat.div_eq_of_lt hlt, Nat.add_zero]
  · rw [hmod, Nat.mul_add_div (by omega), Nat.div_eq_of_lt hx, Nat.add_zero]
  · rw [hmod, Nat.mul_add_mod, Nat.mod_eq_of_lt hx]

theorem bufferIndex_eq_one (b : Bool) : decide (bufferIndex b = 1) = b := by cases b <;> rfl

theorem State.memRead_cellIndex {s : State} {y x : Nat} (hx : x < s.cfg.width) (hy : y < s.cfg.height)
    (b : Bool) : s.memRead (cellIndex s.cfg b y x) = s.cell b y x := by
  obtain ⟨hbuffer, hrow, hcol⟩ := cellIndex_split hx hy b
  simp only [State.memRead, if_pos (cellIndex_lt hx hy), hbuffer, hrow, hcol, bufferIndex_eq_one]

theorem State.memRead_of_ge {s : State} {a : Nat} (h : cellCount s.cfg ≤ a) : s.memRead a = 0x0000#16 :=
  if_neg (Nat.not_lt.2 h)

/-- Settles O51: the host's address is the model's linear index of a cell. -/
theorem readbackReturnsTheCell : Obligations.ReadbackReturnsTheCell := by
  unfold Obligations.ReadbackReturnsTheCell
  intro s
  exact ⟨fun b y x hx hy => State.memRead_cellIndex hx hy b, fun a ha => State.memRead_of_ge ha, fun _ => rfl⟩

end Sys2Proof.Machine

/-! The statements about the encoding: head words and their rows, decoding and encoding, the steps that wait or
halt on what the decoder says, the assembler, the text calls and the getters (30_encoding.md). -/

namespace Sys2Proof

open Machine

/-! ### A head word is its fields (R71) -/

/-- The reserved bits of a head word, `h[20:16]`. -/
def headReserved (h : Word) : BitVec 5 := h.extractLsb' 16 5

@[simp] theorem headReserved_headWordOf (op : Byte) (i inv dw : Bool) (imm : Colour) :
    headReserved (headWordOf op i inv dw imm) = 0#5 := by
  refine BitVec.eq_of_getLsbD_eq fun k hk => ?_
  rw [headReserved, BitVec.getLsbD_extractLsb', getLsbD_headWordOf, if_neg (by omega), if_pos (by omega),
    Bool.and_false, BitVec.getLsbD_zero]

/-- A head word whose reserved bits are 0 is its fields; no bit of it is left over. -/
theorem headWordOf_fields {h : Word} (hr : headReserved h = 0#5) :
    headWordOf (headOp h) (headI h) (headInv h) (headDw h) (headImm h) = h := by
  refine BitVec.eq_of_getLsbD_eq fun k hk => ?_
  rw [getLsbD_headWordOf]
  split_ifs with h16 h21 h22 h23 h24
  · simp [headImm, h16, -BitVec.getLsbD_eq_getElem]
  · have hbit := congrArg (BitVec.getLsbD · (k - 16)) hr
    simp only [headReserved, BitVec.getLsbD_extractLsb', BitVec.getLsbD_zero] at hbit
    rw [decide_eq_true (by omega), Bool.true_and, show 16 + (k - 16) = k by omega] at hbit
    exact hbit.symm
  · obtain rfl : k = 21 := by omega
    simp [headDw]
  · obtain rfl : k = 22 := by omega
    simp [headInv]
  · obtain rfl : k = 23 := by omega
    simp [headI]
  · rw [headOp, BitVec.getLsbD_extractLsb', decide_eq_true (by omega), Bool.true_and,
      show 24 + (k - 24) = k by omega]

theorem eq_headWordOf_iff {h : Word} {op : Byte} {i inv dw : Bool} {imm : Colour} :
    h = headWordOf op i inv dw imm ↔
      headOp h = op ∧ headI h = i ∧ headInv h = inv ∧ headDw h = dw ∧ headReserved h = 0#5 ∧ headImm h = imm := by
  constructor
  · rintro rfl
    simp
  · rintro ⟨rfl, rfl, rfl, rfl, hr, rfl⟩
    exact (headWordOf_fields hr).symm

theorem headOp_and (h m : Word) : headOp (h &&& m) = headOp h &&& headOp m := BitVec.extractLsb'_and

theorem headI_and (h m : Word) : headI (h &&& m) = (headI h && headI m) := BitVec.getLsbD_and

theorem headInv_and (h m : Word) : headInv (h &&& m) = (headInv h && headInv m) := BitVec.getLsbD_and

theorem headDw_and (h m : Word) : headDw (h &&& m) = (headDw h && headDw m) := BitVec.getLsbD_and

theorem headReserved_and (h m : Word) : headReserved (h &&& m) = headReserved h &&& headReserved m :=
  BitVec.extractLsb'_and

theorem headImm_and (h m : Word) : headImm (h &&& m) = headImm h &&& headImm m := BitVec.extractLsb'_and

/-! ### The mask and match test (R75) -/

/-- A row's match is its opcode and nothing else. -/
theorem Mnemonic.pattern_eq (m : Mnemonic) : m.pattern = headWordOf m.op false false false 0#16 := by
  cases m <;> rfl

/-- Every mask keeps the whole opcode and the reserved bits. -/
theorem Mnemonic.mask_op_reserved (m : Mnemonic) :
    headOp m.mask = BitVec.allOnes 8 ∧ headReserved m.mask = BitVec.allOnes 5 := by
  cases m <;> exact ⟨rfl, rfl⟩

/-- The test, field by field: the row's opcode, and 0 in every other bit the mask keeps. -/
theorem fixedBits_iff (m : Mnemonic) (h : Word) :
    h &&& m.mask = m.pattern ↔
      headOp h = m.op ∧ (headI h && headI m.mask) = false ∧ (headInv h && headInv m.mask) = false ∧
        (headDw h && headDw m.mask) = false ∧ headReserved h = 0#5 ∧ headImm h &&& headImm m.mask = 0#16 := by
  obtain ⟨hop, hres⟩ := m.mask_op_reserved
  rw [m.pattern_eq, eq_headWordOf_iff, headOp_and, headI_and, headInv_and, headDw_and, headReserved_and,
    headImm_and, hop, hres, BitVec.and_allOnes, BitVec.and_allOnes]

theorem opcodeOf_op (m : Mnemonic) : opcodeOf m.op = some m := by cases m <;> rfl

/-- A head word decodes to a row exactly if it passes the row's test. -/
theorem decodeHead_eq_ok_iff {h : Word} {m : Mnemonic} : decodeHead h = .ok m ↔ h &&& m.mask = m.pattern := by
  unfold decodeHead
  constructor
  · intro hd
    split at hd
    · cases hd
    · split at hd
      · cases hd; assumption
      · cases hd
  · intro hf
    obtain ⟨hop, -⟩ := (fixedBits_iff m h).1 hf
    simp only [hop, opcodeOf_op, hf, if_true]

/-! ### What decoding answers (R73, R78, R81) -/

theorem decode_of_ok {h : Word} {m : Mnemonic} {ws : List Word} (hd : decodeHead h = .ok m)
    (hl : m.argWords ≤ ws.length) :
    decode (h :: ws) = .command (m.build h (ws.getD 0 0#32) (ws.getD 1 0#32)) (ws.drop m.argWords) := by
  simp only [decode, hd, if_neg (Nat.not_lt.2 hl)]

theorem decode_of_short {h : Word} {m : Mnemonic} {ws : List Word} (hd : decodeHead h = .ok m)
    (hl : ws.length < m.argWords) : decode (h :: ws) = .missingArguments m := by
  simp only [decode, hd, if_pos hl]

theorem decode_of_error {h : Word} {why : IllegalHead} (ws : List Word) (hd : decodeHead h = .error why) :
    decode (h :: ws) = .illegal why := by
  simp only [decode, hd]

/-- A command is decoded from a legal head word and its row's argument words. -/
theorem decode_eq_command {ws : List Word} {i : Instr} {rest : List Word} (hd : decode ws = .command i rest) :
    ∃ h args m, ws = h :: args ∧ decodeHead h = .ok m ∧ m.argWords ≤ args.length ∧
      i = m.build h (args.getD 0 0#32) (args.getD 1 0#32) ∧ rest = args.drop m.argWords := by
  cases ws with
  | nil => cases hd
  | cons h args =>
    cases hh : decodeHead h with
    | error why => rw [decode_of_error args hh] at hd; cases hd
    | ok m =>
      rcases Nat.lt_or_ge args.length m.argWords with hl | hl
      · rw [decode_of_short hh hl] at hd; cases hd
      · rw [decode_of_ok hh hl] at hd; cases hd
        exact ⟨h, args, m, rfl, hh, hl, rfl, rfl⟩

theorem Mnemonic.build_mnemonic (m : Mnemonic) (h a0 a1 : Word) : (m.build h a0 a1).mnemonic = m := by
  cases m <;> rfl

/-! ### Decoding an encoded command (R70 to R77) -/

/-- A value in the low bits leaves the bits above them 0. -/
theorem zero_append_and_mask {m n : Nat} (c : BitVec n) : (0#m ++ c) &&& (BitVec.allOnes m ++ 0#n) = 0#(m + n) := by
  rw [BitVec.and_append, BitVec.zero_and, BitVec.and_zero, BitVec.zero_append_zero]

/-- A head word built from a row's opcode passes the row's test if it is 0 in the other bits the mask keeps. -/
theorem headWordOf_fixedBits (m : Mnemonic) {i inv dw : Bool} {imm : Colour}
    (hi : (i && headI m.mask) = false) (hinv : (inv && headInv m.mask) = false)
    (hdw : (dw && headDw m.mask) = false) (himm : imm &&& headImm m.mask = 0#16) :
    headWordOf m.op i inv dw imm &&& m.mask = m.pattern := by
  rw [fixedBits_iff, headOp_headWordOf, headI_headWordOf, headInv_headWordOf, headDw_headWordOf,
    headReserved_headWordOf, headImm_headWordOf]
  exact ⟨rfl, hi, hinv, hdw, rfl, himm⟩

/-- Every command's head word passes the test of its row, well formed or not. -/
theorem encodeHead_fixedBits (i : Instr) : encodeHead i &&& i.mnemonic.mask = i.mnemonic.pattern :=
  match i with
  | .init => headWordOf_fixedBits .INIT rfl rfl rfl rfl
  | .on => headWordOf_fixedBits .ON rfl rfl rfl rfl
  | .off => headWordOf_fixedBits .OFF rfl rfl rfl rfl
  | .bkl _ => headWordOf_fixedBits .BKL rfl rfl rfl (zero_append_and_mask (m := 15) _)
  | .clear imm _ => headWordOf_fixedBits .CLEAR (Bool.and_false imm) rfl rfl BitVec.and_zero
  | .setpxc _ _ _ => headWordOf_fixedBits .SETPXC rfl rfl rfl BitVec.and_zero
  | .setpx _ _ => headWordOf_fixedBits .SETPX rfl rfl rfl rfl
  | .clrpx _ _ => headWordOf_fixedBits .CLRPX rfl rfl rfl rfl
  | .frect imm _ _ _ _ => headWordOf_fixedBits .FRECT (Bool.and_false imm) rfl rfl rfl
  | .dchrc inv dw _ _ _ _ _ => headWordOf_fixedBits .DCHRC rfl (Bool.and_false inv) (Bool.and_false dw)
      (zero_append_and_mask (m := 8) _)
  | .dchr inv dw _ _ _ => headWordOf_fixedBits .DCHR rfl (Bool.and_false inv) (Bool.and_false dw)
      (zero_append_and_mask (m := 8) _)
  | .dimg imm _ => headWordOf_fixedBits .DIMG (Bool.and_false imm) rfl rfl BitVec.and_zero
  | .setwin _ _ _ _ => headWordOf_fixedBits .SETWIN rfl rfl rfl rfl
  | .flip => headWordOf_fixedBits .FLIP rfl rfl rfl rfl

@[simp] theorem headCh_headWordOf (op : Byte) (i inv dw : Bool) (c : Byte) :
    headCh (headWordOf op i inv dw (0#8 ++ c)) = c.toNat := by
  rw [headCh_eq, headImm_headWordOf, BitVec.extractLsb'_append_eq_right]

@[simp] theorem headEn_headWordOf (op : Byte) (i inv dw en : Bool) :
    headEn (headWordOf op i inv dw (0#15 ++ BitVec.ofBool en)) = en := by
  rw [headEn_eq, headImm_headWordOf]
  cases en <;> rfl

theorem length_encodeArgs (i : Instr) : (encodeArgs i).length = i.mnemonic.argWords := by cases i <;> rfl

/-- Every operand that fits its field is read back from it: one-bit and colour fields always, a number where it
is below 65536, a character code where it is below 256 (R76, R77). -/
theorem build_encode {i : Instr} (hw : i.wellFormed = true) (rest : List Word) :
    i.mnemonic.build (encodeHead i) ((encodeArgs i ++ rest).getD 0 0#32) ((encodeArgs i ++ rest).getD 1 0#32) =
      i := by
  cases i
  case init | on | off | flip => rfl
  case bkl | clear => simp [encodeHead, Instr.mnemonic, Mnemonic.build]
  case setpxc | setpx | clrpx | frect | dimg | setwin =>
    simp only [Instr.wellFormed, decide_eq_true_eq] at hw
    simp [encodeHead, encodeArgs, Instr.mnemonic, Mnemonic.build, toNat_field16, hw]
  case dchrc | dchr =>
    simp only [Instr.wellFormed, decide_eq_true_eq] at hw
    simp [encodeHead, encodeArgs, Instr.mnemonic, Mnemonic.build, toNat_field16, hw, Nat.mod_eq_of_lt]

/-- Settles O1: an encoded head word passes its row's test, and the row reads the operands back. -/
theorem decodeReadsBackEncode : Obligations.DecodeReadsBackEncode := by
  unfold Obligations.DecodeReadsBackEncode
  intro i rest hw
  have hl := length_encodeArgs i
  have hhead : decodeHead (encodeHead i) = .ok i.mnemonic := decodeHead_eq_ok_iff.2 (encodeHead_fixedBits i)
  rw [encode, List.cons_append, decode_of_ok hhead (by simp [hl]), build_encode hw, ← hl,
    List.drop_left]

/-! ### The words of a decoded command (R72, R75 to R77) -/

/-- A value whose bits above the low ones are 0 is its low bits. -/
theorem zero_append_low {m n : Nat} {v : BitVec (m + n)} (h : v &&& (BitVec.allOnes m ++ 0#n) = 0#(m + n)) :
    0#m ++ v.extractLsb' 0 n = v := by
  refine BitVec.eq_of_getLsbD_eq fun k hk => ?_
  rw [BitVec.getLsbD_append]
  split
  case isTrue hlow => simp [hlow, -BitVec.getLsbD_eq_getElem]
  case isFalse hhigh =>
    have hbit := congrArg (BitVec.getLsbD · k) h
    simp only [BitVec.getLsbD_and, BitVec.getLsbD_append, if_neg hhigh, BitVec.getLsbD_allOnes,
      BitVec.getLsbD_zero, decide_eq_true (show k - n < m by omega), Bool.and_true] at hbit
    rw [hbit, BitVec.getLsbD_zero]

theorem ofBool_getLsbD_zero {n : Nat} (v : BitVec n) : BitVec.ofBool (v.getLsbD 0) = v.extractLsb' 0 1 := by
  refine BitVec.eq_of_getLsbD_eq fun k hk => ?_
  obtain rfl : k = 0 := by omega
  simp

/-- The head word of a row whose mask frees bit 0 of `IMM16` alone. -/
theorem headImm_eq_of_enable {h : Word} (himm : headImm h &&& 0xFFFE#16 = 0#16) :
    headImm h = 0#15 ++ BitVec.ofBool (headEn h) := by
  rw [headEn_eq, ofBool_getLsbD_zero]
  exact (zero_append_low (m := 15) (n := 1) himm).symm

/-- The head word of a row whose mask frees the low byte of `IMM16` alone. -/
theorem headImm_eq_of_char {h : Word} (himm : headImm h &&& 0xFF00#16 = 0#16) :
    headImm h = 0#8 ++ BitVec.ofNat 8 (headCh h) := by
  rw [headCh_eq, BitVec.ofNat_toNat, BitVec.setWidth_eq]
  exact (zero_append_low (m := 8) (n := 8) himm).symm

/-- A head word that passes a row's test is the head word of the command the row builds from it: a field
that the command does not carry is 0. -/
theorem encodeHead_build {m : Mnemonic} {h : Word} (hf : h &&& m.mask = m.pattern) (a0 a1 : Word) :
    encodeHead (m.build h a0 a1) = h := by
  obtain ⟨hop, hi, hinv, hdw, hres, himm⟩ := (fixedBits_iff m h).1 hf
  have noI (hm : headI m.mask = true) : headI h = false := by rwa [hm, Bool.and_true] at hi
  have noInv (hm : headInv m.mask = true) : headInv h = false := by rwa [hm, Bool.and_true] at hinv
  have noDw (hm : headDw m.mask = true) : headDw h = false := by rwa [hm, Bool.and_true] at hdw
  have noImm (hm : headImm m.mask = BitVec.allOnes 16) : headImm h = 0#16 := by
    rwa [hm, BitVec.and_allOnes] at himm
  symm
  cases m
  case INIT | ON | OFF | SETPX | CLRPX | SETWIN | FLIP =>
    exact eq_headWordOf_iff.2 ⟨hop, noI rfl, noInv rfl, noDw rfl, hres, noImm rfl⟩
  case BKL => exact eq_headWordOf_iff.2 ⟨hop, noI rfl, noInv rfl, noDw rfl, hres, headImm_eq_of_enable himm⟩
  case CLEAR => exact eq_headWordOf_iff.2 ⟨hop, rfl, noInv rfl, noDw rfl, hres, rfl⟩
  case SETPXC => exact eq_headWordOf_iff.2 ⟨hop, noI rfl, noInv rfl, noDw rfl, hres, rfl⟩
  case FRECT => exact eq_headWordOf_iff.2 ⟨hop, rfl, noInv rfl, noDw rfl, hres, noImm rfl⟩
  case DCHRC | DCHR => exact eq_headWordOf_iff.2 ⟨hop, noI rfl, rfl, rfl, hres, headImm_eq_of_char himm⟩
  case DIMG => exact eq_headWordOf_iff.2 ⟨hop, rfl, noInv rfl, noDw rfl, hres, (field16_toNat _).symm⟩

theorem Mnemonic.argWords_le (m : Mnemonic) : m.argWords ≤ 2 := by cases m <;> decide

theorem encodeArgs_build (m : Mnemonic) (h a0 a1 : Word) :
    encodeArgs (m.build h a0 a1) = [a0, a1].take m.argWords := by
  cases m <;> simp [Mnemonic.build, encodeArgs, Mnemonic.argWords, argWordOf_fields]

theorem build_wellFormed (m : Mnemonic) (h a0 a1 : Word) : (m.build h a0 a1).wellFormed = true := by
  have hch : headCh h < 256 := BitVec.isLt _
  have hfield (c : Colour) : c.toNat < 65536 := c.isLt
  cases m <;> simp [Mnemonic.build, Instr.wellFormed, hch, hfield]

/-- The decoder's two reads of argument words, where the row's words are there. -/
theorem take_getD_pair {k : Nat} {args : List Word} (hk : k ≤ 2) (hl : k ≤ args.length) :
    [args.getD 0 0#32, args.getD 1 0#32].take k = args.take k := by
  match k, args with
  | 0, _ => rfl
  | 1, _ :: _ => rfl
  | 2, _ :: _ :: _ => rfl

/-- Settles O2: every field of the words is either carried by the command the row builds or fixed by the
row's test. -/
theorem encodeRebuildsDecodedWords : Obligations.EncodeRebuildsDecodedWords := by
  unfold Obligations.EncodeRebuildsDecodedWords
  intro ws i rest hd
  obtain ⟨h, args, m, rfl, hh, hl, rfl, rfl⟩ := decode_eq_command hd
  refine ⟨build_wellFormed m _ _ _, ?_⟩
  rw [encode, encodeHead_build (decodeHead_eq_ok_iff.1 hh), encodeArgs_build,
    take_getD_pair m.argWords_le hl, List.cons_append, List.take_append_drop]

/-! ### The printed rows (R74, R75) -/

/-- The row of the printed tables for a mnemonic. -/
def Mnemonic.headRow (m : Mnemonic) : HeadRow := ⟨m, m.argWords, m.mask, m.pattern⟩

/-- The decoder's tables are the printed ones. -/
theorem mem_headRows_iff {row : HeadRow} : row ∈ headRows ↔ row = row.mnemonic.headRow := by
  constructor
  · have hall : ∀ r ∈ headRows, r = r.mnemonic.headRow := by decide
    exact hall row
  · intro hr
    rw [hr]
    cases row.mnemonic <;> decide

/-- Settles O3: the test of a printed row is the decoder's own. -/
theorem headWordsSelectTheirRows : Obligations.HeadWordsSelectTheirRows := by
  unfold Obligations.HeadWordsSelectTheirRows
  intro h rest
  refine ⟨fun row hrow hf => ?_, fun hnone => ?_⟩
  · rw [mem_headRows_iff] at hrow
    have hd : decodeHead h = .ok row.mnemonic := decodeHead_eq_ok_iff.2 (by rwa [hrow] at hf)
    have hk : row.argWords = row.mnemonic.argWords := congrArg HeadRow.argWords hrow
    rw [hk]
    exact ⟨decode_of_short hd, fun hl => ⟨_, decode_of_ok hd hl, Mnemonic.build_mnemonic ..⟩⟩
  · cases hd : decodeHead h with
    | error why => exact ⟨why, decode_of_error rest hd⟩
    | ok m => exact absurd (decodeHead_eq_ok_iff.1 hd) (hnone m.headRow (mem_headRows_iff.2 rfl))

/-- Settles O4, by running the decoder on the nine word lists. -/
theorem sampleWordsDecode : Obligations.SampleWordsDecode := by
  unfold Obligations.SampleWordsDecode
  decide

end Sys2Proof

namespace Sys2Proof.Machine

/-! ### Steps that wait or halt on what the decoder says (R81; 60_exceptions.md R221) -/

theorem step_of_noHeadWord {s : State} (hs : s.cstate ≠ .halted) (hd : s.stream.drop s.cp.toNat = []) :
    step s = .refused .awaitingCommand := by
  simp only [step, if_neg hs, State.wordsAtCp, hd, decode]

theorem step_of_missingArguments {s : State} {m : Mnemonic} (hs : s.cstate ≠ .halted)
    (hd : decode (s.stream.drop s.cp.toNat) = .missingArguments m) : step s = .refused .awaitingArguments := by
  simp only [step, if_neg hs, State.wordsAtCp, hd]

theorem step_of_illegal {s : State} {why : IllegalHead} (hs : s.cstate ≠ .halted)
    (hd : decode (s.stream.drop s.cp.toNat) = .illegal why) :
    step s = .next (s.faulted s.headWord .illegalCommand 0#32) := by
  simp only [step, if_neg hs, State.wordsAtCp, hd, illegalCommand, runCommand_next hs, raise, Flow.finish_ended,
    State.raiseFault_eq]

theorem State.headWord_of_drop {s : State} {h : Word} {rest : List Word}
    (hd : s.stream.drop s.cp.toNat = h :: rest) : s.headWord = h := by
  rw [State.headWord, List.getD_eq_getElem?_getD, ← List.head?_drop, hd]
  rfl

/-- Settles O6: `step`'s equations where words are missing. -/
theorem stepWaitsForMissingWords : Obligations.StepWaitsForMissingWords := by
  unfold Obligations.StepWaitsForMissingWords
  intro s hs
  exact ⟨step_of_noHeadWord hs, fun m => step_of_missingArguments hs⟩

/-- Settles O7, whatever follows the head word (log entry 8). -/
theorem illegalHeadWordHalts : Obligations.IllegalHeadWordHalts := by
  unfold Obligations.IllegalHeadWordHalts
  intro s h rest why hs hstream hd
  rw [← hstream] at hd
  rw [step_of_illegal hs hd, State.headWord_of_drop hstream]

/-- Settles O10: with every word consumed there is no head word at `CP`. -/
theorem completedRunWaits : Obligations.CompletedRunWaits := by
  unfold Obligations.CompletedRunWaits
  rintro s ⟨hs, hcp, -⟩
  exact step_of_noHeadWord hs (List.drop_eq_nil_of_le hcp.ge)

/-! ### The assembler (R82, R83) -/

theorem AsmLine.assemble_eq_some {c : Config} {l : AsmLine} {ws : List Word} (h : l.assemble c = some ws) :
    ∃ i, l.instr c = some i ∧ i.wellFormed = true ∧ encode i = ws := by
  unfold AsmLine.assemble at h
  split at h
  · cases h
  · rename_i i hi
    split at h
    · rename_i hw
      cases h
      exact ⟨i, hi, hw, rfl⟩
    · cases h

/-- Every command `o` may give is of row `m`. -/
def Yields (m : Mnemonic) (o : Option Instr) : Prop := ∀ i, o = some i → i.mnemonic = m

theorem Yields.none {m : Mnemonic} : Yields m none := fun _ h => nomatch h

theorem Yields.pure {m : Mnemonic} {i : Instr} (h : i.mnemonic = m) : Yields m (pure i) := by
  rintro _ ⟨⟩
  exact h

theorem Yields.bind {α : Type} {m : Mnemonic} {o : Option α} {f : α → Option Instr}
    (h : ∀ a, Yields m (f a)) : Yields m (o >>= f) := by
  intro i hi
  obtain ⟨a, -, ha⟩ := Option.bind_eq_some_iff.1 hi
  exact h a i ha

theorem Yields.map {α : Type} {m : Mnemonic} {o : Option α} {f : α → Instr}
    (h : ∀ a, (f a).mnemonic = m) : Yields m (o.map f) := by
  intro i hi
  obtain ⟨a, -, rfl⟩ := Option.map_eq_some_iff.1 hi
  exact h a

/-- An accepted line's command carries the line's mnemonic, in every form of the grammar. -/
theorem AsmLine.instr_yields (c : Config) (l : AsmLine) : Yields l.mnemonic (l.instr c) := by
  unfold AsmLine.instr
  split
  case h_15 => exact .none
  all_goals rename_i hm _; rw [hm]
  case h_1 | h_2 | h_3 | h_4 => exact .map fun _ => rfl
  all_goals repeat refine .bind fun _ => ?_
  all_goals exact .pure rfl

/-- Settles O55, from O1: an emitted line is the encoding of its well-formed command. -/
theorem assembledLinesDecode : Obligations.AssembledLinesDecode := by
  unfold Obligations.AssembledLinesDecode
  intro c l ws h
  obtain ⟨i, hi, hw, rfl⟩ := AsmLine.assemble_eq_some h
  have hd := decodeReadsBackEncode i [] hw
  rw [List.append_nil] at hd
  exact ⟨i, hi, l.instr_yields c i hi, hd⟩

/-! ### The text calls (R85, R88, R89, R91) -/

/-- One command a character of a text: `glyph c i` for the character `c` at position `i`. -/
def glyphRow (glyph : Byte → Nat → Instr) (text : List Byte) : List Instr :=
  (text.zip (List.range text.length)).map fun ci => glyph ci.1 ci.2

/-- The command `DrawTextColor` sends for the character `c` at position `i` (R88). -/
def colourGlyph (x y : Nat) (fg bg : Colour) (c : Byte) (i : Nat) : Instr :=
  .dchrc false false c.toNat (x + 6 * i) y fg bg

/-- The command `Print` sends for the character `c` at position `i` (R89). -/
def plainGlyph (cellX cellY : Nat) (c : Byte) (i : Nat) : Instr :=
  .dchr false false c.toNat (cellX * 6 + 6 * i) (cellY * 8)

theorem commands_drawTextColor (x y : Nat) (text : List Byte) (fg bg : Colour) :
    (ApiCall.drawTextColor x y text fg bg).commands = some (glyphRow (colourGlyph x y fg bg) text) := rfl

/-- `Print` ignores its last two arguments. -/
theorem commands_print (text : List Byte) (cellX cellY : Nat) (clearLine immediate : Bool) :
    (ApiCall.print text cellX cellY clearLine immediate).commands =
      some (glyphRow (plainGlyph cellX cellY) text) := rfl

theorem colourGlyph_wellFormed_iff (x y : Nat) (fg bg : Colour) (c : Byte) (i : Nat) :
    (colourGlyph x y fg bg c i).wellFormed = true ↔ x + 6 * i < 65536 ∧ y < 65536 := by
  have hc : c.toNat < 256 := c.isLt
  simp [colourGlyph, Instr.wellFormed, hc]

theorem plainGlyph_wellFormed_iff (cellX cellY : Nat) (c : Byte) (i : Nat) :
    (plainGlyph cellX cellY c i).wellFormed = true ↔ cellX * 6 + 6 * i < 65536 ∧ cellY * 8 < 65536 := by
  have hc : c.toNat < 256 := c.isLt
  simp [plainGlyph, Instr.wellFormed, hc]

theorem length_glyphRow (glyph : Byte → Nat → Instr) (text : List Byte) :
    (glyphRow glyph text).length = text.length := by simp [glyphRow]

theorem getElem_glyphRow (glyph : Byte → Nat → Instr) (text : List Byte) {i : Nat}
    (hi : i < (glyphRow glyph text).length) :
    (glyphRow glyph text)[i] = glyph (text[i]'(length_glyphRow glyph text ▸ hi)) i := by simp [glyphRow]

theorem getElem?_glyphRow (glyph : Byte → Nat → Instr) {text : List Byte} {i : Nat} {c : Byte}
    (h : text[i]? = some c) : (glyphRow glyph text)[i]? = some (glyph c i) := by
  obtain ⟨hi, rfl⟩ := List.getElem?_eq_some_iff.1 h
  rw [List.getElem?_eq_getElem (by rwa [length_glyphRow]), getElem_glyphRow]

/-- A call is refused as a whole or not at all (R85, R91; log entry 20). -/
theorem ApiCall.expand_of_commands {call : ApiCall} {is : List Instr} (hc : call.commands = some is) :
    call.expand = if is.all Instr.wellFormed then some is else none := by
  simp only [ApiCall.expand, hc]

/-- What a text call expands to, where it depends on the position alone whether a glyph can be encoded. -/
theorem ApiCall.expand_text {call : ApiCall} {glyph : Byte → Nat → Instr} {text : List Byte} {fits : Nat → Prop}
    (hc : call.commands = some (glyphRow glyph text))
    (hfits : ∀ c i, (glyph c i).wellFormed = true ↔ fits i) :
    ((∀ i < text.length, fits i) → ∃ is, call.expand = some is ∧ is.length = text.length ∧
      ∀ (i : Nat) (c : Byte), text[i]? = some c → is[i]? = some (glyph c i)) ∧
    ((∃ i < text.length, ¬ fits i) → call.expand = none) := by
  have hall : (glyphRow glyph text).all Instr.wellFormed = true ↔ ∀ i < text.length, fits i := by
    simp only [List.all_eq_true, List.forall_mem_iff_getElem, getElem_glyphRow, hfits, length_glyphRow]
  rw [ApiCall.expand_of_commands hc]
  constructor
  · intro h
    exact ⟨_, if_pos (hall.2 h), length_glyphRow glyph text, fun _ _ => getElem?_glyphRow glyph⟩
  · rintro ⟨i, hi, hbad⟩
    exact if_neg fun h => hbad (hall.1 h i hi)

/-- Settles O54: both calls are a row of glyphs, each well formed exactly where its coordinates fit 16 bits.
That a y coordinate refuses the call too is the model's choice (log entry 20). -/
theorem textCallsExpandToGlyphs : Obligations.TextCallsExpandToGlyphs := by
  unfold Obligations.TextCallsExpandToGlyphs
  intro x y text fg bg clearLine immediate
  obtain ⟨hdraw, hdrawRefused⟩ :=
    ApiCall.expand_text (commands_drawTextColor x y text fg bg) (colourGlyph_wellFormed_iff x y fg bg)
  obtain ⟨hprint, hprintRefused⟩ :=
    ApiCall.expand_text (commands_print text x y clearLine immediate) (plainGlyph_wellFormed_iff x y)
  exact ⟨hdraw, fun ⟨i, hi, hbad⟩ => hdrawRefused ⟨i, hi, by omega⟩,
    hprint, fun ⟨i, hi, hbad⟩ => hprintRefused ⟨i, hi, by omega⟩⟩

/-! ### The getters (R94) -/

theorem State.getType_eq (s : State) : s.getType = s.cfg.typeCode := by
  rw [State.getType]
  exact BitVec.extractLsb'_append_eq_right

theorem State.getWidth_eq (s : State) : s.getWidth = field16 s.cfg.width :=
  argHi_argWordOf _ (field16 s.cfg.height)

theorem State.getHeight_eq (s : State) : s.getHeight = field16 s.cfg.height :=
  argLo_argWordOf (field16 s.cfg.width) _

/-- Settles O50: `GEOM` is laid out like an argument word, width in `HI` and height in `LO`. -/
theorem gettersReadTheWindow : Obligations.GettersReadTheWindow := by
  unfold Obligations.GettersReadTheWindow
  rintro s ⟨-, hw, -, hh, -⟩
  exact ⟨s.getType_eq, s.getWidth_eq ▸ toNat_field16 (by omega), s.getHeight_eq ▸ toNat_field16 (by omega)⟩

end Sys2Proof.Machine

/-! The statements about the colour model: the wire form of a colour word and the words that `MakeColor`
builds (41_color.md). -/

namespace Sys2Proof.Machine

/-! ### The swap and the wire form (R100, R106) -/

@[simp] theorem extractLsb'_low_swap16 (c : Colour) : (swap16 c).extractLsb' 0 8 = c.extractLsb' 8 8 :=
  BitVec.extractLsb'_append_eq_right

@[simp] theorem extractLsb'_high_swap16 (c : Colour) : (swap16 c).extractLsb' 8 8 = c.extractLsb' 0 8 :=
  BitVec.extractLsb'_append_eq_left

@[simp] theorem swap16_swap16 (c : Colour) : swap16 (swap16 c) = c := by
  rw [swap16, extractLsb'_low_swap16, extractLsb'_high_swap16]
  exact (BitVec.extractLsb'_append_extractLsb'_eq_extractLsb' (start₁ := 0) rfl).trans BitVec.extractLsb'_eq_self

theorem be16_eq_hiByte_loByte (c : Colour) : be16 c = [hiByte c.toNat, loByte c.toNat] := by
  rw [← be16_field16, field16, BitVec.ofNat_toNat, BitVec.setWidth_eq]

theorem wire_eq_reverse_be16 (c : Colour) : wire c = (be16 c).reverse := rfl

theorem wire_eq_be16_rgb565 (c : Colour) : wire c = be16 (rgb565 c) := by
  rw [rgb565, be16, extractLsb'_high_swap16, extractLsb'_low_swap16, wire]

/-- Settles O53: the swap exchanges the two bytes of the word, so low byte first is the swapped word high byte
first. -/
theorem wireFormIsLowByteFirst : Obligations.WireFormIsLowByteFirst := by
  unfold Obligations.WireFormIsLowByteFirst
  intro c
  have hbytes : wire c = [loByte c.toNat, hiByte c.toNat] := by
    rw [wire_eq_reverse_be16, be16_eq_hiByte_loByte]; rfl
  exact ⟨hbytes, wire_eq_be16_rgb565 c, swap16_swap16 c⟩

/-! ### The channels of a `MakeColor` word (R101 to R103) -/

theorem toNat_red5 (c : Colour) : (red5 c).toNat = (rgb565 c).toNat / 2048 % 32 := by
  simp [red5, Nat.shiftRight_eq_div_pow]

theorem toNat_green6 (c : Colour) : (green6 c).toNat = (rgb565 c).toNat / 32 % 64 := by
  simp [green6, Nat.shiftRight_eq_div_pow]

theorem toNat_blue5 (c : Colour) : (blue5 c).toNat = (rgb565 c).toNat % 32 := by
  simp [blue5]

/-- Within the domain the three fields do not overlap, so `|` adds them (R102). -/
theorem toNat_packChannels {r g b : Nat} (hr : r ≤ 31) (hg : g ≤ 31) (hb : b ≤ 31) :
    (packChannels r g b).toNat = r * 2048 + g * 64 + b := by
  have hred : (BitVec.ofNat 16 r <<< 11).toNat = r <<< 11 := by
    simp [Nat.shiftLeft_eq]; omega
  have hgreen : (BitVec.ofNat 16 g <<< 6).toNat = g <<< 6 := by
    simp [Nat.shiftLeft_eq]; omega
  have hblue : (BitVec.ofNat 16 b).toNat = b := by simp; omega
  have hgb : g <<< 6 ||| b = g * 64 + b := by
    rw [← Nat.shiftLeft_add_eq_or_of_lt (by omega), Nat.shiftLeft_eq]
  rw [packChannels, BitVec.toNat_or, BitVec.toNat_or, hred, hgreen, hblue, Nat.or_assoc, hgb,
    ← Nat.shiftLeft_add_eq_or_of_lt (by omega), Nat.shiftLeft_eq, Nat.add_assoc]

theorem makeColor_eq_some_iff {r g b : Nat} {c : Colour} :
    makeColor r g b = some c ↔ (r ≤ 31 ∧ g ≤ 31 ∧ b ≤ 31) ∧ swap16 (packChannels r g b) = c := by
  simp [makeColor]

theorem makeColor_eq_none_iff {r g b : Nat} : makeColor r g b = none ↔ ¬ (r ≤ 31 ∧ g ≤ 31 ∧ b ≤ 31) := by
  simp [makeColor]

section
variable {r g b : Nat} {c : Colour} (h : makeColor r g b = some c)
include h

theorem toNat_rgb565_of_makeColor : (rgb565 c).toNat = r * 2048 + g * 64 + b := by
  obtain ⟨⟨hr, hg, hb⟩, rfl⟩ := makeColor_eq_some_iff.1 h
  rw [rgb565, swap16_swap16, toNat_packChannels hr hg hb]

/-- The channels of a word that `MakeColor` builds; the least green bit is 0 (R103). -/
theorem channels_of_makeColor : (red5 c).toNat = r ∧ (green6 c).toNat = 2 * g ∧ (blue5 c).toNat = b := by
  obtain ⟨⟨hr, hg, hb⟩, -⟩ := makeColor_eq_some_iff.1 h
  rw [toNat_red5, toNat_green6, toNat_blue5, toNat_rgb565_of_makeColor h]
  omega

end

theorem makeColor_injective {r g b r' g' b' : Nat} {c : Colour} (h : makeColor r g b = some c)
    (h' : makeColor r' g' b' = some c) : r = r' ∧ g = g' ∧ b = b' := by
  obtain ⟨hred, hgreen, hblue⟩ := channels_of_makeColor h
  obtain ⟨hred', hgreen', hblue'⟩ := channels_of_makeColor h'
  omega

/-- Settles O52: the fields do not overlap, so the word holds each channel in its own bits and its channels
give back the arguments. -/
theorem makeColorPacksTheChannels : Obligations.MakeColorPacksTheChannels := by
  unfold Obligations.MakeColorPacksTheChannels
  refine ⟨fun r g b hr hg hb => ?_, fun r g b hout => ?_, fun _ _ _ _ _ _ _ => makeColor_injective, ?_, ?_⟩
  · have h := makeColor_eq_some_iff.2 ⟨⟨hr, hg, hb⟩, rfl⟩
    exact ⟨_, h, toNat_rgb565_of_makeColor h, channels_of_makeColor h⟩
  · exact makeColor_eq_none_iff.2 (by omega)
  · decide
  · decide

end Sys2Proof.Machine

/-! The statements about the rasterizer (42_rasterizer.md): what its commands leave alone, when the colours are
latched, which cells each command writes, and the immediate flip. -/

namespace Sys2Proof.Machine

/-! ### What a rasterizer command leaves alone (42_rasterizer.md R136) -/

/-- Where no write was to be made, none can fail. -/
theorem StopsIn.events_ne_nil {s u : State} {es : List Event} (h : StopsIn s es u) : es ≠ [] := by
  obtain ⟨pre, bytes, post, rfl, -⟩ := h
  simp

/-- A rasterizer command without `I = 1` emits nothing. -/
theorem ExecAnswers.busEffect_nil {i : Instr} {s t : State} (h : ExecAnswers i s t)
    (hrast : i.rasterizer = true) (hflips : i.flips = false) : BusEffect s [] t := by
  cases h with
  | check c hc => exact s.raiseFault_busEffect c 0#32
  | stopped d u es hd hdc hquiet hu => exact absurd (hquiet hrast hflips) hu.events_ne_nil
  | completed d es swap hr hd hdc hswap hquiet ha =>
    obtain rfl := hquiet hrast hflips
    exact hd.busEffect.trans ⟨rfl, rfl, rfl, rfl, rfl, rfl, rfl⟩
  | broughtUp es fs hi hu hdc ha hb => subst hi; cases hrast

/-- Settles O28: without events the log, the levels and the answers stay, `ACTIVE` changes by a flip alone, and
the other buffer is outside every command's target. -/
theorem rasterizerWorksInMemoryOnly : Obligations.RasterizerWorksInMemoryOnly := by
  unfold Obligations.RasterizerWorksInMemoryOnly
  intro i s t hrast h
  refine ⟨fun hflips => ?_, fun y x hx hy => ?_⟩
  · have heff := (exec_cases h).busEffect_nil hrast hflips
    have hactive : t.active = s.active := by
      by_contra hne
      obtain ⟨hflips', -⟩ := onlyFlipsChangeActive i s t h hne
      simp [hflips] at hflips'
    exact ⟨heff.ev.trans (List.append_nil _), hactive, heff.dcLvl, heff.rstLvl, heff.blLvl, heff.answers,
      heff.draws⟩
  · exact (exec_cases h).keepsOtherCells (!s.active) y x hx hy (.inl (by simp))

/-! ### The colour latch (42_rasterizer.md R135) -/

/-- The two commands that latch colours send nothing, so no write of theirs can fail. -/
theorem Instr.quiet_of_latching {i : Instr} (h : i.mnemonic = .SETPXC ∨ i.mnemonic = .DCHRC) :
    i.rasterizer = true ∧ i.flips = false := by
  cases i with
  | setpxc | dchrc => exact ⟨rfl, rfl⟩
  | _ => simp [Instr.mnemonic] at h

/-- Up to its writes, a command that latches no colours has kept them. -/
theorem BusStart.colours {i : Instr} {s d : State} (h : BusStart i s d) (h1 : i.mnemonic ≠ .SETPXC)
    (h2 : i.mnemonic ≠ .DCHRC) : d.curFg = s.curFg ∧ d.curBg = s.curBg := by
  cases h with
  | init hi hu => exact ⟨rfl, rfl⟩
  | drawn _ hr hd => exact hd.latchOther h1 h2
  | cleared es hi hu ha => simp [initialClear, clearActive]

/-- A command that halts has written no colour: its checks come before the latch, and the commands with a
latch make no write that could fail. -/
theorem ExecAnswers.colours_of_halted {i : Instr} {s t : State} (h : ExecAnswers i s t)
    (ht : t.cstate = .halted) : t.curFg = s.curFg ∧ t.curBg = s.curBg := by
  cases h with
  | check c hc => exact ⟨rfl, rfl⟩
  | stopped d u es hd hdc hquiet hu =>
    have hnolatch : ¬ (i.mnemonic = .SETPXC ∨ i.mnemonic = .DCHRC) := fun hlatch =>
      hu.events_ne_nil (hquiet (Instr.quiet_of_latching hlatch).1 (Instr.quiet_of_latching hlatch).2)
    obtain ⟨h1, h2⟩ := not_or.1 hnolatch
    obtain ⟨hfg₀, hbg₀⟩ := hd.colours h1 h2
    obtain ⟨-, -, -, -, -, -, hfg, hbg⟩ := hu.fields
    exact ⟨hfg.trans hfg₀, hbg.trans hbg₀⟩
  | completed d es swap hr hd hdc hswap hquiet ha =>
    have hready : d.cstate = .ready := by rw [hd.eq]; exact hr
    exact absurd (hready.symm.trans ht) (by simp)
  | broughtUp es fs hi hu hdc ha hb => cases ht

/-- A command that completes leaves the colours of its drawing step. -/
theorem ExecAnswers.colours_of_completed {i : Instr} {s t : State} (h : ExecAnswers i s t)
    (ht : t.cstate ≠ .halted) : ∃ d, Draws i s d ∧ t.curFg = d.curFg ∧ t.curBg = d.curBg := by
  cases h with
  | check c hc => exact absurd rfl ht
  | stopped d u es hd hdc hquiet hu =>
    obtain ⟨⟨hhalted, -⟩, -⟩ := hu.fields
    exact absurd hhalted ht
  | completed d es swap hr hd hdc hswap hquiet ha => exact ⟨d, hd, rfl, rfl⟩
  | broughtUp es fs hi hu hdc ha hb =>
    subst hi
    exact ⟨s, Draws.nothing _ s (by simp [Instr.mnemonic]) (by simp [Instr.mnemonic]),
      by simp [initialClear, clearActive]⟩

/-- Settles O29: a command halts and keeps the colours, or completes with those of its drawing step, whose
latch `Draws` tells. -/
theorem coloursAreLatchedOnlyWhenConfigured : Obligations.ColoursAreLatchedOnlyWhenConfigured := by
  unfold Obligations.ColoursAreLatchedOnlyWhenConfigured
  intro i s t h
  have hexec := exec_cases h
  refine ⟨fun hoff => ?_, hexec.colours_of_halted, fun hon ht => ?_⟩
  · by_cases ht : t.cstate = .halted
    · exact hexec.colours_of_halted ht
    · obtain ⟨d, hd, hfg, hbg⟩ := hexec.colours_of_completed ht
      rw [hfg, hbg]
      exact hd.latchOff hoff
  · obtain ⟨d, hd, hfg, hbg⟩ := hexec.colours_of_completed ht
    rw [hfg, hbg]
    exact ⟨fun x y col hi => hd.latchPixel x y col hi hon,
      fun inv dw ch x y fg bg hi => hd.latchGlyph inv dw ch x y fg bg hi hon, hd.latchOther⟩

/-! ### The commands in `READY`, once their checks have passed (42_rasterizer.md R120) -/

/-- A command whose actions end without a fault answers their state, `CP` advanced by its length. -/
theorem exec_of_going {i : Instr} {s d : State} (hr : s.cstate = .ready) (h : actionsOf i s = .going d) :
    exec i s = .next (d.advance (1 + i.mnemonic.argWords)) := by
  rw [exec_next (by simp [hr]), h, Flow.finish_going]

theorem actionsOf_clear {s : State} (hr : s.cstate = .ready) (imm : Bool) (bgc : Colour) :
    actionsOf (.clear imm bgc) s = immediateFlip imm (clearActive bgc s) := requireReady_ready hr _

theorem actionsOf_frect {s : State} (hr : s.cstate = .ready) (imm : Bool) (x1 y1 x2 y2 : Nat) :
    actionsOf (.frect imm x1 y1 x2 y2) s = require (inRect s.cfg x1 y1 x2 y2) .bounds
      (fun s => immediateFlip imm (fillRect x1 y1 x2 y2 s)) s := requireReady_ready hr _

theorem actionsOf_frect_of_inRect {s : State} {x1 y1 x2 y2 : Nat} (hr : s.cstate = .ready)
    (hin : inRect s.cfg x1 y1 x2 y2 = true) (imm : Bool) :
    actionsOf (.frect imm x1 y1 x2 y2) s = immediateFlip imm (fillRect x1 y1 x2 y2 s) := by
  rw [actionsOf_frect hr, hin, require_true]

theorem actionsOf_dimg {s : State} {sel : Nat} {img : LogoBitmap} (hr : s.cstate = .ready)
    (hl : logoOf s.cfg sel = some img) (imm : Bool) :
    actionsOf (.dimg imm sel) s = require (inImage s.cfg) .bounds
      (fun s => immediateFlip imm (blitLogo img s)) s := by
  rw [actionsOf, requireReady_ready hr, hl]

theorem actionsOf_dimg_of_inImage {s : State} {sel : Nat} {img : LogoBitmap} (hr : s.cstate = .ready)
    (hl : logoOf s.cfg sel = some img) (hin : inImage s.cfg = true) (imm : Bool) :
    actionsOf (.dimg imm sel) s = immediateFlip imm (blitLogo img s) := by
  rw [actionsOf_dimg hr hl, hin, require_true]

theorem actionsOf_dchrc_of_inGlyph {s : State} {ch x y : Nat} (hr : s.cstate = .ready)
    (hfont : inFont s.cfg ch = true) (hin : inGlyph s.cfg x y = true) (inv dw : Bool) (fg bg : Colour) :
    actionsOf (.dchrc inv dw ch x y fg bg) s =
      .going (latchColours fg bg (renderGlyph (glyphIndex ch) x y fg bg s)) := by
  rw [actionsOf, requireReady_ready hr, hfont, require_true, hin, require_true]

theorem actionsOf_dchr_of_inGlyph {s : State} {ch x y : Nat} (hr : s.cstate = .ready)
    (hfont : inFont s.cfg ch = true) (hin : inGlyph s.cfg x y = true) (inv dw : Bool) :
    actionsOf (.dchr inv dw ch x y) s = .going (renderGlyph (glyphIndex ch) x y s.curFg s.curBg s) := by
  rw [actionsOf, requireReady_ready hr, hfont, require_true, hin, require_true]

theorem actionsOf_flip {s : State} (hr : s.cstate = .ready) : actionsOf .flip s = flipBody s :=
  requireReady_ready hr _

/-! ### The cells each command writes (42_rasterizer.md R123, R127 to R134, R137) -/

/-- Settles O34, by CLEAR's drawing step. -/
theorem clearFillsTheActiveBuffer : Obligations.ClearFillsTheActiveBuffer := by
  unfold Obligations.ClearFillsTheActiveBuffer
  intro s bgc hr
  refine ⟨_, exec_of_going hr (actionsOf_clear hr false bgc), ?_, clearActive_cell bgc s⟩
  rw [clearActive_eq]; rfl

/-- Settles O36, by FRECT's drawing step; an empty rectangle passes `inRect` and paints nothing. -/
theorem filledRectangleIsHalfOpen : Obligations.FilledRectangleIsHalfOpen := by
  unfold Obligations.FilledRectangleIsHalfOpen
  intro s x1 y1 x2 y2 hr hrect
  have hin : inRect s.cfg x1 y1 x2 y2 = true := (inRect_iff _ _ _ _ _).2 hrect
  refine ⟨_, exec_of_going hr (actionsOf_frect_of_inRect hr hin false), ?_, fillRect_cell x1 y1 x2 y2 s hin⟩
  rw [fillRect_eq]; rfl

/-- A character that selects a font entry is in the font. -/
theorem inFont_of_entry {c : Config} {ch : Nat} {g : Glyph} (hch : 0x20 ≤ ch)
    (hg : c.font[ch - 0x20]? = some g) : inFont c ch = true := by
  obtain ⟨hlt, -⟩ := List.getElem?_eq_some_iff.1 hg
  exact (inFont_iff c ch).2 ⟨hch, by omega⟩

/-- Rendering a font entry, pixel by pixel of its stored form (42_rasterizer.md R129, R137). -/
theorem renderGlyph_cell_of_entry {s : State} {ch x0 y0 : Nat} {g : Glyph}
    (hg : s.cfg.font[ch - 0x20]? = some g) (hin : inGlyph s.cfg x0 y0 = true) (fg bg : Colour) (b : Bool)
    (y x : Nat) (hx : x < s.cfg.width) (hy : y < s.cfg.height) :
    (renderGlyph (glyphIndex ch) x0 y0 fg bg s).cell b y x =
      if b = s.active ∧ x0 ≤ x ∧ x < x0 + 6 ∧ y0 ≤ y ∧ y < y0 + 8 then
        if (g.toList.getD (x - x0) 0#8).getLsbD (y - y0) then fg else bg
      else s.cell b y x := by
  rw [renderGlyph_cell _ x0 y0 fg bg s hin b y x hx hy, glyphIndex, fontPixel_eq hg]; rfl

/-- Settles O37: both commands render the entry `CH - 0x20`, DCHRC in its operands' colours, which it then
latches. -/
theorem glyphCommandsRenderOneCell : Obligations.GlyphCommandsRenderOneCell := by
  unfold Obligations.GlyphCommandsRenderOneCell
  intro s inv dw ch x0 y0 fg bg g hr hch hg hx0 hy0
  have hfont : inFont s.cfg ch = true := inFont_of_entry hch hg
  have hin : inGlyph s.cfg x0 y0 = true := (inGlyph_iff _ _ _).2 ⟨hx0, hy0⟩
  refine ⟨⟨_, exec_of_going hr (actionsOf_dchrc_of_inGlyph hr hfont hin inv dw fg bg), ?_,
      renderGlyph_cell_of_entry hg hin fg bg⟩,
    ⟨_, exec_of_going hr (actionsOf_dchr_of_inGlyph hr hfont hin inv dw), ?_,
      renderGlyph_cell_of_entry hg hin s.curFg s.curBg⟩⟩
  all_goals rw [renderGlyph_eq]; rfl

/-- Settles O38: the meanings of both commands ignore the two flags (42_rasterizer.md R132). -/
theorem glyphFlagsHaveNoEffect : Obligations.GlyphFlagsHaveNoEffect := by
  unfold Obligations.GlyphFlagsHaveNoEffect
  exact fun _ _ _ _ _ _ _ _ => ⟨rfl, rfl⟩

/-- The two known selectors (42_rasterizer.md R134). -/
theorem logoOf_of_known (c : Config) {sel : Nat} (h : sel = 0 ∨ sel = 1) :
    logoOf c sel = some (if sel = 0 then c.logoA else c.logoB) := by
  obtain rfl | rfl := h <;> rfl

/-- Settles O39, by DIMG's drawing step. The image is the model's table of rows, bit `x` of row `y`
(log entry 21). -/
theorem imageCommandWritesTheBlock : Obligations.ImageCommandWritesTheBlock := by
  unfold Obligations.ImageCommandWritesTheBlock
  intro s sel hr hsel hw hh
  have hin : inImage s.cfg = true := (inImage_iff _).2 ⟨hw, hh⟩
  refine ⟨_, exec_of_going hr (actionsOf_dimg_of_inImage hr (logoOf_of_known s.cfg hsel) hin false), ?_,
    blitLogo_cell _ s hin⟩
  rw [blitLogo_eq]; rfl

/-! ### The immediate flip (42_rasterizer.md R122, R138) -/

/-- A command that does not halt has passed its check. -/
theorem passed_of_not_halted {ok : Bool} {c : Cause} {k : State → Flow} {s : State} {n : Nat}
    (h : ((require ok c k s).finish n).cstate ≠ .halted) : ok = true := by
  cases ok with
  | true => rfl
  | false => exact absurd rfl h

/-- A flip advances `CP` by the length of the command it ends, unless it faults; that length tells nowhere
else (10_state.md R28). -/
theorem flipBody_finish {s : State} (hs : s.cstate ≠ .halted) (n : Nat) :
    (flipBody s).finish n = { (flipBody s).finish 1 with
      cp := if ((flipBody s).finish 1).cstate = .halted then s.cp else s.cp + BitVec.ofNat 32 n } := by
  obtain ⟨f, ⟨es, -, he⟩, hf⟩ := flipBody_sends s
  rw [hf]
  by_cases ha : s.answersInFull (writeLengths es)
  · rw [he.full ha, Flow.going_andThen, Flow.finish_going, Flow.finish_going, if_neg (by simpa using hs)]
    rfl
  · obtain ⟨u, hu, hstop⟩ := he.short ha
    obtain ⟨⟨hhalted, -, -, -, hcp⟩, -⟩ := hstop.fields
    rw [hu, Flow.ended_andThen, Flow.finish_ended, Flow.finish_ended, if_pos hhalted, ← hcp]

/-- A command whose actions come down to FLIP's body on `d` answers what that leaves, `CP` moved by the
command's own length. -/
theorem exec_of_flipBody {i : Instr} {s d : State} (hr : s.cstate = .ready)
    (h : actionsOf i s = flipBody d) : exec i s = .next ((flipBody d).finish (1 + i.mnemonic.argWords)) := by
  rw [exec_next (by simp [hr]), h]

/-- FLIP on what a drawing command `i` leaves, `CP` put back, is FLIP's body on the drawing step's result. -/
theorem exec_flip_after_draw {i : Instr} {s d t : State} (hr : s.cstate = .ready)
    (hd : d = { s with fb := d.fb }) (hi : actionsOf i s = .going d) (ht : exec i s = .next t) :
    exec .flip { t with cp := s.cp } = .next ((flipBody d).finish 1) := by
  obtain ⟨m, rfl⟩ : ∃ m, d = { s with fb := m } := ⟨_, hd⟩
  obtain ⟨-, rfl⟩ := exec_inv ht
  rw [hi]
  exact exec_of_flipBody (i := .flip) hr (actionsOf_flip hr)

/-- Settles O41: the command with `I = 1` runs FLIP's body on the same drawing step's result, and only FRECT is
longer than FLIP. That `t` is in `READY` says that the drawing command passed its check. -/
theorem immediateFlagEndsInAFlip : Obligations.ImmediateFlagEndsInAFlip := by
  unfold Obligations.ImmediateFlagEndsInAFlip
  intro s t hr htr
  refine ⟨fun bgc ht => ?_, fun x1 y1 x2 y2 ht => ?_, fun sel hsel ht => ?_⟩
  · exact ⟨_, exec_flip_after_draw hr (clearActive_eq bgc s) (actionsOf_clear hr false bgc) ht,
      exec_of_flipBody hr (actionsOf_clear hr true bgc)⟩
  · have hin : inRect s.cfg x1 y1 x2 y2 = true := by
      obtain ⟨-, rfl⟩ := exec_inv ht
      rw [actionsOf_frect hr] at htr
      exact passed_of_not_halted (by rw [htr]; simp)
    have hd := fillRect_eq x1 y1 x2 y2 s
    refine ⟨_, exec_flip_after_draw hr hd (actionsOf_frect_of_inRect hr hin false) ht, ?_⟩
    rw [exec_of_flipBody hr (actionsOf_frect_of_inRect hr hin true),
      flipBody_finish (by rw [hd]; simp [hr]), show (fillRect x1 y1 x2 y2 s).cp = s.cp by rw [hd]]
    rfl
  · have hl := logoOf_of_known s.cfg hsel
    have hin : inImage s.cfg = true := by
      obtain ⟨-, rfl⟩ := exec_inv ht
      rw [actionsOf_dimg hr hl] at htr
      exact passed_of_not_halted (by rw [htr]; simp)
    exact ⟨_, exec_flip_after_draw hr (blitLogo_eq _ s) (actionsOf_dimg_of_inImage hr hl hin false) ht,
      exec_of_flipBody hr (actionsOf_dimg_of_inImage hr hl hin true)⟩

end Sys2Proof.Machine

/-! The statements about the device sequencer (43_device.md): BKL, the display commands ON and OFF, and INIT, when
it completes and where it stops. -/

namespace Sys2Proof.Machine

/-! ### BKL (43_device.md R173) -/

/-- Settles O30: past its state check, BKL has no action. -/
theorem backlightCommandChangesOnlyThePointer : Obligations.BacklightCommandChangesOnlyThePointer := by
  unfold Obligations.BacklightCommandChangesOnlyThePointer
  intro s en hr
  exact exec_of_going hr (requireReady_ready hr _)

/-! ### One command byte and the bus's answer to it (44_transmit.md R190, R191) -/

theorem actionsOf_on {s : State} (hr : s.cstate = .ready) : actionsOf .on s = onBody s := requireReady_ready hr _

theorem actionsOf_off {s : State} (hr : s.cstate = .ready) : actionsOf .off s = sendCmd s.cfg.opcDispoff s :=
  requireReady_ready hr _

/-- A command whose actions end in a fault answers the state that fault leaves. -/
theorem exec_of_ended {i : Instr} {s u : State} (hs : s.cstate ≠ .halted) (h : actionsOf i s = .ended u) :
    exec i s = .next u := by
  rw [exec_next hs, h, Flow.finish_ended]

/-- The only write of a transaction is its last event, so that is where it stops. -/
theorem StopsIn.of_transaction {s u : State} {p : Pin} {dc : Level} {bytes : List Byte}
    (h : StopsIn s (transaction s.cfg p dc bytes) u) :
    u = (s.afterBus (transaction s.cfg p dc bytes)).faulted s.headWord .txError (auxOfAnswer (s.answerAt 0)) := by
  obtain ⟨pre, bytes', post, hes, -, -, rfl⟩ := h
  obtain ⟨rfl, rfl, rfl⟩ : pre = [.pin p dc, .clk s.cfg.clkHz, .mode s.cfg.cpol s.cfg.cpha] ∧
      bytes' = bytes ∧ post = [] := by
    simpa [transaction, List.cons_eq_append_iff] using hes
  rfl

/-- A command byte not answered by a count of 1 is a `TX_ERROR` right after its transaction. -/
theorem sendCmd_of_not_full {s : State} {p : Pin} (hp : s.cfg.dcPin = some p) {c : Byte}
    (ha : ¬ s.answersInFull [1]) :
    sendCmd c s = .ended ((s.afterBus (transaction s.cfg p .low [c])).faulted s.headWord .txError
      (auxOfAnswer (s.answerAt 0))) := by
  obtain ⟨u, hu, hstop⟩ := (sendCmd_emits hp c).short ha
  rw [hu, hstop.of_transaction]

/-- Settles O31: both send one command byte, which is answered in full or ends them; ON goes on with its delay. -/
theorem displayOnAndOffSendOneCommand : Obligations.DisplayOnAndOffSendOneCommand := by
  unfold Obligations.DisplayOnAndOffSendOneCommand
  intro s p hr hp
  refine ⟨fun ha => ⟨?_, ?_⟩, fun ha => ⟨?_, ?_⟩⟩
  · exact exec_of_going hr ((actionsOf_on hr).trans ((onBody_emits hp).full ha))
  · exact exec_of_going hr ((actionsOf_off hr).trans ((sendCmd_emits hp _).full ha))
  · refine exec_of_ended (by simp [hr]) ?_
    rw [actionsOf_on hr, onBody, sendCmd_of_not_full hp ha, Flow.ended_andThen]
  · exact exec_of_ended (by simp [hr]) ((actionsOf_off hr).trans (sendCmd_of_not_full hp ha))

/-! ### INIT's phases before and after the clear (43_device.md R161) -/

/-- The events of INIT's phases before the initial clear (43_device.md R162 to R166). -/
def eventsBeforeClear (c : Config) (p : Pin) : List Event :=
  bringUpPinEvents c p ++ transaction c p .low [c.opcSwreset] ++ [.delay c.tSwreset] ++
    c.initScript.flatMap (scriptStepEvents c p)

/-- The events of the display-on phase, after the initial clear (43_device.md R168). -/
def displayOnEvents (c : Config) (p : Pin) : List Event :=
  transaction c p .low [c.opcDispon] ++ [.delay c.tOn]

theorem initEvents_eq (c : Config) (p : Pin) : initEvents c p = eventsBeforeClear c p ++ displayOnEvents c p :=
  List.append_assoc _ _ _

theorem writeLengths_displayOnEvents (c : Config) (p : Pin) : writeLengths (displayOnEvents c p) = [1] := rfl

/-- The phases of INIT before the initial clear. -/
def phasesBeforeClear (s : State) : Flow :=
  (softwareReset (resetPulse (backlightBlink (pinsConfigure s)))).andThen registerScript

theorem phasesBeforeClear_emits {s : State} {p : Pin} (hp : s.cfg.dcPin = some p) :
    Emits s (phasesBeforeClear s) (eventsBeforeClear s.cfg p) := by
  have hpins := Emits.ofEvents s _ (writeLengths_bringUpPins s.cfg p)
  rw [← bringUpPins_eq hp] at hpins
  have h := hpins.andThen (k := fun t => (softwareReset t).andThen registerScript)
    ((softwareReset_emits (s := s.afterBus _) hp).andThen
      (registerScript_emits (s := (s.afterBus _).afterBus _) hp))
  simpa only [phasesBeforeClear, eventsBeforeClear, Flow.going_andThen, State.afterBus_cfg, List.append_assoc]
    using h

theorem actionsOf_init {s : State} (hu : s.cstate = .uninit) :
    actionsOf .init s = (phasesBeforeClear s).andThen fun t =>
      (onBody (initialClear t)).andThen fun t => .going { t with cstate := .ready } := by
  rw [actionsOf, decide_eq_true (by simp [hu]), require_true, phasesBeforeClear]
  cases softwareReset (resetPulse (backlightBlink (pinsConfigure s))) with
  | going t => rfl
  | ended t => rfl

theorem initialClear_eq (s : State) : initialClear s = { s with fb := (initialClear s).fb } :=
  clearActive_eq s.curBg s

theorem initialClear_cell (s : State) (b : Bool) (y x : Nat) (hx : x < s.cfg.width) (hy : y < s.cfg.height) :
    (initialClear s).cell b y x = if b = s.active then s.curBg else s.cell b y x :=
  clearActive_cell s.curBg s b y x hx hy

/-- The clear takes no answer of the bus. -/
theorem initialClear_answersInFull (s : State) (lens : List Nat) :
    (initialClear s).answersInFull lens ↔ s.answersInFull lens := by
  rw [initialClear_eq]; rfl

theorem onBody_initialClear_emits {s : State} {p : Pin} (hp : s.cfg.dcPin = some p) :
    Emits (initialClear s) (onBody (initialClear s)) (displayOnEvents s.cfg p) := by
  rw [initialClear_eq]
  exact onBody_emits hp

/-! ### The three ends of INIT (43_device.md R169, R170) -/

section
variable {s : State} {p : Pin} (hu : s.cstate = .uninit) (hp : s.cfg.dcPin = some p)
include hu hp

/-- A write of the phases before the clear fails: INIT stops among their events. -/
theorem exec_init_of_stop_before (ha : ¬ s.answersInFull (writeLengths (eventsBeforeClear s.cfg p))) :
    ∃ t, exec .init s = .next t ∧ StopsIn s (eventsBeforeClear s.cfg p) t := by
  obtain ⟨t, ht, hstop⟩ := (phasesBeforeClear_emits hp).short ha
  refine ⟨t, exec_of_ended (by simp [hu]) ?_, hstop⟩
  rw [actionsOf_init hu, ht, Flow.ended_andThen]

variable (ha : s.answersInFull (writeLengths (eventsBeforeClear s.cfg p)))
include ha

theorem actionsOf_init_of_full :
    actionsOf .init s = (onBody (initialClear (s.afterBus (eventsBeforeClear s.cfg p)))).andThen
      fun t => .going { t with cstate := .ready } := by
  rw [actionsOf_init hu, (phasesBeforeClear_emits hp).full ha, Flow.going_andThen]

/-- The display-on command fails: INIT stops there, on the cleared buffer. -/
theorem exec_init_of_stop_after
    (hb : ¬ (s.afterBus (eventsBeforeClear s.cfg p)).answersInFull (writeLengths (displayOnEvents s.cfg p))) :
    ∃ t, exec .init s = .next t ∧
      StopsIn (initialClear (s.afterBus (eventsBeforeClear s.cfg p))) (displayOnEvents s.cfg p) t := by
  obtain ⟨t, ht, hstop⟩ := (onBody_initialClear_emits (s := s.afterBus _) hp).short
    (by rwa [initialClear_answersInFull])
  refine ⟨t, exec_of_ended (by simp [hu]) ?_, hstop⟩
  rw [actionsOf_init_of_full hu hp ha, ht, Flow.ended_andThen]

/-- Every write is answered in full: INIT brings the block up. -/
theorem exec_init_of_full
    (hb : (s.afterBus (eventsBeforeClear s.cfg p)).answersInFull (writeLengths (displayOnEvents s.cfg p))) :
    exec .init s = .next (({ (initialClear (s.afterBus (eventsBeforeClear s.cfg p))).afterBus
      (displayOnEvents s.cfg p) with cstate := .ready } : State).advance 1) := by
  rw [exec_next (by simp [hu]), actionsOf_init_of_full hu hp ha,
    (onBody_initialClear_emits (s := s.afterBus _) hp).full ((initialClear_answersInFull _ _).2 hb)]
  rfl

end

/-- Settles O32: the phases' events in a row are INIT's, and the clear between them touches the cells alone. -/
theorem initBringsTheBlockUp : Obligations.InitBringsTheBlockUp := by
  unfold Obligations.InitBringsTheBlockUp
  intro s p hu hp hfull
  rw [initEvents_eq] at hfull ⊢
  obtain ⟨ha, hb⟩ := (answersInFull_append s _ _).1 hfull
  refine ⟨_, exec_init_of_full hu hp ha hb, ?_, initialClear_cell (s.afterBus (eventsBeforeClear s.cfg p))⟩
  rw [State.afterBus_append, initialClear_eq]
  rfl

/-- Settles O33: a stop keeps the cells of the state it stops from, which is INIT's first state before the clear
and the cleared one at the display-on command. -/
theorem failedInitClearsOnlyAtTheEnd : Obligations.FailedInitClearsOnlyAtTheEnd := by
  unfold Obligations.FailedInitClearsOnlyAtTheEnd
  intro s t p before hu hp hes ht
  obtain rfl : eventsBeforeClear s.cfg p = before := by
    rw [initEvents_eq, List.append_assoc] at hes
    exact List.append_cancel_right hes
  refine ⟨fun ha => ?_, fun ha hne => ?_⟩
  · obtain ⟨u, hexec, hstop⟩ := exec_init_of_stop_before hu hp ha
    obtain rfl : u = t := by simpa [hexec] using ht
    obtain ⟨⟨hhalted, hcause, -⟩, -, -, -, hfb, -⟩ := hstop.fields
    exact ⟨hhalted, hcause, hfb⟩
  · have hb : ¬ (s.afterBus (eventsBeforeClear s.cfg p)).answersInFull
        (writeLengths (displayOnEvents s.cfg p)) := fun hb => hne <| by
      simpa [State.afterBus_answerAt, writeLengths_displayOnEvents] using hb 0 Nat.one_pos
    obtain ⟨u, hexec, hstop⟩ := exec_init_of_stop_after hu hp ha hb
    obtain rfl : u = t := by simpa [hexec] using ht
    obtain ⟨⟨hhalted, hcause, -⟩, -⟩ := hstop.fields
    refine ⟨hhalted, hcause, fun y x hx hy => ?_⟩
    exact (hstop.cell _ y x).trans ((initialClear_cell (s.afterBus _) _ y x hx hy).trans (if_pos rfl))

end Sys2Proof.Machine

/-! The statements about the transmitter (44_transmit.md): where a transmission error stops a command, what SETWIN
and FLIP send, when `ACTIVE` changes, and what the panel shows after a flip. -/

namespace Sys2Proof.Machine

/-! ### Where a transmission error stops a command (60_exceptions.md R228, R230) -/

/-- A count that fits `FINFO1` stands there as it is (10_state.md R27). -/
theorem toNat_auxOfCount {n : Nat} (h : n < 4294967296) : (auxOfCount n).toNat = n := by
  rw [auxOfCount, if_pos h, BitVec.toNat_ofNat, Nat.mod_eq_of_lt h]

theorem Cause.precise.ne_txError {c : Cause} (h : c.precise) : c ≠ .txError := by
  rintro rfl
  simp [Cause.precise] at h

/-- A command that stops on `TX_ERROR` stops among its writes. -/
theorem ExecAnswers.stopped_of_txError {i : Instr} {s t : State} (h : ExecAnswers i s t)
    (ht : t.cstate = .halted) (hcause : t.cause = .txError) :
    ∃ d es, BusStart i s d ∧ StopsIn d es t := by
  cases h with
  | check c hc => exact absurd hcause hc.ne_txError
  | stopped d u es hd hdc hquiet hu => exact ⟨d, es, hd, hu⟩
  | completed d es swap hr hd hdc hswap hquiet ha =>
    have hready : d.cstate = .ready := by rw [hd.eq]; exact hr
    exact absurd (hready.symm.trans ht) (by simp)
  | broughtUp es fs hi hu hdc ha hb => cases ht

/-- The write a stop names, counted from the command's first state: the writes between that state and the one it
stops from were all answered in full. -/
theorem BusStart.stop {i : Instr} {s d t : State} {es : List Event} (hd : BusStart i s d)
    (ht : StopsIn d es t) :
    ∃ fs bytes, t.ev = s.ev ++ fs ++ [.write s.cfg.cs bytes] ∧ s.answersInFull (writeLengths fs) ∧
      s.answerAt (writeLengths fs).length ≠ .count bytes.length ∧
      t.finfo1 = auxOfAnswer (s.answerAt (writeLengths fs).length) := by
  obtain ⟨hcfg, -, -, -, -, -, es₀, hfull₀, hanswer, hev, -⟩ := hd.fields
  obtain ⟨pre, bytes, post, -, hfull, hne, rfl⟩ := ht
  have hat : d.answerAt (writeLengths pre).length = s.answerAt (writeLengths (es₀ ++ pre)).length := by
    rw [hanswer, writeLengths_append, List.length_append]
  refine ⟨es₀ ++ pre, bytes, ?_, (answersInFull_append s es₀ pre).2 ⟨hfull₀, fun k hk => ?_⟩, hat ▸ hne, ?_⟩
  · simp [State.faulted, hev, hcfg]
  · rw [State.afterBus_answerAt, ← hanswer, hfull k hk]
  · rw [← hat]; rfl

/-- Settles O15: the stop names the write, and a halt keeps the rest. `FINFO1` for a count of 2^32 or more is the
model's free value (log entry 12). -/
theorem transmissionErrorStopsAtTheWrite : Obligations.TransmissionErrorStopsAtTheWrite := by
  unfold Obligations.TransmissionErrorStopsAtTheWrite
  intro i s t h ht hcause
  have hexec := exec_cases h
  obtain ⟨d, es, hd, hstop⟩ := hexec.stopped_of_txError ht hcause
  obtain ⟨fs, bytes, hev, hfull, hne, hfinfo1⟩ := hd.stop hstop
  have hhalts := hd.halts hstop
  refine ⟨fs, bytes, hev, hfull, hne, fun ha => ?_, fun n ha hn => ?_, hhalts.active, hhalts.cp, hhalts.fcp,
    hhalts.finfo0, hexec.colours_of_halted ht⟩
  · rw [hfinfo1, ha]; rfl
  · rw [hfinfo1, ha, auxOfAnswer, toNat_auxOfCount hn]

/-! ### SETWIN (44_transmit.md R197) -/

theorem actionsOf_setwin_of_inWindow {s : State} {x0 y0 x1 y1 : Nat} (hr : s.cstate = .ready)
    (hin : inWindow s.cfg x0 y0 x1 y1 = true) :
    actionsOf (.setwin x0 y0 x1 y1) s = windowSeq x0 y0 x1 y1 s := by
  rw [actionsOf, requireReady_ready hr, hin, require_true]

/-- A stop halts with `TX_ERROR`. -/
theorem StopsIn.halted_txError {s u : State} {es : List Event} (h : StopsIn s es u) :
    u.cstate = .halted ∧ u.cause = .txError := by
  obtain ⟨⟨hhalted, hcause, -⟩, -⟩ := h.fields
  exact ⟨hhalted, hcause⟩

/-- A command whose actions stop among `es` answers the stop's state. -/
theorem exec_of_stop {i : Instr} {s : State} {es : List Event} (hr : s.cstate = .ready)
    (h : ∃ u, actionsOf i s = .ended u ∧ StopsIn s es u) :
    ∃ t, exec i s = .next t ∧ StopsIn s es t ∧ t.cstate = .halted ∧ t.cause = .txError := by
  obtain ⟨u, hu, hstop⟩ := h
  exact ⟨u, exec_of_ended (by simp [hr]) hu, hstop, hstop.halted_txError⟩

/-- Settles O42: past its checks, SETWIN is WindowSeq. `FINFO1` for a count of 2^32 or more is the model's free
value (log entry 12). -/
theorem setWindowSendsFiveTransactions : Obligations.SetWindowSendsFiveTransactions := by
  unfold Obligations.SetWindowSendsFiveTransactions
  intro s p x0 y0 x1 y1 hr hp hx hx1 hy hy1
  have hact := actionsOf_setwin_of_inWindow hr ((inWindow_iff s.cfg x0 y0 x1 y1).2 ⟨hx, hx1, hy, hy1⟩)
  have hemits := windowSeq_emits hp x0 y0 x1 y1
  rw [← hact] at hemits
  exact ⟨fun ha => exec_of_going hr (hemits.full ha), fun ha => exec_of_stop hr (hemits.short ha)⟩

/-! ### FLIP (44_transmit.md R198 to R201) -/

/-- Settles O43: past its check, FLIP is FlipBody. `FINFO1` for a count of 2^32 or more is the model's free value
(log entry 12). -/
theorem flipSendsTheFrameAndSwaps : Obligations.FlipSendsTheFrameAndSwaps := by
  unfold Obligations.FlipSendsTheFrameAndSwaps
  intro s p hr hp hw
  have hspec := flipBody_spec hp hw
  rw [← actionsOf_flip hr, writeLengths_flipEvents] at hspec
  exact ⟨fun ha => exec_of_going hr (hspec.1 ha), fun ha => exec_of_stop hr (hspec.2 ha)⟩

/-- A FLIP that does not halt ran in `READY` (10_state.md R25). -/
theorem ready_of_flip {s t : State} (h : exec .flip s = .next t) (ht : t.cstate ≠ .halted) :
    s.cstate = .ready := by
  obtain hhalted | ⟨hready, -⟩ | ⟨hinit, -⟩ := lifecycleHasNoOtherMoves .flip s t h
  · exact absurd hhalted ht
  · exact hready
  · cases hinit

/-- A FLIP without a fault has sent the whole frame. -/
theorem exec_flip_completed {s t : State} {p : Pin} (hp : s.cfg.dcPin = some p) (hw : 1 ≤ s.cfg.width)
    (h : exec .flip s = .next t) (ht : t.cstate ≠ .halted) :
    t = { s.afterBus (flipEvents s p) with active := !s.active, cp := s.cp + 1#32 } := by
  obtain ⟨hfull, hshort⟩ := flipSendsTheFrameAndSwaps s p (ready_of_flip h ht) hp hw
  by_cases ha : s.answersInFull ([1, 4, 1, 4, 1] ++ List.replicate s.cfg.height (2 * s.cfg.width))
  · simpa [hfull ha] using h.symm
  · obtain ⟨u, hu, -, hhalted, -⟩ := hshort ha
    obtain rfl : u = t := by simpa [hu] using h
    exact absurd hhalted ht

/-- FlipBody emits the window of the full display, then its rows, whatever the width; then it toggles `ACTIVE`. -/
theorem flipBody_emits_window {s : State} {p : Pin} (hp : s.cfg.dcPin = some p) :
    ∃ f rows, Emits s f (windowEvents s.cfg p 0 0 (s.cfg.width - 1) (s.cfg.height - 1) ++ rows) ∧
      flipBody s = f.andThen fun t => .going { t with active := !s.active } := by
  obtain ⟨rows, -, hrows⟩ := forEach_sends (List.range s.cfg.height)
    (fun y u => sendData (u.rowBytes s.active y) u)
    (s.afterBus (windowEvents s.cfg p 0 0 (s.cfg.width - 1) (s.cfg.height - 1))) fun _ _ => sendData_sends _ _
  refine ⟨_, rows, (windowSeq_emits hp 0 0 (s.cfg.width - 1) (s.cfg.height - 1)).andThen hrows, ?_⟩
  rw [flipBody]
  cases windowSeq 0 0 (s.cfg.width - 1) (s.cfg.height - 1) s <;> rfl

/-- What a FLIP without a fault leaves, whatever the width. -/
theorem exec_flip_window {s t : State} {p : Pin} (hp : s.cfg.dcPin = some p) (h : exec .flip s = .next t)
    (ht : t.cstate ≠ .halted) :
    ∃ rows, t = ({ s.afterBus (windowEvents s.cfg p 0 0 (s.cfg.width - 1) (s.cfg.height - 1) ++ rows) with
      active := !s.active } : State).advance 1 := by
  obtain ⟨f, rows, hemits, hf⟩ := flipBody_emits_window hp
  have hr := ready_of_flip h ht
  obtain ⟨-, rfl⟩ := exec_inv h
  rw [actionsOf_flip hr, hf] at ht ⊢
  by_cases ha : s.answersInFull
      (writeLengths (windowEvents s.cfg p 0 0 (s.cfg.width - 1) (s.cfg.height - 1) ++ rows))
  · exact ⟨rows, by rw [hemits.full ha]; rfl⟩
  · obtain ⟨u, hu, hstop⟩ := hemits.short ha
    rw [hu] at ht
    exact absurd hstop.halted_txError.1 ht

/-- Settles O45, the second FLIP by the same lemma as the first. -/
theorem flipLaws : Obligations.FlipLaws := by
  unfold Obligations.FlipLaws
  intro s t p hp h ht
  obtain ⟨rows, heq⟩ := exec_flip_window hp h ht
  have hcfg : t.cfg = s.cfg := by rw [heq]; rfl
  have hactive : t.active = !s.active := by rw [heq]; rfl
  refine ⟨hactive, fun u hu hne => ?_, ⟨rows, ?_⟩, fun b y x => ?_⟩
  · obtain ⟨_, rfl⟩ := exec_flip_window (hcfg ▸ hp) hu hne
    show (!t.active) = s.active
    rw [hactive, Bool.not_not]
  · rw [heq, List.append_assoc]; rfl
  · rw [heq]; rfl

/-- Each of a flip's `5 + H` transactions is four events (44_transmit.md R201). -/
theorem length_flipEvents (s : State) (p : Pin) : (flipEvents s p).length = 4 * (5 + s.cfg.height) := by
  simp [flipEvents, windowEvents, transaction, List.length_flatMap]
  omega

/-- Settles O46, from the events of a whole frame. -/
theorem flipSize : Obligations.FlipSize := by
  unfold Obligations.FlipSize
  intro s t p hp hw h ht
  rw [exec_flip_completed hp hw h ht]
  refine ⟨flipEvents s p, rfl, length_flipEvents s p, ?_, ?_⟩
  · simp [writeLengths_flipEvents]; omega
  · simp [writeLengths_flipEvents]; ring

/-! ### The commands that reach a flip (44_transmit.md R199) -/

/-- A check whose failure is not the fault recorded has passed. -/
theorem passed_of_cause {ok : Bool} {c c' : Cause} {k : State → Flow} {s : State} {n : Nat} (hc : c ≠ c')
    (h : ((require ok c k s).finish n).cstate = .halted → ((require ok c k s).finish n).cause = c') :
    ok = true := by
  cases ok with
  | true => rfl
  | false => exact absurd (h rfl) hc

/-- A command with a flip that passes its checks comes down to FlipBody on what its drawing step leaves. -/
theorem actionsOf_flips {i : Instr} {s t : State} (hr : s.cstate = .ready) (hflips : i.flips = true)
    (hdimg : ∀ imm sel, i = .dimg imm sel → sel = 0 ∨ sel = 1) (h : exec i s = .next t)
    (ht : t.cstate = .halted → t.cause = .txError) :
    ∃ d, d = { s with fb := d.fb } ∧ actionsOf i s = flipBody d := by
  obtain ⟨-, rfl⟩ := exec_inv h
  cases i with
  | clear imm bgc =>
    obtain rfl : imm = true := hflips
    exact ⟨_, clearActive_eq bgc s, actionsOf_clear hr true bgc⟩
  | frect imm x1 y1 x2 y2 =>
    obtain rfl : imm = true := hflips
    rw [actionsOf_frect hr] at ht
    exact ⟨_, fillRect_eq x1 y1 x2 y2 s, actionsOf_frect_of_inRect hr (passed_of_cause (by simp) ht) true⟩
  | dimg imm sel =>
    obtain rfl : imm = true := hflips
    have hl := logoOf_of_known s.cfg (hdimg true sel rfl)
    rw [actionsOf_dimg hr hl] at ht
    exact ⟨_, blitLogo_eq _ s, actionsOf_dimg_of_inImage hr hl (passed_of_cause (by simp) ht) true⟩
  | flip => exact ⟨s, rfl, actionsOf_flip hr⟩
  | _ => cases hflips

/-- FlipBody changes `ACTIVE` exactly when its whole frame is answered in full. -/
theorem flipBody_active_ne_iff {s : State} {p : Pin} (hp : s.cfg.dcPin = some p) (hw : 1 ≤ s.cfg.width) (n : Nat) :
    ((flipBody s).finish n).active ≠ s.active ↔
      s.answersInFull ([1, 4, 1, 4, 1] ++ List.replicate s.cfg.height (2 * s.cfg.width)) := by
  obtain ⟨hfull, hshort⟩ := flipBody_spec hp hw
  rw [← writeLengths_flipEvents s p]
  by_cases ha : s.answersInFull (writeLengths (flipEvents s p))
  · rw [hfull ha]
    exact iff_of_true (by simp) ha
  · obtain ⟨u, hu, hstop⟩ := hshort ha
    obtain ⟨-, -, -, -, -, hactive, -⟩ := hstop.fields
    rw [hu]
    exact iff_of_false (fun hne => hne hactive) ha

/-- Settles O44: the drawing step before FlipBody changes neither `ACTIVE` nor the bus's answers. -/
theorem activeChangesOnlyAfterTheWholeFrame : Obligations.ActiveChangesOnlyAfterTheWholeFrame := by
  unfold Obligations.ActiveChangesOnlyAfterTheWholeFrame
  intro i s t p hr hp hw hflips hdimg h ht
  obtain ⟨d, hd, hact⟩ := actionsOf_flips hr hflips hdimg h ht
  obtain ⟨m, rfl⟩ : ∃ m, d = { s with fb := m } := ⟨_, hd⟩
  obtain ⟨-, rfl⟩ := exec_inv h
  rw [hact]
  exact flipBody_active_ne_iff (s := { s with fb := m }) hp hw _

/-! ### What a flip's events mean to the panel (44_transmit.md R205) -/

/-- A transaction sets the DC level before its bytes, so the level before it does not matter. -/
theorem afterEvents_transaction {c : Config} {p : Pin} (hp : c.dcPin = some p) (panel : Panel) (lvl : PinLevel)
    (dc : Level) (bytes : List Byte) (es : List Event) :
    panel.afterEvents c lvl (transaction c p dc bytes ++ es) =
      ((bytes.map fun b => (PinLevel.ofLevel dc, b)).foldl (Panel.observe c) panel).afterEvents c
        (.ofLevel dc) es := by
  simp [Panel.afterEvents, transaction, busStream, hp]

theorem afterEvents_command {c : Config} {p : Pin} (hp : c.dcPin = some p) (panel : Panel) (lvl : PinLevel)
    (op : Byte) (es : List Event) :
    panel.afterEvents c lvl (transaction c p .low [op] ++ es) = (panel.onCommand c op).afterEvents c .low es :=
  afterEvents_transaction hp panel lvl .low [op] es

theorem afterEvents_data {c : Config} {p : Pin} (hp : c.dcPin = some p) (panel : Panel) (lvl : PinLevel)
    (bytes : List Byte) (es : List Event) :
    panel.afterEvents c lvl (transaction c p .high bytes ++ es) =
      (bytes.foldl (Panel.onData c) panel).afterEvents c .high es := by
  rw [afterEvents_transaction hp, List.foldl_map]
  rfl

/-- Data transactions in a row are their bytes in a row. -/
theorem afterEvents_flatMap_data {α : Type} {c : Config} {p : Pin} (hp : c.dcPin = some p) (panel : Panel)
    (lvl : PinLevel) (xs : List α) (bytes : α → List Byte) :
    panel.afterEvents c lvl (xs.flatMap fun x => transaction c p .high (bytes x)) =
      (xs.flatMap bytes).foldl (Panel.onData c) panel := by
  induction xs generalizing panel lvl with
  | nil => rfl
  | cons x xs ih => rw [List.flatMap_cons, afterEvents_data hp, ih, List.flatMap_cons, List.foldl_append]

/-- Four parameter bytes after a window command set its bounds. -/
theorem foldl_onData_param (c : Config) {panel : Panel} {op : Byte} (h : panel.mode = .param op [])
    (b0 b1 b2 b3 : Byte) :
    [b0, b1, b2, b3].foldl (Panel.onData c) panel =
      ({ panel with mode := .param op [b0, b1, b2, b3] }).setBounds c op [b0, b1, b2, b3] := by
  simp [Panel.onData, h]

/-- The big-endian bytes of a 16-bit bound are that bound (00_scope.md R10). -/
theorem toNat_hiByte_append_loByte {n : Nat} (h : n < 65536) : (hiByte n ++ loByte n : BitVec 16).toNat = n := by
  rw [BitVec.toNat_append, hiByte, loByte, BitVec.toNat_ofNat, BitVec.toNat_ofNat,
    ← Nat.shiftLeft_add_eq_or_of_lt (Nat.mod_lt _ (by decide)), Nat.shiftLeft_eq]
  omega

theorem boundsOf_bytes {n m : Nat} (hn : n < 65536) (hm : m < 65536) :
    boundsOf [hiByte n, loByte n, hiByte m, loByte m] = (n, m) :=
  Prod.ext (toNat_hiByte_append_loByte hn) (toNat_hiByte_append_loByte hm)

section
variable {c : Config} {p : Pin} (hp : c.dcPin = some p) (panel : Panel) (lvl : PinLevel) (es : List Event)
include hp

/-- A column bound command sets the columns, if it is told apart from the row bound command. -/
theorem afterEvents_caset (hop : c.opcCaset ≠ c.opcRaset) {x0 x1 : Nat} (hx0 : x0 < 65536) (hx1 : x1 < 65536) :
    panel.afterEvents c lvl (transaction c p .low [c.opcCaset] ++
        (transaction c p .high [hiByte x0, loByte x0, hiByte x1, loByte x1] ++ es)) =
      ({ panel with
        colStart := x0, colEnd := x1
        mode := .param c.opcCaset [hiByte x0, loByte x0, hiByte x1, loByte x1] } : Panel).afterEvents c .high es := by
  rw [afterEvents_command hp, afterEvents_data hp, foldl_onData_param c (op := c.opcCaset) (by simp [Panel.onCommand]),
    Panel.setBounds, boundsOf_bytes hx0 hx1]
  simp [Panel.onCommand, hop]

/-- A row bound command sets the rows, if it is told apart from the column bound command. -/
theorem afterEvents_raset (hop : c.opcCaset ≠ c.opcRaset) {y0 y1 : Nat} (hy0 : y0 < 65536) (hy1 : y1 < 65536) :
    panel.afterEvents c lvl (transaction c p .low [c.opcRaset] ++
        (transaction c p .high [hiByte y0, loByte y0, hiByte y1, loByte y1] ++ es)) =
      ({ panel with
        rowStart := y0, rowEnd := y1
        mode := .param c.opcRaset [hiByte y0, loByte y0, hiByte y1, loByte y1] } : Panel).afterEvents c .high es := by
  rw [afterEvents_command hp, afterEvents_data hp, foldl_onData_param c (op := c.opcRaset) (by simp [Panel.onCommand]),
    Panel.setBounds, boundsOf_bytes hy0 hy1]
  simp [Panel.onCommand, hop.symm]

end

/-- The panel once a window has been addressed: its bounds, and writing from its first pixel on. -/
def Panel.addressed (panel : Panel) (x0 y0 x1 y1 : Nat) : Panel :=
  { panel with
    colStart := x0, colEnd := x1, rowStart := y0, rowEnd := y1, px := x0, py := y0, mode := .writing 0 none }

/-- WindowSeq's five transactions address its window (44_transmit.md R194, R205). -/
theorem afterEvents_windowEvents {c : Config} {p : Pin} (hp : c.dcPin = some p) (hop : c.WindowOpcodesDistinct)
    {x0 y0 x1 y1 : Nat} (hx0 : x0 < 65536) (hy0 : y0 < 65536) (hx1 : x1 < 65536) (hy1 : y1 < 65536)
    (panel : Panel) (lvl : PinLevel) (es : List Event) :
    panel.afterEvents c lvl (windowEvents c p x0 y0 x1 y1 ++ es) =
      (panel.addressed x0 y0 x1 y1).afterEvents c .low es := by
  obtain ⟨hcr, hwc, hwr⟩ := hop
  simp only [windowEvents, List.append_assoc]
  rw [afterEvents_caset hp _ _ _ hcr hx0 hx1, afterEvents_raset hp _ _ _ hcr hy0 hy1, afterEvents_command hp]
  simp [Panel.onCommand, hwc, hwr, Panel.addressed]

/-! ### A frame arriving at the panel, pixel by pixel (44_transmit.md R205, R207) -/

/-- The window is the whole display of `w` by `h` pixels, the first `n` pixels of the frame `pix` have arrived,
row by row, and the pointer stands at the next one. -/
structure Panel.Received (w h : Nat) (pix : Nat → Nat → BitVec 16) (n : Nat) (panel : Panel) : Prop where
  colStart : panel.colStart = 0
  colEnd : panel.colEnd = w - 1
  rowStart : panel.rowStart = 0
  rowEnd : panel.rowEnd = h - 1
  mode : panel.mode = .writing n none
  px : panel.px = n % w
  py : panel.py = n / w
  shown : ∀ k < n, panel.pixel? (k / w) (k % w) = some (pix (k / w) (k % w))

theorem Panel.addressed_received (panel : Panel) (w h : Nat) (pix : Nat → Nat → BitVec 16) :
    Panel.Received w h pix 0 (panel.addressed 0 0 (w - 1) (h - 1)) :=
  ⟨rfl, rfl, rfl, rfl, rfl, (Nat.zero_mod w).symm, (Nat.zero_div w).symm, fun _ hk => absurd hk (Nat.not_lt_zero _)⟩

theorem Panel.pixel?_writePixel (panel : Panel) (v : BitVec 16) (n y x : Nat) :
    (panel.writePixel v n).pixel? y x = if y = panel.py ∧ x = panel.px then some v else panel.pixel? y x := by
  rw [Panel.pixel?, Panel.writePixel, List.lookup_cons]
  split
  · next heq => rw [if_pos (Prod.mk.inj (eq_of_beq heq))]
  · next hne => rw [if_neg (fun heq => by simp [heq] at hne)]; rfl

/-- Column `x` of row `y` is pixel `y * w + x`. -/
theorem raster_div_mod {w x : Nat} (hx : x < w) (y : Nat) : (y * w + x) / w = y ∧ (y * w + x) % w = x :=
  (Nat.div_mod_unique (by omega)).2 ⟨by ring, hx⟩

theorem raster_lt {w h x y : Nat} (hx : x < w) (hy : y < h) : y * w + x < h * w :=
  calc y * w + x < (y + 1) * w := by rw [Nat.succ_mul]; omega
    _ ≤ h * w := Nat.mul_le_mul_right w hy

/-- The pixel after the `n`-th in a row of `w`: the next column, or the first one of the next row. -/
theorem succ_div_mod {w : Nat} (hw : 1 ≤ w) (n : Nat) :
    (n + 1) / w = (if n % w + 1 > w - 1 then n / w + 1 else n / w) ∧
      (n + 1) % w = if n % w + 1 > w - 1 then 0 else n % w + 1 := by
  have hn : n % w + w * (n / w) = n := Nat.mod_add_div n w
  have hlt : n % w < w := Nat.mod_lt n hw
  refine (Nat.div_mod_unique hw).2 ?_
  split
  · exact ⟨by rw [Nat.mul_add]; omega, hw⟩
  · exact ⟨by omega, by omega⟩

section
variable {c : Config} {w h : Nat} {pix : Nat → Nat → BitVec 16} {panel : Panel}

theorem Panel.Received.windowCount {n : Nat} (hp : panel.Received w h pix n) (hw : 1 ≤ w) (hh : 1 ≤ h) :
    panel.windowCount = w * h := by
  rw [Panel.windowCount_of_ordered (by rw [hp.colStart]; exact Nat.zero_le _)
      (by rw [hp.rowStart]; exact Nat.zero_le _), hp.colStart, hp.colEnd, hp.rowStart, hp.rowEnd, Nat.sub_zero,
    Nat.sub_zero, Nat.sub_add_cancel hw, Nat.sub_add_cancel hh]

/-- The frame's next pixel, written at the pointer. -/
theorem Panel.Received.writePixel {n : Nat} (hp : panel.Received w h pix n) (hw : 1 ≤ w) :
    (panel.writePixel (pix (n / w) (n % w)) n).Received w h pix (n + 1) := by
  obtain ⟨hdiv, hmod⟩ := succ_div_mod hw n
  refine ⟨hp.colStart, hp.colEnd, hp.rowStart, hp.rowEnd, rfl, ?_, ?_, fun k hk => ?_⟩
  · simp only [Panel.writePixel, hp.px, hp.colEnd, hp.colStart, hmod]
  · simp only [Panel.writePixel, hp.px, hp.py, hp.colEnd, hdiv]
  · rw [Panel.pixel?_writePixel, hp.py, hp.px]
    split
    · next heq => rw [heq.1, heq.2]
    · next hne => exact hp.shown k (lt_of_le_of_ne (Nat.le_of_lt_succ hk) (by rintro rfl; exact hne ⟨rfl, rfl⟩))

/-- The two bytes of the frame's next pixel. -/
theorem Panel.Received.bytes {y x : Nat} (hp : panel.Received w h pix (y * w + x)) (hx : x < w) (hy : y < h)
    {b0 b1 : Byte} (hpix : b0 ++ b1 = pix y x) :
    ([b0, b1].foldl (Panel.onData c) panel).Received w h pix (y * w + x + 1) := by
  have hw : 1 ≤ w := by omega
  have hcount : y * w + x < panel.windowCount := by
    rw [hp.windowCount hw (by omega), Nat.mul_comm w h]
    exact raster_lt hx hy
  obtain ⟨hdiv, hmod⟩ := raster_div_mod hx y
  have hwrite : [b0, b1].foldl (Panel.onData c) panel =
      { panel with mode := .writing (y * w + x) (some b0) }.writePixel (b0 ++ b1) (y * w + x) := by
    simp only [List.foldl_cons, List.foldl_nil, Panel.onData, hp.mode]
    exact if_pos hcount
  have hnext := hp.writePixel hw
  rw [hdiv, hmod, ← hpix] at hnext
  rwa [hwrite]

/-- A row of the frame, its first `n` pixels. -/
theorem Panel.Received.row {y : Nat} (hp : panel.Received w h pix (y * w)) (hy : y < h) {bytes : Nat → List Byte}
    (hbytes : ∀ x, ∃ b0 b1, bytes x = [b0, b1] ∧ b0 ++ b1 = pix y x) (n : Nat) (hn : n ≤ w) :
    (((List.range n).flatMap bytes).foldl (Panel.onData c) panel).Received w h pix (y * w + n) := by
  induction n with
  | zero => exact hp
  | succ n ih =>
    obtain ⟨b0, b1, hb, hpix⟩ := hbytes n
    rw [List.range_succ, List.flatMap_append, List.foldl_append, List.flatMap_singleton, hb]
    exact (ih (by omega)).bytes hn hy hpix

/-- The first `n` rows of the frame. -/
theorem Panel.Received.rows (hp : panel.Received w h pix 0) {bytes : Nat → Nat → List Byte}
    (hbytes : ∀ y x, ∃ b0 b1, bytes y x = [b0, b1] ∧ b0 ++ b1 = pix y x) (n : Nat) (hn : n ≤ h) :
    (((List.range n).flatMap fun y => (List.range w).flatMap (bytes y)).foldl (Panel.onData c) panel).Received
      w h pix (n * w) := by
  induction n with
  | zero => simpa using hp
  | succ n ih =>
    rw [List.range_succ, List.flatMap_append, List.foldl_append, List.flatMap_singleton, Nat.succ_mul]
    exact (ih (by omega)).row hn (hbytes n) w le_rfl

/-- Once the whole frame has arrived, the panel shows each of its pixels. -/
theorem Panel.Received.pixel {y x : Nat} (hp : panel.Received w h pix (h * w)) (hx : x < w) (hy : y < h) :
    panel.pixel? y x = some (pix y x) := by
  obtain ⟨hdiv, hmod⟩ := raster_div_mod hx y
  simpa only [hdiv, hmod] using hp.shown (y * w + x) (raster_lt hx hy)

end

/-- A whole flip brings the panel the frame of the active buffer. -/
theorem afterEvents_flipEvents {s : State} {p : Pin} (hp : s.cfg.dcPin = some p) (hcfg : s.cfg.Valid)
    (hop : s.cfg.WindowOpcodesDistinct) (panel : Panel) (lvl : PinLevel) :
    (panel.afterEvents s.cfg lvl (flipEvents s p)).Received s.cfg.width s.cfg.height
      (fun y x => swap16 (s.cell s.active y x)) (s.cfg.height * s.cfg.width) := by
  obtain ⟨hw, hw', hh, hh', -⟩ := hcfg
  rw [flipEvents, afterEvents_windowEvents hp hop (by omega) (by omega) (by omega) (by omega),
    afterEvents_flatMap_data hp]
  exact (panel.addressed_received s.cfg.width s.cfg.height _).rows
    (fun y x => ⟨_, _, rfl, rfl⟩) s.cfg.height le_rfl

/-- Settles O47, by the frame's arrival pixel by pixel. -/
theorem panelShowsTheFrameAfterFlip : Obligations.PanelShowsTheFrameAfterFlip := by
  unfold Obligations.PanelShowsTheFrameAfterFlip
  intro s t p panel hcfg hop hp h ht
  have hframe := afterEvents_flipEvents hp hcfg hop panel s.dcLvl
  refine ⟨flipEvents s p, ?_, Nat.mul_comm s.cfg.height s.cfg.width ▸ hframe.mode, hframe.colStart, hframe.colEnd,
    hframe.rowStart, hframe.rowEnd, fun y x hx hy => hframe.pixel hx hy⟩
  rw [exec_flip_completed hp hcfg.1 h ht]
  rfl

end Sys2Proof.Machine

/-! The statements about faults and reset (60_exceptions.md): the checks a command makes, what a failed check leaves
of the state, what a halted controller does, and what the host's moves and its reset leave. -/

namespace Sys2Proof.Machine

/-! ### What a failed check leaves (60_exceptions.md R222 to R224, R229, R230) -/

/-- A command whose actions end at the fault of a check leaves the fault record of its head word and nothing else. -/
theorem exec_of_raise {i : Instr} {s : State} {c : Cause} (hs : s.cstate ≠ .halted)
    (h : actionsOf i s = .ended (s.raiseFault c 0#32)) : exec i s = .next (s.faulted s.headWord c 0#32) :=
  exec_of_ended hs h

/-- In `READY`, a command that comes down to a check raises the check's cause where the check fails. -/
theorem exec_of_failedCheck {i : Instr} {s : State} {ok : Bool} {c : Cause} {k : State → Flow}
    (hr : s.cstate = .ready) (hi : actionsOf i s = require ok c k s) (hok : ok ≠ true) :
    exec i s = .next (s.faulted s.headWord c 0#32) := by
  refine exec_of_raise (by simp [hr]) ?_
  rw [hi, Bool.eq_false_iff.2 hok, require_false]

theorem actionsOf_dchrc_of_inFont {s : State} {ch : Nat} (hr : s.cstate = .ready)
    (hfont : inFont s.cfg ch = true) (inv dw : Bool) (x y : Nat) (fg bg : Colour) :
    actionsOf (.dchrc inv dw ch x y fg bg) s = require (inGlyph s.cfg x y) .bounds
      (fun s => .going (latchColours fg bg (renderGlyph (glyphIndex ch) x y fg bg s))) s := by
  rw [actionsOf, requireReady_ready hr, hfont, require_true]

theorem actionsOf_dchr_of_inFont {s : State} {ch : Nat} (hr : s.cstate = .ready)
    (hfont : inFont s.cfg ch = true) (inv dw : Bool) (x y : Nat) :
    actionsOf (.dchr inv dw ch x y) s = require (inGlyph s.cfg x y) .bounds
      (fun s => .going (renderGlyph (glyphIndex ch) x y s.curFg s.curBg s)) s := by
  rw [actionsOf, requireReady_ready hr, hfont, require_true]

/-- Settles O12: each command comes down to the check of its own predicate, a glyph command once its character has
passed the check of the font. -/
theorem coordinatesOutOfRangeFault : Obligations.CoordinatesOutOfRangeFault := by
  unfold Obligations.CoordinatesOutOfRangeFault
  intro s hr
  refine ⟨fun x y col hout => ?pixel, fun imm x1 y1 x2 y2 hx hy hout => ?rect,
    fun inv dw ch x y fg bg hlo hhi hout => ?glyph, fun imm sel hsel hout => ?image,
    fun x0 y0 x1 y1 hout => ?window⟩
  case pixel =>
    have hin : inPixel s.cfg x y ≠ true := mt (inPixel_iff _ _ _).1 (by omega)
    exact ⟨exec_of_failedCheck hr (requireReady_ready hr _) hin,
      exec_of_failedCheck hr (requireReady_ready hr _) hin, exec_of_failedCheck hr (requireReady_ready hr _) hin⟩
  case rect => exact exec_of_failedCheck hr (actionsOf_frect hr _ _ _ _ _) (mt (inRect_iff _ _ _ _ _).1 (by omega))
  case glyph =>
    have hfont : inFont s.cfg ch = true := (inFont_iff _ _).2 ⟨hlo, hhi⟩
    have hin : inGlyph s.cfg x y ≠ true := mt (inGlyph_iff _ _ _).1 (by omega)
    exact ⟨exec_of_failedCheck hr (actionsOf_dchrc_of_inFont hr hfont _ _ _ _ _ _) hin,
      exec_of_failedCheck hr (actionsOf_dchr_of_inFont hr hfont _ _ _ _) hin⟩
  case image =>
    exact exec_of_failedCheck hr (actionsOf_dimg hr (logoOf_of_known s.cfg hsel) imm)
      (mt (inImage_iff _).1 (by omega))
  case window =>
    exact exec_of_failedCheck hr (requireReady_ready hr _) (mt (inWindow_iff _ _ _ _ _).1 (by omega))

/-- Settles O13: the check of the font comes before that of the coordinates. -/
theorem charactersOutsideFontFault : Obligations.CharactersOutsideFontFault := by
  unfold Obligations.CharactersOutsideFontFault
  intro s inv dw ch x y fg bg hr hout
  have hfont : inFont s.cfg ch ≠ true := mt (inFont_iff _ _).1 (by omega)
  exact ⟨exec_of_failedCheck hr (requireReady_ready hr _) hfont,
    exec_of_failedCheck hr (requireReady_ready hr _) hfont⟩

/-- A command that halts without a `TX_ERROR` halted at a check, before any other action. -/
theorem ExecAnswers.faulted_of_halted {i : Instr} {s t : State} (h : ExecAnswers i s t)
    (ht : t.cstate = .halted) (hcause : t.cause ≠ .txError) : t = s.faulted s.headWord t.cause 0#32 := by
  cases h with
  | check c hc => rfl
  | stopped d u es hd hdc hquiet hu => exact absurd hu.halted_txError.2 hcause
  | completed d es swap hr hd hdc hswap hquiet ha =>
    have hready : d.cstate = .ready := by rw [hd.eq]; exact hr
    exact absurd (hready.symm.trans ht) (by simp)
  | broughtUp es fs hi hu hdc ha hb => cases ht

/-- Settles O14, from the cases of a command. -/
theorem preciseFaultsChangeNothingElse : Obligations.PreciseFaultsChangeNothingElse := by
  unfold Obligations.PreciseFaultsChangeNothingElse
  intro i s t h ht hcause
  exact (exec_cases h).faulted_of_halted ht hcause

/-! ### The state checks and the halted controller (60_exceptions.md R223, R227) -/

theorem actionsOf_init_of_ready {s : State} (hr : s.cstate = .ready) :
    actionsOf .init s = .ended (s.raiseFault .reinit 0#32) := by
  rw [actionsOf, decide_eq_false (not_not_intro hr), require_false]

theorem exec_of_halted {s : State} (hs : s.cstate = .halted) (i : Instr) : exec i s = .fault (.halted s.cause) := by
  rw [exec_eq, runCommand_halted hs]

theorem step_of_halted {s : State} (hs : s.cstate = .halted) : step s = .fault (.halted s.cause) := if_pos hs

/-- Settles O11, by the check of `CSTATE` that each command makes first. -/
theorem stateChecksComeFirst : Obligations.StateChecksComeFirst := by
  unfold Obligations.StateChecksComeFirst
  intro s i
  exact ⟨fun hu hi => exec_of_raise (by simp [hu]) (actionsOf_notInit hi (by simp [hu])),
    fun hr => exec_of_raise (by simp [hr]) (actionsOf_init_of_ready hr), fun hs => exec_of_halted hs i⟩

/-! ### An unknown image (60_exceptions.md R233) -/

theorem logoOf_of_unknown (c : Config) {sel : Nat} (h : 2 ≤ sel) : logoOf c sel = none := by
  obtain ⟨n, rfl⟩ := Nat.exists_eq_add_of_le' h
  rfl

theorem actionsOf_dimg_of_unknown {s : State} {sel : Nat} (hr : s.cstate = .ready) (hsel : 2 ≤ sel) (imm : Bool) :
    actionsOf (.dimg imm sel) s = .going s := by
  rw [actionsOf, requireReady_ready hr, logoOf_of_unknown s.cfg hsel]

/-- Settles O40: past its state check, DIMG of an unknown image has no action. -/
theorem unknownImageIsANoOp : Obligations.UnknownImageIsANoOp := by
  unfold Obligations.UnknownImageIsANoOp
  intro s imm sel hr hsel
  exact exec_of_going hr (actionsOf_dimg_of_unknown hr hsel imm)

/-! ### The host's moves and reset (60_exceptions.md R225, R239; 70_reset_and_hazards.md R251) -/

theorem State.hostReset_halted {s : State} (hp : s.cfg.dcPin = none) :
    s.hostReset.cstate = .halted ∧ s.hostReset.cause = .config := ⟨if_pos hp, if_pos hp⟩

theorem State.hostReset_uninit {s : State} (hp : s.cfg.dcPin ≠ none) :
    s.hostReset.cstate = .uninit ∧ s.hostReset.cause = .noFault := ⟨if_neg hp, if_neg hp⟩

/-- The legal states say nothing of the words still to come. -/
theorem State.Inv.issue {s : State} (h : s.Inv) (w : Word) : (s.issue w).Inv :=
  ⟨h.cfg, h.memory, h.inWindow, h.cause, h.faultRegs, h.dcPin, h.rstPin, h.blPin, h.uninit, h.colours⟩

/-- Settles O18: a word issued changes only the stream, a read changes nothing, and a reset leads to a reset state
of the same configuration. The canonical form of memory is the model's (log entries 3 and 4). -/
theorem hostMovesKeepLegalStates : Obligations.HostMovesKeepLegalStates := by
  unfold Obligations.HostMovesKeepLegalStates
  intro m s h
  cases m with
  | issue w => exact h.issue w
  | readRegister offset => exact h
  | readBack a => exact h
  | reset => exact State.afterReset_inv h.cfg s.answers s.draws (s.epoch + 1)

/-- Settles O8: `HALTED` is checked before anything else, and reset does not look at `CSTATE`. -/
theorem haltedControllerHasNoStep : Obligations.HaltedControllerHasNoStep := by
  unfold Obligations.HaltedControllerHasNoStep
  intro s hs
  exact ⟨step_of_halted hs, exec_of_halted hs, fun ⟨hne, _⟩ => hne hs, fun _ => rfl, fun _ => rfl, fun _ => rfl,
    fun hp => (State.hostReset_uninit hp).1⟩

/-- Settles O48: reset writes every field from the configuration alone, and no cell is listed after it. The draw's
form is the model's (log entry 4). -/
theorem resetRestoresTheRecord : Obligations.ResetRestoresTheRecord := by
  unfold Obligations.ResetRestoresTheRecord
  intro s
  have hcells : ∀ b y x, s.hostReset.cell b y x = Config.resetCell (s.epoch + 1) (cellIndex s.cfg b y x) :=
    fun _ _ _ => rfl
  exact ⟨rfl, rfl, rfl, rfl, rfl, rfl, rfl, rfl, rfl, rfl, rfl, rfl, hcells, State.hostReset_halted,
    State.hostReset_uninit⟩

end Sys2Proof.Machine
